-- ==== Sys2Proof/Word.lean ====
section
/-! DEFINITION. The byte, the word and the word width parameter XLEN (spec 00_scope.md R5, R12). -/

namespace Sys2Proof

/-- A byte is 8 bits (R12). -/
abbrev Byte := BitVec 8

/-- A word of XLEN bits, zero-extended into 64 bits: with XLEN = 64 all of it, with XLEN = 32 its low half, the
high half being zero (R5, R12; log 1: DESIGN CHOICE). -/
abbrev Word := BitVec 64

/-- The parameter XLEN, which R5 leaves OPEN in {32, 64}. -/
inductive Xlen where
  | x32
  | x64
  deriving DecidableEq, Repr, Inhabited

/-- XLEN, the number of bits of a word (R5). -/
def Xlen.bits : Xlen → Nat
  | .x32 => 32
  | .x64 => 64

/-- WB = XLEN / 8, the number of bytes of a word (R5). -/
def Xlen.bytes : Xlen → Nat
  | .x32 => 4
  | .x64 => 8

/-- A word that is an XLEN-bit value: nothing stands above bit XLEN - 1 (R12). -/
abbrev Xlen.Fits (x : Xlen) (w : Word) : Prop := w.toNat < 2 ^ x.bits

end Sys2Proof
end

