-- ==== Sys2Proof/Config.lean ====
section
/-! DEFINITION. What is fixed for a launch (spec 00_scope.md R5 to R11) and what the host is free to answer
(spec 43_exit_and_host_bridge.md R172, R173). -/

namespace Sys2Proof

/-- How LC extends the byte it loads: the optional parameter LC_EXT of U1 and D14, default sign. -/
inductive LcExt where
  | sign
  | zero
  deriving DecidableEq, Repr, Inhabited

/-- Which address XVAL records when the host cannot read a string argument of PRTF: the first unreadable byte, as R201
has it for a string read, or the argument word, as R177 writes it. The spec does not say which rule gives way (log 7). -/
inductive StringFaultXval where
  | firstUnreadable
  | argument
  deriving DecidableEq, Repr, Inhabited

/-- The parameters a step depends on (R5, R6, R7; U1 for `lcExt`; log 7 for `stringFaultXval`). Sizes and bases are unbounded integers, as the
range tests of R54 take them. -/
structure Config where
  xlen : Xlen
  /-- POOL_BYTES, the size of each arena in bytes. -/
  poolBytes : Nat
  textBase : Nat
  dataBase : Nat
  stackBase : Nat
  lcExt : LcExt
  stringFaultXval : StringFaultXval
  deriving DecidableEq, Repr, Inhabited

/-- STACK_TOP = STACK_BASE + POOL_BYTES (R7, D6). -/
def Config.stackTop (c : Config) : Nat := c.stackBase + c.poolBytes

/-- The constraint R7 puts on one arena base. -/
abbrev Config.baseOk (c : Config) (base : Nat) : Prop :=
  base % c.xlen.bytes = 0 ∧ c.xlen.bytes ≤ base ∧ base + c.poolBytes ≤ 2 ^ c.xlen.bits - c.xlen.bytes

/-- The arenas at `b` and `b'` share no address (R7). -/
abbrev Config.apart (c : Config) (b b' : Nat) : Prop := b + c.poolBytes ≤ b' ∨ b' + c.poolBytes ≤ b

/-- The constraints of R6 and R7. -/
abbrev Config.wf (c : Config) : Prop :=
  (c.poolBytes % c.xlen.bytes = 0 ∧ 2 * c.xlen.bytes ≤ c.poolBytes ∧ c.poolBytes < 2 ^ (c.xlen.bits - 1)) ∧
  (c.baseOk c.textBase ∧ c.baseOk c.dataBase ∧ c.baseOk c.stackBase) ∧
  (c.apart c.textBase c.dataBase ∧ c.apart c.textBase c.stackBase ∧ c.apart c.dataBase c.stackBase)

/-- The launch parameters: what the caller and the Bytecode Producer fix before the core is released (R8, R9). -/
structure Launch where
  cfg : Config
  /-- ENTRY_PC. -/
  entryPc : Nat
  /-- TEXT_INIT, the Producer's words. -/
  textInit : List Word
  /-- DATA_INIT, bytes from DATA_BASE upward. -/
  dataInit : List Byte
  deriving DecidableEq, Repr, Inhabited

/-- The constraints of R6 to R9. -/
abbrev Launch.wf (l : Launch) : Prop :=
  l.cfg.wf ∧
  (l.entryPc % l.cfg.xlen.bytes = 0 ∧ l.cfg.textBase ≤ l.entryPc ∧
    l.entryPc + l.cfg.xlen.bytes ≤ l.cfg.textBase + l.cfg.poolBytes) ∧
  (l.textInit.length * l.cfg.xlen.bytes ≤ l.cfg.poolBytes ∧ ∀ w ∈ l.textInit, l.cfg.xlen.Fits w) ∧
  l.dataInit.length ≤ l.cfg.poolBytes

/-- The parameters of the reference configuration REF (R10), LC_EXT = sign, XVAL of a string argument's fault as R201 has
it (log 7). -/
def Config.ref : Config :=
  { xlen := .x64, poolBytes := 0x40000, textBase := 0x100000, dataBase := 0x200000, stackBase := 0x300000,
    lcExt := .sign, stringFaultXval := .firstUnreadable }

/-- The launch of REF with nothing loaded: ENTRY_PC = TEXT_BASE, DATA_INIT empty (R10), TEXT_INIT empty (log 3:
DESIGN CHOICE, a program is placed from outside). -/
def Launch.ref : Launch := { cfg := Config.ref, entryPc := 0x100000, textInit := [], dataInit := [] }

/-- The seven host-bridge opcodes (R171). `opn` is OPEN. -/
inductive HostOp where
  | opn | clos | read | prtf | malc | mset | mcmp
  deriving DecidableEq, Repr, Inhabited

/-- What one host-bridge instruction hands to the host (R173, column "core sends" and "host may read"). -/
structure HostRequest where
  op : HostOp
  /-- The argument words in the order the instruction's rule reads them. -/
  args : List Word
  /-- The string bytes the core read and sent: OPEN's path, PRTF's format. -/
  sent : List Byte
  /-- The memory the answer may depend on: all of it for PRTF, whose host may read any readable byte, and for MCMP,
  whose result's magnitude the compared bytes may decide; else none (log 4). -/
  readable : List Host.Cell
  deriving DecidableEq, Repr, Inhabited

/-- One host-bridge call as R37 asks for it to be recorded. -/
structure HostEvent where
  op : HostOp
  /-- The argument words in the order the instruction's rule reads them. -/
  args : List Word
  /-- The bytes the core read from memory and sent: OPEN's path, PRTF's format. -/
  sent : List Byte
  /-- The bytes the host itself read from memory, each with its address, in the order read: PRTF's, as a format with `%`
  directed it. -/
  hostRead : List Host.Cell
  /-- The result word, ax after the call; none for a PRTF that faulted after its host call (R206). -/
  result : Option Word
  /-- The bytes the host wrote: READ's data. -/
  written : List Byte
  deriving DecidableEq, Repr, Inhabited

/-- One answer of the host, before the constraints of the asking opcode's rule are put on it (R172): a result word;
bytes (READ: the bytes read; MALC: the new block's first contents, U6); and for PRTF with a `%` format (R177, U8) the
addresses the host reads and the argument at which a string read fails, if one does. -/
structure HostAnswer where
  result : Word
  bytes : List Byte
  /-- The byte addresses the host reads as the format directs, in order; those that are readable count (R173). -/
  reads : List Word
  /-- The number of the forwarded argument whose string read fails, 0 for the first one after the format. -/
  stringFault : Option Nat
  deriving DecidableEq, Repr, Inhabited

/-- HOST (R11, R172): the answer the host gives to a request after the calls recorded so far, newest first. It has
no body: nothing is known of it (log 4), and a claim about it holds for every host. -/
opaque Config.hostAnswer : List HostEvent → HostRequest → HostAnswer

end Sys2Proof
end

