-- ==== Sys2Proof/Syntax.lean ====
section
/-! DEFINITION. The 38 instructions of spec/opcode_table.json, one constructor a row, in the order of the opcode
numbers of spec 30_encoding.md R86. An F1 instruction carries its operand word (R82, R84). -/

namespace Sys2Proof

/-- An instruction of SCI-VM. The constructor `opn` is OPEN; every other constructor has its mnemonic's name. -/
inductive Instr where
  /-- LEA, R101: frame offset in words. -/
  | lea (imm : Word)
  /-- IMM, R100: immediate word. -/
  | imm (imm : Word)
  /-- JMP, R120: target address. -/
  | jmp (imm : Word)
  /-- CALL, R123: target address. -/
  | call (imm : Word)
  /-- JZ, R121: target address. -/
  | jz (imm : Word)
  /-- JNZ, R122: target address. -/
  | jnz (imm : Word)
  /-- ENT, R124: local-slot count. -/
  | ent (imm : Word)
  /-- ADJ, R125: slot count. -/
  | adj (imm : Word)
  /-- LEV, R126. -/
  | lev
  /-- LI, R103. -/
  | li
  /-- LC, R102. -/
  | lc
  /-- SI, R105. -/
  | si
  /-- SC, R104. -/
  | sc
  /-- PUSH, R106. -/
  | push
  /-- OR, R141. -/
  | or
  /-- XOR, R142. -/
  | xor
  /-- AND, R143. -/
  | and
  /-- EQ, R144. -/
  | eq
  /-- NE, R145. -/
  | ne
  /-- LT, R146. -/
  | lt
  /-- GT, R147. -/
  | gt
  /-- LE, R148. -/
  | le
  /-- GE, R149. -/
  | ge
  /-- SHL, R150. -/
  | shl
  /-- SHR, R151. -/
  | shr
  /-- ADD, R152. -/
  | add
  /-- SUB, R153. -/
  | sub
  /-- MUL, R154. -/
  | mul
  /-- DIV, R155. -/
  | div
  /-- MOD, R156. -/
  | mod
  /-- OPEN, R174. -/
  | opn
  /-- READ, R176. -/
  | read
  /-- CLOS, R175. -/
  | clos
  /-- PRTF, R177: argument count N. -/
  | prtf (imm : Word)
  /-- MALC, R180. -/
  | malc
  /-- MSET, R181. -/
  | mset
  /-- MCMP, R182. -/
  | mcmp
  /-- EXIT, R170. -/
  | exit
  deriving DecidableEq, Repr, Inhabited

/-- The operand word of an F1 instruction; an F0 instruction has none (R81, R82). -/
def Instr.operand : Instr → Option Word
  | .lea v | .imm v | .jmp v | .call v | .jz v | .jnz v | .ent v | .adj v | .prtf v => some v
  | .lev | .li | .lc | .si | .sc | .push | .or | .xor | .and | .eq | .ne | .lt | .gt | .le | .ge | .shl | .shr
  | .add | .sub | .mul | .div | .mod | .opn | .read | .clos | .malc | .mset | .mcmp | .exit => none

end Sys2Proof
end

