-- ==== Sys2Proof/WellFormed.lean ====
section
/-! DEFINITION. Well-formed instructions: what an encoding can hold. No operand value is reserved (spec 30_encoding.md
R89), so the one check is that an operand is a word of XLEN bits (R80, R82). -/

namespace Sys2Proof

/-- The operand of an F1 instruction is one word of XLEN bits (R82). -/
def Instr.wf (x : Xlen) (i : Instr) : Bool :=
  match i.operand with
  | none => true
  | some v => decide (x.Fits v)

end Sys2Proof
end

