-- ==== Sys2Proof/Decode.lean ====
section
/-! DEFINITION. Byte order of words (spec 20_memory.md R56), the opcode table (spec 30_encoding.md R86), the decoder,
total on any bytes (R85, R87, R88), and the encoder (R81, R82). -/

namespace Sys2Proof

/-- The bytes of a word in memory, lowest address first: byte k is bits [8k+7:8k] (R56). -/
def wordBytes (x : Xlen) (w : Word) : List Byte :=
  (List.range x.bytes).map fun k => w.extractLsb' (8 * k) 8

/-- The number little-endian bytes stand for (R56). -/
def bytesNat : List Byte → Nat
  | [] => 0
  | b :: bs => b.toNat + 256 * bytesNat bs

/-- The word little-endian bytes hold, zero-extended (R56). -/
def bytesWord (bs : List Byte) : Word := BitVec.ofNat 64 (bytesNat bs)

/-- The two instruction formats (R81, R82): F0 is the opcode word alone, F1 takes the next word as its operand. -/
inductive Format where
  | f0 (i : Instr)
  | f1 (mk : Word → Instr)

/-- The opcode map, first half (R86). -/
def opcodeRowsLow : List (Nat × Format) :=
  [(0x00, .f1 .lea), (0x01, .f1 .imm), (0x02, .f1 .jmp), (0x03, .f1 .call), (0x04, .f1 .jz), (0x05, .f1 .jnz),
   (0x06, .f1 .ent), (0x07, .f1 .adj), (0x08, .f0 .lev), (0x09, .f0 .li), (0x0A, .f0 .lc), (0x0B, .f0 .si),
   (0x0C, .f0 .sc), (0x0D, .f0 .push)]

/-- The opcode map, the sixteen operators (R86). -/
def opcodeRowsAlu : List (Nat × Format) :=
  [(0x0E, .f0 .or), (0x0F, .f0 .xor), (0x10, .f0 .and), (0x11, .f0 .eq), (0x12, .f0 .ne), (0x13, .f0 .lt),
   (0x14, .f0 .gt), (0x15, .f0 .le), (0x16, .f0 .ge), (0x17, .f0 .shl), (0x18, .f0 .shr), (0x19, .f0 .add),
   (0x1A, .f0 .sub), (0x1B, .f0 .mul), (0x1C, .f0 .div), (0x1D, .f0 .mod)]

/-- The opcode map, the host bridge and EXIT (R86). -/
def opcodeRowsHost : List (Nat × Format) :=
  [(0x1E, .f0 .opn), (0x1F, .f0 .read), (0x20, .f0 .clos), (0x21, .f1 .prtf), (0x22, .f0 .malc), (0x23, .f0 .mset),
   (0x24, .f0 .mcmp), (0x25, .f0 .exit)]

/-- The opcode map: number and format of the 38 opcodes (R86). -/
def opcodeTable : List (Nat × Format) := opcodeRowsLow ++ opcodeRowsAlu ++ opcodeRowsHost

/-- The opcode an opcode word selects: the row whose number equals u(word), all XLEN bits (R87); none for an illegal
word (R88). -/
def formatOf (op : Word) : Option Format := opcodeTable.lookup op.toNat

/-- Why bytes are no instruction. -/
inductive DecodeError where
  /-- Fewer bytes than one word. -/
  | truncatedOpcode
  /-- An F1 opcode with fewer bytes than one word behind it. -/
  | truncatedOperand
  /-- The opcode word matches no opcode (R88). -/
  | illegalOpcode (op : Word)
  deriving DecidableEq, Repr

/-- The instruction at the start of some bytes and the bytes after it (R85). -/
def decode (x : Xlen) (bs : List Byte) : Except DecodeError (Instr × List Byte) :=
  if bs.length < x.bytes then .error .truncatedOpcode
  else match formatOf (bytesWord (bs.take x.bytes)) with
    | none => .error (.illegalOpcode (bytesWord (bs.take x.bytes)))
    | some (.f0 i) => .ok (i, bs.drop x.bytes)
    | some (.f1 mk) =>
      if bs.length < 2 * x.bytes then .error .truncatedOperand
      else .ok (mk (bytesWord ((bs.drop x.bytes).take x.bytes)), bs.drop (2 * x.bytes))

/-- The opcode number of an instruction (R86). -/
def Instr.number : Instr → Nat
  | .lea _ => 0
  | .imm _ => 1
  | .jmp _ => 2
  | .call _ => 3
  | .jz _ => 4
  | .jnz _ => 5
  | .ent _ => 6
  | .adj _ => 7
  | .lev => 8
  | .li => 9
  | .lc => 10
  | .si => 11
  | .sc => 12
  | .push => 13
  | .or => 14
  | .xor => 15
  | .and => 16
  | .eq => 17
  | .ne => 18
  | .lt => 19
  | .gt => 20
  | .le => 21
  | .ge => 22
  | .shl => 23
  | .shr => 24
  | .add => 25
  | .sub => 26
  | .mul => 27
  | .div => 28
  | .mod => 29
  | .opn => 30
  | .read => 31
  | .clos => 32
  | .prtf _ => 33
  | .malc => 34
  | .mset => 35
  | .mcmp => 36
  | .exit => 37

/-- The words of an instruction: the opcode number zero-extended, then the operand word of an F1 instruction
(R81, R82). -/
def Instr.words (i : Instr) : List Word := BitVec.ofNat 64 i.number :: i.operand.toList

/-- The bytes of an instruction in memory, lowest address first (R80, R56). -/
def encode (x : Xlen) (i : Instr) : List Byte := i.words.flatMap (wordBytes x)

/-- The first `n` bytes, lowest address first, of an instruction whose bits are `w`, bit 0 the least significant of
its first word; the bits from `nbits` up are zero (R56). -/
def tableBytes (n nbits w : Nat) : List Byte :=
  (List.range n).map fun k => BitVec.ofNat 8 (w % 2 ^ nbits / 256 ^ k)

/-- The instruction the decoder reads from a row of spec/opcode_table.json, whose words are those of XLEN = 64 (R87;
log 18: DESIGN CHOICE); an instruction is two words at most. -/
def decodeTableWord (nbits w : Nat) : Option Instr :=
  match decode .x64 (tableBytes (2 * Xlen.bytes .x64) nbits w) with
  | .ok (i, _) => some i
  | .error _ => none

end Sys2Proof
end

