-- ==== Sys2Proof/Machine/Arith.lean ====
section
/-! DEFINITION. Words as XLEN-bit vectors, their signed reading and arithmetic modulo 2^XLEN (spec 00_scope.md R12,
R13; 42_alu.md R160). -/

namespace Sys2Proof

/-- The XLEN bits of a word. -/
def Xlen.get (x : Xlen) (w : Word) : BitVec x.bits := w.setWidth x.bits

/-- A vector of XLEN bits as a word. -/
def Xlen.put (x : Xlen) (v : BitVec x.bits) : Word := v.setWidth 64

/-- The word n mod 2^XLEN. -/
def Xlen.word (x : Xlen) (n : Nat) : Word := x.put (BitVec.ofNat x.bits n)

/-- The word whose s-value is i modulo 2^XLEN. -/
def Xlen.wordInt (x : Xlen) (i : Int) : Word := x.put (BitVec.ofInt x.bits i)

/-- The low XLEN bits of a word: what the core keeps of a word the host answers. -/
def Xlen.narrow (x : Xlen) (w : Word) : Word := x.put (x.get w)

/-- s(v), the two's-complement value (R12). u(v) is `v.toNat`. -/
def Xlen.sval (x : Xlen) (w : Word) : Int := (x.get w).toInt

/-- MIN, the word with s(MIN) = -2^(XLEN-1) (R12). -/
def Xlen.minWord (x : Xlen) : Word := x.word (2 ^ (x.bits - 1))

/-- Addition modulo 2^XLEN (R13). -/
def Xlen.add (x : Xlen) (a b : Word) : Word := x.put (x.get a + x.get b)

/-- Subtraction modulo 2^XLEN (R13). -/
def Xlen.sub (x : Xlen) (a b : Word) : Word := x.put (x.get a - x.get b)

/-- Multiplication modulo 2^XLEN (R13). -/
def Xlen.mul (x : Xlen) (a b : Word) : Word := x.put (x.get a * x.get b)

/-- WB as a word. -/
def Xlen.wb (x : Xlen) : Word := x.word x.bytes

/-- sext_XLEN of a byte (R12). -/
def Xlen.sextByte (x : Xlen) (b : Byte) : Word := x.put (b.signExtend x.bits)

/-- zext_XLEN of a byte (R12). -/
def Xlen.zextByte (x : Xlen) (b : Byte) : Word := x.put (b.setWidth x.bits)

end Sys2Proof
end

