-- ==== Sys2Proof/Machine/State.lean ====
section
/-! DEFINITION. The state of the core (spec 10_state.md), why a step stops, and the state at the start of a launch
(spec 10_state.md R39, 70_reset_and_hazards.md R230 to R235). -/

namespace Sys2Proof.Machine

/-- A live host block: the bytes [base, base + size) a MALC was answered with (R36, R180). -/
structure HostBlock where
  base : Nat
  size : Nat
  deriving DecidableEq, Repr, Inhabited

/-- Everything the spec gives the machine, and the two fields of the model's own that INVENTORY.md names (`cfg`,
`answers`). -/
structure State where
  /-- The launch's parameters; no step writes them (R38; log 2). -/
  cfg : Config
  /-- x[0], R21. -/
  pc : Word
  /-- x[1], R22. -/
  sp : Word
  /-- x[2], R23. -/
  bp : Word
  /-- x[3], R24. -/
  ax : Word
  /-- R27: 0 Running, 1 Exited, 2 Faulted. -/
  runstate : BitVec 2
  /-- R28: the fault's code, 0 for none. -/
  cause : BitVec 3
  /-- R29: the exit status or the fault's information word. -/
  xval : Word
  /-- The bytes of the three arenas and of the live host blocks (R32 to R36). -/
  mem : Memory
  /-- The live host blocks, newest first (R36). -/
  blocks : List HostBlock
  /-- The host-bridge calls made so far, newest first (R37). -/
  events : List HostEvent
  /-- The host's next answers as far as they are known, the next one first (log 4). -/
  answers : List HostAnswer
  deriving DecidableEq, Repr, Inhabited

/-- Why the machine stops. A fault of the spec is no such stop: it is a next state (R206; log 8). -/
inductive Fault where
  /-- Raised by `step` alone, for a core whose RUNSTATE is not Running: "A halted core (RUNSTATE = 1 or 2) takes no
  step" (R208). Safe: nothing runs. -/
  | halted
  deriving DecidableEq, Repr

/-- Why there is no meaning. -/
inductive Refusal where
  /-- Raised by an arm of `exec` whose instruction has no meaning yet. Safe: nothing runs. -/
  | notModelled (mnemonic : String)
  deriving DecidableEq, Repr

/-- The state at the start of a launch, which is what reset leaves (R39, R230, R235). -/
def State.launch (l : Launch) : State :=
  { cfg := l.cfg
    pc := l.cfg.xlen.word l.entryPc
    sp := l.cfg.xlen.word l.cfg.stackTop
    bp := l.cfg.xlen.word l.cfg.stackTop
    ax := 0
    runstate := 0
    cause := 0
    xval := 0
    mem := Memory.writeBytes (Memory.writeBytes [] l.cfg.textBase (l.textInit.flatMap (wordBytes l.cfg.xlen)))
      l.cfg.dataBase l.dataInit
    blocks := []
    events := []
    answers := [] }

/-- The machine right after reset: the launch of REF with nothing loaded (R10, R39; log 3). -/
def State.reset : State := State.launch Launch.ref

end Sys2Proof.Machine
end

