-- ==== Sys2Proof/Machine/Ops.lean ====
section
/-! DEFINITION. The operations every instruction is built from: register access, taking a fault, regions and range
checks, the access primitives of spec 20_memory.md R58 to R61, fetching an instruction (spec 30_encoding.md R83), and the
host (spec 43_exit_and_host_bridge.md R172, 10_state.md R37). -/

namespace Sys2Proof.Machine

/-! ## Registers -/

def State.setPc (s : State) (v : Word) : State := { s with pc := v }

def State.setSp (s : State) (v : Word) : State := { s with sp := v }

def State.setBp (s : State) (v : Word) : State := { s with bp := v }

def State.setAx (s : State) (v : Word) : State := { s with ax := v }

def State.setMem (s : State) (m : Memory) : State := { s with mem := m }

def State.setBlocks (s : State) (bs : List HostBlock) : State := { s with blocks := bs }

/-- The run-status registers, written together (R27, R28, R29). -/
def State.setStatus (s : State) (r : BitVec 2) (c : BitVec 3) (v : Word) : State :=
  { s with runstate := r, cause := c, xval := v }

/-- The record of host calls and the answers to come, written together. -/
def State.setHost (s : State) (es : List HostEvent) (as : List HostAnswer) : State :=
  { s with events := es, answers := as }

/-- x[i] (R14): x[0] = pc, x[1] = sp, x[2] = bp, x[3] = ax. -/
def State.x (s : State) : Fin 4 → Word
  | 0 => s.pc
  | 1 => s.sp
  | 2 => s.bp
  | 3 => s.ax

/-- x[i] <- v (R14). -/
def State.setX (s : State) (i : Fin 4) (v : Word) : State :=
  match i with
  | 0 => s.setPc v
  | 1 => s.setSp v
  | 2 => s.setBp v
  | 3 => s.setAx v

/-- The launch's XLEN. -/
def State.xlen (s : State) : Xlen := s.cfg.xlen

/-- a + k * WB modulo 2^XLEN (R13). -/
def State.slot (s : State) (a : Word) (k : Nat) : Word := s.xlen.add a (s.xlen.word (k * s.xlen.bytes))

/-- `next` of a one-word instruction, P + WB (R18). -/
def State.next1 (s : State) : Word := s.slot s.pc 1

/-- `next` of a two-word instruction, P + 2 * WB (R18). -/
def State.next2 (s : State) : Word := s.slot s.pc 2

/-! ## Faults -/

/-- RUNSTATE = Running (R27). -/
def running : BitVec 2 := 0

/-- RUNSTATE = Exited (R27). -/
def exited : BitVec 2 := 1

/-- RUNSTATE = Faulted (R27). -/
def faulted : BitVec 2 := 2

/-- The four faults with their information words (R200, R201). -/
inductive Trap where
  | illegalOpcode (op : Word)
  | arithmetic
  | outOfBounds (a : Word)
  | misaligned (a : Word)
  deriving DecidableEq, Repr

/-- The CAUSE code (R201). -/
def Trap.code : Trap → BitVec 3
  | .illegalOpcode _ => 1
  | .arithmetic => 2
  | .outOfBounds _ => 3
  | .misaligned _ => 4

/-- What XVAL records (R201). -/
def Trap.info : Trap → Word
  | .illegalOpcode op => op
  | .arithmetic => 0
  | .outOfBounds a => a
  | .misaligned a => a

/-- Taking a fault (R206): RUNSTATE, CAUSE and XVAL are written, and nothing else. There is no return from a fault
(R208). -/
def takeTrap (s : State) (t : Trap) : State := s.setStatus faulted t.code t.info

/-- The end of an instruction that began in `s`: the state its rule computed, or the fault it raised, which undoes
everything else (R17, R206). -/
def finish (s : State) : Except Trap State → Host.Outcome State Fault Refusal
  | .ok t => .next t
  | .error e => .next (takeTrap s e)

/-! ## Regions and range checks -/

/-- What an access wants to do (R52). -/
inductive Access where
  | read | write | fetch
  deriving DecidableEq, Repr

/-- A byte range with rights (R52). -/
structure Region where
  base : Nat
  size : Nat
  readable : Bool
  writable : Bool
  fetchable : Bool
  deriving DecidableEq, Repr

/-- The region has the right. -/
def Region.allows (r : Region) : Access → Bool
  | .read => r.readable
  | .write => r.writable
  | .fetch => r.fetchable

/-- [a, a + n) lies inside the region, over unbounded integers (R54). -/
def Region.contains (r : Region) (a n : Nat) : Bool := decide (r.base ≤ a ∧ a + n ≤ r.base + r.size)

/-- TEXT: read and fetch (R52, R53). -/
def State.textRegion (s : State) : Region :=
  { base := s.cfg.textBase, size := s.cfg.poolBytes, readable := true, writable := false, fetchable := true }

/-- DATA: read and write (R52). -/
def State.dataRegion (s : State) : Region :=
  { base := s.cfg.dataBase, size := s.cfg.poolBytes, readable := true, writable := true, fetchable := false }

/-- STACK: read and write (R52). -/
def State.stackRegion (s : State) : Region :=
  { base := s.cfg.stackBase, size := s.cfg.poolBytes, readable := true, writable := true, fetchable := false }

/-- HOSTBLK: read and write (R52). -/
def HostBlock.region (b : HostBlock) : Region :=
  { base := b.base, size := b.size, readable := true, writable := true, fetchable := false }

/-- The regions (R52). -/
def State.regions (s : State) : List Region :=
  s.textRegion :: s.dataRegion :: s.stackRegion :: s.blocks.map HostBlock.region

/-- RangeOk(a, len, kind) (R55). -/
def rangeOk (s : State) (a : Word) (len : Nat) (kind : Access) : Bool :=
  len == 0 || s.regions.any fun r => r.allows kind && r.contains a.toNat len

/-! ## Access primitives -/

/-- The two access widths (R62). -/
inductive Width where
  | byte | word
  deriving DecidableEq, Repr

/-- The number of bytes of an access, 1 or WB. -/
def Width.bytes (x : Xlen) : Width → Nat
  | .byte => 1
  | .word => x.bytes

/-- u(a) mod WB = 0 (R57). -/
def aligned (x : Xlen) (a : Word) : Bool := a.toNat % x.bytes == 0

/-- The checks of R58 and R59 on an access, alignment first (R57). -/
def accessCheck (s : State) (a : Word) (n : Width) (kind : Access) : Except Trap Unit :=
  if n = .word ∧ aligned s.xlen a = false then .error (.misaligned a)
  else if rangeOk s a (n.bytes s.xlen) kind = false then .error (.outOfBounds a)
  else .ok ()

/-- The bytes from u(a) upward as one little-endian value (R58). -/
def loadAt (s : State) (a : Word) (n : Width) : Word := bytesWord (s.mem.readBytes a.toNat (n.bytes s.xlen))

/-- The state with the low bytes of `v` at u(a) and nothing else changed (R59). -/
def storeAt (s : State) (a : Word) (n : Width) (v : Word) : State :=
  s.setMem (s.mem.writeBytes a.toNat ((wordBytes s.xlen v).take (n.bytes s.xlen)))

/-- MemRead(a, n) (R58). -/
def memRead (s : State) (a : Word) (n : Width) : Except Trap Word := do
  accessCheck s a n .read
  .ok (loadAt s a n)

/-- MemWrite(a, n, v) (R59). -/
def memWrite (s : State) (a : Word) (n : Width) (v : Word) : Except Trap State := do
  accessCheck s a n .write
  .ok (storeAt s a n v)

/-- The checks of R60 and R61: a whole aligned word inside one given arena. -/
def arenaCheck (s : State) (r : Region) (a : Word) : Except Trap Unit :=
  if aligned s.xlen a = false then .error (.misaligned a)
  else if r.contains a.toNat s.xlen.bytes = false then .error (.outOfBounds a)
  else .ok ()

/-- Fetch(a) (R60). -/
def fetch (s : State) (a : Word) : Except Trap Word := do
  arenaCheck s s.textRegion a
  .ok (loadAt s a .word)

/-- StackRead(a) (R61). -/
def stackRead (s : State) (a : Word) : Except Trap Word := do
  arenaCheck s s.stackRegion a
  .ok (loadAt s a .word)

/-- StackWrite(a, v) (R61). -/
def stackWrite (s : State) (a : Word) (v : Word) : Except Trap State := do
  arenaCheck s s.stackRegion a
  .ok (storeAt s a .word v)

/-! ## Fetching an instruction -/

/-- Fetch and decode of the instruction at pc, in the order of R83 and R207. Where zero-filled text runs off the arena's
end, it is this order with R60 that says which of the two fetches fails; R90's sentence on even and odd word indexes is its
consequence where the arena holds an even number of words (DEDUCED, log 21). -/
def fetchInstr (s : State) : Except Trap Instr := do
  let op ← fetch s s.pc
  match formatOf op with
  | none => .error (.illegalOpcode op)
  | some (.f0 i) => .ok i
  | some (.f1 mk) => do
    let imm ← fetch s s.next1
    .ok (mk imm)

/-! ## The host -/

/-- The host's answer to a request: the next known one, else the oracle's (R172; log 4). -/
def hostAsk (s : State) (q : HostRequest) : HostAnswer :=
  match s.answers with
  | a :: _ => a
  | [] => Config.hostAnswer s.events q

/-- A request with what came of it, as R37 asks for it to be recorded. -/
def hostEvent (q : HostRequest) (hostRead : List Host.Cell) (result : Option Word) (written : List Byte) : HostEvent :=
  { op := q.op, args := q.args, sent := q.sent, hostRead := hostRead, result := result, written := written }

/-- The call recorded (R37) and the answer used up. -/
def hostDone (s : State) (q : HostRequest) (hostRead : List Host.Cell) (result : Option Word) (written : List Byte) :
    State :=
  s.setHost (hostEvent q hostRead result written :: s.events) s.answers.tail

/-- A host-bridge opcode that asked the host nothing, recorded (R37, R173). -/
def hostNote (s : State) (q : HostRequest) (result : Word) : State :=
  s.setHost (hostEvent q [] (some result) [] :: s.events) s.answers

/-- The bytes the host reads at the given addresses: a host reads readable bytes only (R173). -/
def hostReads (s : State) (addresses : List Word) : List Host.Cell :=
  (addresses.filter fun a => rangeOk s a 1 .read).map fun a => (a.toNat, s.mem.read a.toNat)

end Sys2Proof.Machine
end

