-- ==== Sys2Proof/Machine/Operands.lean ====
section
/-! DEFINITION. Where instructions take operands from and put results: stack operands (spec 00_scope.md R16), scaled
operand words (spec 30_encoding.md R84), strings (spec 43_exit_and_host_bridge.md R178). -/

namespace Sys2Proof.Machine

/-- imm * WB modulo 2^XLEN (R84, R13). -/
def State.scaled (s : State) (imm : Word) : Word := s.xlen.mul imm s.xlen.wb

/-- The slot a push writes, sp - WB (R16). -/
def State.pushSlot (s : State) : Word := s.xlen.sub s.sp s.xlen.wb

/-- push(v) (R16). -/
def push (s : State) (v : Word) : Except Trap State := do
  let t ← stackWrite s s.pushSlot v
  .ok (t.setSp s.pushSlot)

/-- pop() (R16): the word and the state with sp advanced. -/
def pop (s : State) : Except Trap (Word × State) := do
  let v ← stackRead s s.sp
  .ok (v, s.setSp (s.slot s.sp 1))

/-- arg(i) (R16). -/
def arg (s : State) (i : Nat) : Except Trap Word := stackRead s (s.slot s.sp i)

/-- The bytes of CStr(a), at most `n` of them looked at (R178). -/
def cStrFrom (s : State) : Word → Nat → Except Trap (List Byte)
  | a, 0 => .error (.outOfBounds a)
  | a, n + 1 => do
    let w ← memRead s a .byte
    if w = 0 then .ok []
    else do
      let rest ← cStrFrom s (s.xlen.add a 1) n
      .ok (w.setWidth 8 :: rest)

/-- CStr(a) (R178). A byte that is not zero is listed in memory, so a string is no longer than the list of cells and
the bound is never met (log 13). -/
def cStr (s : State) (a : Word) : Except Trap (List Byte) := cStrFrom s a (s.mem.length + 1)

/-- The first place where two byte strings of one length differ, the two bytes there (R182). -/
def firstDiff : List Byte → List Byte → Option (Byte × Byte)
  | p :: ps, q :: qs => if p = q then firstDiff ps qs else some (p, q)
  | _, _ => none

end Sys2Proof.Machine
end

