-- ==== Sys2Proof/Machine/Flags.lean ====
section
/-! DEFINITION. The core has no flags (spec 10_state.md R30). What stands in their place: the truth value a comparison
writes to ax (spec 42_alu.md R163) and the tests the conditional jumps make of ax (spec 41_control_flow.md R121, R122). -/

namespace Sys2Proof.Machine

/-- The word 1 for true, the word 0 for false (R163). -/
def truthWord (b : Bool) : Word := if b then 1 else 0

/-- The test of JZ: all bits of ax are zero (R121). -/
def axIsZero (s : State) : Bool := s.ax == 0

end Sys2Proof.Machine
end

