-- ==== Sys2Proof/Machine/Alu.lean ====
section
/-! DEFINITION. The sixteen operators (spec 42_alu.md R140 to R164): one shape, one result function each. -/

namespace Sys2Proof.Machine

/-- The common shape (R140): the left operand is popped, the right one is ax, the result goes to ax. -/
def binary (s : State) (f : Xlen → Word → Word → Except Trap Word) : Except Trap State := do
  let (l, t) ← pop s
  let v ← f s.xlen l s.ax
  .ok ((t.setAx v).setPc s.next1)

/-! ## Result functions -/

/-- R141. -/
def aluOr (x : Xlen) (l r : Word) : Except Trap Word := .ok (x.put (x.get l ||| x.get r))

/-- R142. -/
def aluXor (x : Xlen) (l r : Word) : Except Trap Word := .ok (x.put (x.get l ^^^ x.get r))

/-- R143. -/
def aluAnd (x : Xlen) (l r : Word) : Except Trap Word := .ok (x.put (x.get l &&& x.get r))

/-- R144. -/
def aluEq (x : Xlen) (l r : Word) : Except Trap Word := .ok (truthWord (x.get l == x.get r))

/-- R145. -/
def aluNe (x : Xlen) (l r : Word) : Except Trap Word := .ok (truthWord (x.get l != x.get r))

/-- R146, signed. -/
def aluLt (x : Xlen) (l r : Word) : Except Trap Word := .ok (truthWord (decide (x.sval l < x.sval r)))

/-- R147, signed. -/
def aluGt (x : Xlen) (l r : Word) : Except Trap Word := .ok (truthWord (decide (x.sval l > x.sval r)))

/-- R148, signed. -/
def aluLe (x : Xlen) (l r : Word) : Except Trap Word := .ok (truthWord (decide (x.sval l ≤ x.sval r)))

/-- R149, signed. -/
def aluGe (x : Xlen) (l r : Word) : Except Trap Word := .ok (truthWord (decide (x.sval l ≥ x.sval r)))

/-- A legal shift count: 0 <= s(r) < XLEN (R150, R151). -/
def countOk (x : Xlen) (r : Word) : Bool := decide (0 ≤ x.sval r ∧ x.sval r < x.bits)

/-- R150. -/
def aluShl (x : Xlen) (l r : Word) : Except Trap Word :=
  if countOk x r then .ok (x.put (x.get l <<< (x.sval r).toNat)) else .error .arithmetic

/-- R151, arithmetic: the word whose s-value is floor(s(l) / 2^s(r)). -/
def aluShr (x : Xlen) (l r : Word) : Except Trap Word :=
  if countOk x r then .ok (x.wordInt (x.sval l / 2 ^ (x.sval r).toNat)) else .error .arithmetic

/-- R152. -/
def aluAdd (x : Xlen) (l r : Word) : Except Trap Word := .ok (x.add l r)

/-- R153. -/
def aluSub (x : Xlen) (l r : Word) : Except Trap Word := .ok (x.sub l r)

/-- R154. -/
def aluMul (x : Xlen) (l r : Word) : Except Trap Word := .ok (x.mul l r)

/-- The operand pairs DIV and MOD fault on: a zero divisor, and MIN with divisor -1 (R155, R156). -/
def divFaults (x : Xlen) (l r : Word) : Bool :=
  x.get r == 0 || (x.get l == x.get x.minWord && x.sval r == -1)

/-- R155: the exact quotient rounded toward zero. -/
def aluDiv (x : Xlen) (l r : Word) : Except Trap Word :=
  if divFaults x l r then .error .arithmetic else .ok (x.wordInt ((x.sval l).tdiv (x.sval r)))

/-- R156: the remainder that goes with that quotient. -/
def aluMod (x : Xlen) (l r : Word) : Except Trap Word :=
  if divFaults x l r then .error .arithmetic
  else .ok (x.wordInt (x.sval l - (x.sval l).tdiv (x.sval r) * x.sval r))

/-! ## Meanings -/

/-- OR (R141). -/
def execOr (s : State) : Host.Outcome State Fault Refusal := finish s (binary s aluOr)

/-- XOR (R142). -/
def execXor (s : State) : Host.Outcome State Fault Refusal := finish s (binary s aluXor)

/-- AND (R143). -/
def execAnd (s : State) : Host.Outcome State Fault Refusal := finish s (binary s aluAnd)

/-- EQ (R144). -/
def execEq (s : State) : Host.Outcome State Fault Refusal := finish s (binary s aluEq)

/-- NE (R145). -/
def execNe (s : State) : Host.Outcome State Fault Refusal := finish s (binary s aluNe)

/-- LT (R146). -/
def execLt (s : State) : Host.Outcome State Fault Refusal := finish s (binary s aluLt)

/-- GT (R147). -/
def execGt (s : State) : Host.Outcome State Fault Refusal := finish s (binary s aluGt)

/-- LE (R148). -/
def execLe (s : State) : Host.Outcome State Fault Refusal := finish s (binary s aluLe)

/-- GE (R149). -/
def execGe (s : State) : Host.Outcome State Fault Refusal := finish s (binary s aluGe)

/-- SHL (R150). -/
def execShl (s : State) : Host.Outcome State Fault Refusal := finish s (binary s aluShl)

/-- SHR (R151). -/
def execShr (s : State) : Host.Outcome State Fault Refusal := finish s (binary s aluShr)

/-- ADD (R152). -/
def execAdd (s : State) : Host.Outcome State Fault Refusal := finish s (binary s aluAdd)

/-- SUB (R153). -/
def execSub (s : State) : Host.Outcome State Fault Refusal := finish s (binary s aluSub)

/-- MUL (R154). -/
def execMul (s : State) : Host.Outcome State Fault Refusal := finish s (binary s aluMul)

/-- DIV (R155). -/
def execDiv (s : State) : Host.Outcome State Fault Refusal := finish s (binary s aluDiv)

/-- MOD (R156). -/
def execMod (s : State) : Host.Outcome State Fault Refusal := finish s (binary s aluMod)

end Sys2Proof.Machine
end

