-- ==== Sys2Proof/Machine/ControlFlow.lean ====
section
/-! DEFINITION. JMP, JZ, JNZ, CALL, ENT, ADJ, LEV (spec 41_control_flow.md R120 to R126). A target is written to pc
unchecked; the next fetch checks it (R133). -/

namespace Sys2Proof.Machine

/-- JMP (R120). -/
def execJmp (imm : Word) (s : State) : Host.Outcome State Fault Refusal :=
  finish s (.ok (s.setPc imm))

/-- JZ (R121). -/
def execJz (imm : Word) (s : State) : Host.Outcome State Fault Refusal :=
  finish s (.ok (s.setPc (if axIsZero s then imm else s.next2)))

/-- JNZ (R122). -/
def execJnz (imm : Word) (s : State) : Host.Outcome State Fault Refusal :=
  finish s (.ok (s.setPc (if axIsZero s then s.next2 else imm)))

/-- CALL (R123): the return address pushed is `next`. -/
def execCall (imm : Word) (s : State) : Host.Outcome State Fault Refusal :=
  finish s do
    let t ← push s s.next2
    .ok (t.setPc imm)

/-- ENT (R124). -/
def execEnt (imm : Word) (s : State) : Host.Outcome State Fault Refusal :=
  finish s do
    let t ← push s s.bp
    .ok (((t.setBp t.sp).setSp (t.xlen.sub t.sp (t.scaled imm))).setPc s.next2)

/-- ADJ (R125). -/
def execAdj (imm : Word) (s : State) : Host.Outcome State Fault Refusal :=
  finish s (.ok ((s.setSp (s.xlen.add s.sp (s.scaled imm))).setPc s.next2))

/-- LEV (R126). -/
def execLev (s : State) : Host.Outcome State Fault Refusal :=
  finish s do
    let newbp ← stackRead s s.bp
    let ret ← stackRead s (s.slot s.bp 1)
    .ok (((s.setSp (s.slot s.bp 2)).setBp newbp).setPc ret)

end Sys2Proof.Machine
end

