-- ==== Sys2Proof/Machine/DataMovement.lean ====
section
/-! DEFINITION. IMM, LEA, LC, LI, SC, SI, PUSH (spec 40_data_movement.md R100 to R107). -/

namespace Sys2Proof.Machine

/-- IMM (R100). -/
def execImm (imm : Word) (s : State) : Host.Outcome State Fault Refusal :=
  finish s (.ok ((s.setAx imm).setPc s.next2))

/-- LEA (R101). -/
def execLea (imm : Word) (s : State) : Host.Outcome State Fault Refusal :=
  finish s (.ok ((s.setAx (s.xlen.add s.bp (s.scaled imm))).setPc s.next2))

/-- The byte LC loaded, extended to a word (R102, U1). -/
def extendByte (s : State) (b : Byte) : Word :=
  match s.cfg.lcExt with
  | .sign => s.xlen.sextByte b
  | .zero => s.xlen.zextByte b

/-- LC (R102). -/
def execLc (s : State) : Host.Outcome State Fault Refusal :=
  finish s do
    let b ← memRead s s.ax .byte
    .ok ((s.setAx (extendByte s (b.setWidth 8))).setPc s.next1)

/-- LI (R103). -/
def execLi (s : State) : Host.Outcome State Fault Refusal :=
  finish s do
    let w ← memRead s s.ax .word
    .ok ((s.setAx w).setPc s.next1)

/-- The common shape of SC and SI: pop the address, store ax there (R104, R105). -/
def popStore (s : State) (n : Width) : Except Trap State := do
  let (a, t) ← pop s
  let u ← memWrite t a n t.ax
  .ok (u.setPc s.next1)

/-- SC (R104). -/
def execSc (s : State) : Host.Outcome State Fault Refusal := finish s (popStore s .byte)

/-- SI (R105). -/
def execSi (s : State) : Host.Outcome State Fault Refusal := finish s (popStore s .word)

/-- PUSH (R106). -/
def execPush (s : State) : Host.Outcome State Fault Refusal :=
  finish s do
    let t ← push s s.ax
    .ok (t.setPc s.next1)

end Sys2Proof.Machine
end

