-- ==== Sys2Proof/Machine/HostBridge.lean ====
section
/-! DEFINITION. EXIT and the host bridge (spec 43_exit_and_host_bridge.md R170 to R182). -/

namespace Sys2Proof.Machine

/-- EXIT (R170): the status is read, not popped; pc stays at P. -/
def execExit (s : State) : Host.Outcome State Fault Refusal :=
  finish s do
    let v ← stackRead s s.sp
    .ok (s.setStatus exited s.cause v)

/-- The end of a host-bridge instruction: the result in ax and pc past the instruction (R171). -/
def bridgeEnd (t : State) (result next : Word) : State := (t.setAx result).setPc next

/-- OPEN (R174): arg(0) flags, arg(1) path. -/
def execOpn (s : State) : Host.Outcome State Fault Refusal :=
  finish s do
    let flags ← arg s 0
    let path ← arg s 1
    let str ← cStr s path
    let q : HostRequest := { op := .opn, args := [flags, path], sent := str, readable := [] }
    let r := s.xlen.narrow (hostAsk s q).result
    .ok (bridgeEnd (hostDone s q [] (some r) []) r s.next1)

/-- CLOS (R175): arg(0) descriptor. -/
def execClos (s : State) : Host.Outcome State Fault Refusal :=
  finish s do
    let fd ← arg s 0
    let q : HostRequest := { op := .clos, args := [fd], sent := [], readable := [] }
    let r := s.xlen.narrow (hostAsk s q).result
    .ok (bridgeEnd (hostDone s q [] (some r) []) r s.next1)

/-- READ's answer under its constraints (R176, R173): a negative word and no bytes, or bytes, at most `len` of them,
and their number (log 5). -/
def readAnswer (x : Xlen) (len : Nat) (a : HostAnswer) : Word × List Byte :=
  if x.sval a.result < 0 then (x.narrow a.result, [])
  else (x.word (a.bytes.take len).length, a.bytes.take len)

/-- READ (R176): arg(0) length, arg(1) buffer, arg(2) descriptor. -/
def execRead (s : State) : Host.Outcome State Fault Refusal :=
  finish s do
    let len ← arg s 0
    let buf ← arg s 1
    let fd ← arg s 2
    if rangeOk s buf len.toNat .write = false then .error (.outOfBounds buf)
    else do
      let q : HostRequest := { op := .read, args := [len, buf, fd], sent := [], readable := [] }
      let rb := readAnswer s.xlen len.toNat (hostAsk s q)
      let t := (hostDone s q [] (some rb.1) rb.2).setMem (s.mem.writeBytes buf.toNat rb.2)
      .ok (bridgeEnd t rb.1 s.next1)

/-- The argument slots PRTF forwards: k = k0, k0 + 1, ... 5 while s(imm) - 1 - k >= 0, read at t - (k+1) * WB (R177).
The first argument counts the slots still looked at. -/
def prtfArgs (s : State) (t imm : Word) : Nat → Nat → Except Trap (List Word)
  | 0, _ => .ok []
  | n + 1, k =>
    if s.xlen.sval imm - 1 - (k : Int) ≥ 0 then do
      let w ← stackRead s (s.xlen.sub t (s.xlen.word ((k + 1) * s.xlen.bytes)))
      let rest ← prtfArgs s t imm n (k + 1)
      .ok (w :: rest)
    else .ok []

/-- The format holds a `%` byte (R177). -/
def hasPercent (fmt : List Byte) : Bool := fmt.contains 0x25

/-- PRTF's result under its constraints: with no `%` byte the number of format bytes, or an output error, a negative
word (R177, C10; log 6); with one, any word (U8; log 7). -/
def prtfResult (x : Xlen) (fmt : List Byte) (a : HostAnswer) : Word :=
  if hasPercent fmt = false ∧ 0 ≤ x.sval a.result then x.word fmt.length else x.narrow a.result

/-- The string argument the host could not read, with the fault of CStr there, which names the first unreadable byte
(R177, U8, R178): only with a `%` format, only at a forwarded argument word that is no readable
zero-terminated string. -/
def prtfStringFault (s : State) (fmt : List Byte) (args : List Word) (a : HostAnswer) : Option (Word × Trap) :=
  match a.stringFault with
  | none => none
  | some k =>
    match hasPercent fmt, args[k]? with
    | true, some w =>
      match cStr s w with
      | .ok _ => none
      | .error e => some (w, e)
    | _, _ => none

/-- The fault PRTF raises for the string argument `w` that fails CStr with `e`: which of the two addresses XVAL records is
the launch's (R177, R201; log 7). -/
def stringArgumentTrap (s : State) (w : Word) (e : Trap) : Trap :=
  match s.cfg.stringFaultXval with
  | .firstUnreadable => e
  | .argument => .outOfBounds w

/-- The addresses the host reads as the format directs: none where the format holds no `%`, its bytes being the whole
text then (R177). -/
def prtfReads (fmt : List Byte) (a : HostAnswer) : List Word := if hasPercent fmt then a.reads else []

/-- The addresses `a`, a + 1, ... before `b`, modulo 2^XLEN. -/
def addressesTo (s : State) (a b : Word) : List Word :=
  (List.range (s.xlen.sub b a).toNat).map fun k => s.xlen.add a (s.xlen.word k)

/-- PRTF (R177): the format address lies at sp + (N - 1) * WB, up to five arguments below it. Where the host's read of
a string argument faults, the call has been made (R206) and is recorded without a result, the bytes of that string
before the unreadable one among those the host read. -/
def execPrtf (imm : Word) (s : State) : Host.Outcome State Fault Refusal :=
  finish s do
    let t := s.xlen.add s.sp (s.scaled imm)
    let fmtaddr ← stackRead s (s.xlen.sub t s.xlen.wb)
    let args ← prtfArgs s t imm 5 1
    let fmt ← cStr s fmtaddr
    let q : HostRequest := { op := .prtf, args := fmtaddr :: args, sent := fmt, readable := s.mem }
    let a := hostAsk s q
    match prtfStringFault s fmt args a with
    | some (w, e) =>
      let read := hostReads s (prtfReads fmt a ++ addressesTo s w e.info)
      .ok (takeTrap (hostDone s q read none []) (stringArgumentTrap s w e))
    | none =>
      let r := prtfResult s.xlen fmt a
      .ok (bridgeEnd (hostDone s q (hostReads s (prtfReads fmt a)) (some r) []) r s.next2)

/-- The ranges [a, a + n) and the region share no byte. -/
def Region.disjoint (r : Region) (a n : Nat) : Bool :=
  r.size == 0 || decide (a + n ≤ r.base ∨ r.base + r.size ≤ a)

/-- The constraints on a non-zero answer of MALC (R180). -/
def blockOk (s : State) (a : Word) (size : Nat) : Bool :=
  decide (a.toNat % s.xlen.bytes = 0 ∧ s.xlen.bytes ≤ a.toNat ∧ a.toNat + size ≤ 2 ^ s.xlen.bits ∧
    size < 2 ^ (s.xlen.bits - 1)) &&
  s.regions.all fun r => r.disjoint a.toNat (max size 1)

/-- MALC's answer under its constraints: an address R180 allows, or 0 (log 5). -/
def malcAnswer (s : State) (size : Nat) (a : HostAnswer) : Word :=
  if blockOk s (s.xlen.narrow a.result) size then s.xlen.narrow a.result else 0

/-- The new host block with its first contents, which are the host's draw (R36, U6; log 9). -/
def addBlock (s : State) (a : Word) (size : Nat) (bytes : List Byte) : State :=
  (s.setBlocks ({ base := a.toNat, size := size } :: s.blocks)).setMem (s.mem.writeBytes a.toNat (bytes.take size))

/-- MALC (R180): arg(0) size. -/
def execMalc (s : State) : Host.Outcome State Fault Refusal :=
  finish s do
    let size ← arg s 0
    let q : HostRequest := { op := .malc, args := [size], sent := [], readable := [] }
    let a := malcAnswer s size.toNat (hostAsk s q)
    let t := hostDone s q [] (some a) []
    .ok (bridgeEnd (if a = 0 then t else addBlock t a size.toNat (hostAsk s q).bytes) a s.next1)

/-- MSET (R181): arg(0) length, arg(1) fill word, arg(2) address. -/
def execMset (s : State) : Host.Outcome State Fault Refusal :=
  finish s do
    let len ← arg s 0
    let fill ← arg s 1
    let a ← arg s 2
    if rangeOk s a len.toNat .write = false then .error (.outOfBounds a)
    else do
      let q : HostRequest := { op := .mset, args := [len, fill, a], sent := [], readable := [] }
      let t := (hostNote s q a).setMem (s.mem.writeBytes a.toNat (List.replicate len.toNat (fill.setWidth 8)))
      .ok (bridgeEnd t a s.next1)

/-- A word of negative s-value: the drawn one where it is one, else -1 (log 5). -/
def negativeWord (x : Xlen) (raw : Word) : Word := if x.sval raw < 0 then x.narrow raw else x.wordInt (-1)

/-- A word of positive s-value: the drawn one where it is one, else 1 (log 5). -/
def positiveWord (x : Xlen) (raw : Word) : Word := if 0 < x.sval raw then x.narrow raw else x.word 1

/-- MCMP's result where the ranges differ: its sign is that of the first differing pair, compared as unsigned bytes,
its magnitude a draw (R182, U7). -/
def mcmpResult (x : Xlen) (p q : Byte) (a : HostAnswer) : Word :=
  if p.toNat < q.toNat then negativeWord x a.result else positiveWord x a.result

/-- MCMP (R182): arg(0) length, arg(1) address B, arg(2) address A. -/
def execMcmp (s : State) : Host.Outcome State Fault Refusal :=
  finish s do
    let len ← arg s 0
    let b ← arg s 1
    let a ← arg s 2
    if rangeOk s a len.toNat .read = false then .error (.outOfBounds a)
    else if rangeOk s b len.toNat .read = false then .error (.outOfBounds b)
    else do
      let q : HostRequest := { op := .mcmp, args := [len, b, a], sent := [], readable := s.mem }
      match firstDiff (s.mem.readBytes a.toNat len.toNat) (s.mem.readBytes b.toNat len.toNat) with
      | none => .ok (bridgeEnd (hostNote s q 0) 0 s.next1)
      | some (p, p') =>
        let r := mcmpResult s.xlen p p' (hostAsk s q)
        .ok (bridgeEnd (hostDone s q [] (some r) []) r s.next1)

end Sys2Proof.Machine
end

