-- ==== Sys2Proof/Machine/Dispatch.lean ====
section
/-! DEFINITION. One arm per constructor of Instr: the meaning of each instruction. -/

namespace Sys2Proof.Machine

def exec (i : Instr) (s : State) : Host.Outcome State Fault Refusal :=
  match i with
  | .lea imm => Sys2Proof.Machine.execLea imm s
  | .imm imm => Sys2Proof.Machine.execImm imm s
  | .jmp imm => Sys2Proof.Machine.execJmp imm s
  | .call imm => Sys2Proof.Machine.execCall imm s
  | .jz imm => Sys2Proof.Machine.execJz imm s
  | .jnz imm => Sys2Proof.Machine.execJnz imm s
  | .ent imm => Sys2Proof.Machine.execEnt imm s
  | .adj imm => Sys2Proof.Machine.execAdj imm s
  | .lev => Sys2Proof.Machine.execLev s
  | .li => Sys2Proof.Machine.execLi s
  | .lc => Sys2Proof.Machine.execLc s
  | .si => Sys2Proof.Machine.execSi s
  | .sc => Sys2Proof.Machine.execSc s
  | .push => Sys2Proof.Machine.execPush s
  | .or => Sys2Proof.Machine.execOr s
  | .xor => Sys2Proof.Machine.execXor s
  | .and => Sys2Proof.Machine.execAnd s
  | .eq => Sys2Proof.Machine.execEq s
  | .ne => Sys2Proof.Machine.execNe s
  | .lt => Sys2Proof.Machine.execLt s
  | .gt => Sys2Proof.Machine.execGt s
  | .le => Sys2Proof.Machine.execLe s
  | .ge => Sys2Proof.Machine.execGe s
  | .shl => Sys2Proof.Machine.execShl s
  | .shr => Sys2Proof.Machine.execShr s
  | .add => Sys2Proof.Machine.execAdd s
  | .sub => Sys2Proof.Machine.execSub s
  | .mul => Sys2Proof.Machine.execMul s
  | .div => Sys2Proof.Machine.execDiv s
  | .mod => Sys2Proof.Machine.execMod s
  | .opn => Sys2Proof.Machine.execOpn s
  | .read => Sys2Proof.Machine.execRead s
  | .clos => Sys2Proof.Machine.execClos s
  | .prtf imm => Sys2Proof.Machine.execPrtf imm s
  | .malc => Sys2Proof.Machine.execMalc s
  | .mset => Sys2Proof.Machine.execMset s
  | .mcmp => Sys2Proof.Machine.execMcmp s
  | .exit => Sys2Proof.Machine.execExit s

end Sys2Proof.Machine
end

