-- ==== Sys2Proof/Machine/Step.lean ====
section
/-! DEFINITION. One step of the core (spec 30_encoding.md R83, 60_exceptions.md R206, R208), and the load of one
instruction from outside (spec 70_reset_and_hazards.md R232). -/

namespace Sys2Proof.Machine

/-- One step: a core that is not Running takes none (R83, R208); otherwise the instruction at pc is fetched, a fetch or
decode fault is taken, and the instruction is executed. -/
def step (s : State) : Host.Outcome State Fault Refusal :=
  if s.runstate = running then
    match fetchInstr s with
    | .ok i => exec i s
    | .error e => .next (takeTrap s e)
  else .fault .halted

/-- `s` with the instruction whose bits are `w` stored at pc, as the Bytecode Producer would have written it: two
words, the bits from `nbits` up zero (log 18). The very next step of a Running core whose pc is the address of two
words of the instruction arena runs it. -/
def State.withFetchWord (s : State) (nbits w : Nat) : State :=
  s.setMem (s.mem.writeBytes s.pc.toNat (tableBytes (2 * s.cfg.xlen.bytes) nbits w))

end Sys2Proof.Machine
end

