-- ==== Sys2Proof/Safety.lean ====
section
/-! DEFINITION. The words claims are made in: which accesses the spec admits, what taking a fault is, the invariant of
the machine, and what a safe run is. -/

namespace Sys2Proof

/-! ## The register matrix (spec 10_state.md R25) -/

/-- The registers an instruction may write, x[0] to x[3], pc's own advance included (R25). -/
def Instr.writes : Instr → List (Fin 4)
  | .imm _ | .lea _ => [0, 3]
  | .lc | .li => [0, 3]
  | .sc | .si => [0, 1]
  | .push => [0, 1]
  | .jmp _ | .jz _ | .jnz _ => [0]
  | .call _ => [0, 1]
  | .ent _ => [0, 1, 2]
  | .adj _ => [0, 1]
  | .lev => [0, 1, 2]
  | .or | .xor | .and | .eq | .ne | .lt | .gt | .le | .ge | .shl | .shr | .add | .sub | .mul | .div | .mod => [0, 1, 3]
  | .exit => []
  | .opn | .clos | .read | .prtf _ | .malc | .mset | .mcmp => [0, 3]

/-- The registers an instruction reads, x[0] to x[3]; every instruction reads pc to fetch (R25). -/
def Instr.reads : Instr → List (Fin 4)
  | .imm _ => [0]
  | .lea _ => [0, 2]
  | .lc | .li => [0, 3]
  | .sc | .si => [0, 1, 3]
  | .push => [0, 1, 3]
  | .jmp _ => [0]
  | .jz _ | .jnz _ => [0, 3]
  | .call _ => [0, 1]
  | .ent _ => [0, 1, 2]
  | .adj _ => [0, 1]
  | .lev => [0, 2]
  | .or | .xor | .and | .eq | .ne | .lt | .gt | .le | .ge | .shl | .shr | .add | .sub | .mul | .div | .mod => [0, 1, 3]
  | .exit => [0, 1]
  | .opn | .clos | .read | .prtf _ | .malc | .mset | .mcmp => [0, 1]

/-- The host-bridge opcode of an instruction, if it is one (R171). -/
def Instr.hostOp : Instr → Option HostOp
  | .opn => some .opn
  | .clos => some .clos
  | .read => some .read
  | .prtf _ => some .prtf
  | .malc => some .malc
  | .mset => some .mset
  | .mcmp => some .mcmp
  | .imm _ | .lea _ | .lc | .li | .sc | .si | .push | .jmp _ | .jz _ | .jnz _ | .call _ | .ent _ | .adj _ | .lev
  | .or | .xor | .and | .eq | .ne | .lt | .gt | .le | .ge | .shl | .shr | .add | .sub | .mul | .div | .mod
  | .exit => none

end Sys2Proof

namespace Sys2Proof.Machine

/-! ## Run status (spec 10_state.md R27) -/

/-- RUNSTATE = Running. -/
abbrev State.Running (s : State) : Prop := s.runstate = 0

/-- RUNSTATE = Exited. -/
abbrev State.Exited (s : State) : Prop := s.runstate = 1

/-- RUNSTATE = Faulted. -/
abbrev State.Faulted (s : State) : Prop := s.runstate = 2

/-! ## Accesses (spec 20_memory.md R54 to R61) -/

/-- The word at `a` lies whole and aligned inside the instruction arena (R60). -/
abbrev State.TextWord (s : State) (a : Word) : Prop :=
  a.toNat % s.cfg.xlen.bytes = 0 ∧ s.cfg.textBase ≤ a.toNat ∧
    a.toNat + s.cfg.xlen.bytes ≤ s.cfg.textBase + s.cfg.poolBytes

/-- The word at `a` lies whole and aligned inside the stack arena (R61). -/
abbrev State.StackSlot (s : State) (a : Word) : Prop :=
  a.toNat % s.cfg.xlen.bytes = 0 ∧ s.cfg.stackBase ≤ a.toNat ∧
    a.toNat + s.cfg.xlen.bytes ≤ s.cfg.stackBase + s.cfg.poolBytes

/-- [a, a + n) is empty or lies inside one region with the read right (R54, R55, R52). -/
abbrev State.Readable (s : State) (a n : Nat) : Prop :=
  n = 0 ∨ (s.cfg.textBase ≤ a ∧ a + n ≤ s.cfg.textBase + s.cfg.poolBytes) ∨
    (s.cfg.dataBase ≤ a ∧ a + n ≤ s.cfg.dataBase + s.cfg.poolBytes) ∨
    (s.cfg.stackBase ≤ a ∧ a + n ≤ s.cfg.stackBase + s.cfg.poolBytes) ∨
    ∃ b ∈ s.blocks, b.base ≤ a ∧ a + n ≤ b.base + b.size

/-- [a, a + n) is empty or lies inside one region with the write right (R54, R55, R52, R53). -/
abbrev State.Writable (s : State) (a n : Nat) : Prop :=
  n = 0 ∨ (s.cfg.dataBase ≤ a ∧ a + n ≤ s.cfg.dataBase + s.cfg.poolBytes) ∨
    (s.cfg.stackBase ≤ a ∧ a + n ≤ s.cfg.stackBase + s.cfg.poolBytes) ∨
    ∃ b ∈ s.blocks, b.base ≤ a ∧ a + n ≤ b.base + b.size

/-- The byte at an address (R32). -/
abbrev State.byte (s : State) (a : Nat) : Byte := s.mem.read a

/-- The word at an address, little-endian (R56). -/
abbrev State.word (s : State) (a : Word) : Word := bytesWord (s.mem.readBytes a.toNat s.cfg.xlen.bytes)

/-- CStr(a) is the bytes `str` (R178): byte k of it is readable and not zero, and the byte after it is readable and
zero. Addresses advance modulo 2^XLEN. -/
def State.IsString (s : State) (a : Word) (str : List Byte) : Prop :=
  (∀ k (h : k < str.length), s.Readable ((a.toNat + k) % 2 ^ s.cfg.xlen.bits) 1 ∧
    s.byte ((a.toNat + k) % 2 ^ s.cfg.xlen.bits) = str[k] ∧ str[k] ≠ 0) ∧
  s.Readable ((a.toNat + str.length) % 2 ^ s.cfg.xlen.bits) 1 ∧
  s.byte ((a.toNat + str.length) % 2 ^ s.cfg.xlen.bits) = 0

/-- The string read at `a` meets its first unreadable byte at `b` (R178). -/
def State.BadString (s : State) (a b : Word) : Prop :=
  ∃ k, (∀ j < k, s.Readable ((a.toNat + j) % 2 ^ s.cfg.xlen.bits) 1 ∧
    s.byte ((a.toNat + j) % 2 ^ s.cfg.xlen.bits) ≠ 0) ∧
  ¬ s.Readable ((a.toNat + k) % 2 ^ s.cfg.xlen.bits) 1 ∧ b.toNat = (a.toNat + k) % 2 ^ s.cfg.xlen.bits

/-! ## Faults (spec 60_exceptions.md R201, R206) -/

/-- What the taking of fault `e` leaves of `s`: the run-status registers written, everything else kept. -/
abbrev State.afterFault (s : State) (e : Trap) : State := { s with runstate := 2, cause := e.code, xval := e.info }

/-- The fault of a stack access at `a` (R61): misaligned first, then out of bounds. -/
def State.StackFault (s : State) (a : Word) (e : Trap) : Prop :=
  (a.toNat % s.cfg.xlen.bytes ≠ 0 ∧ e = .misaligned a) ∨
  (a.toNat % s.cfg.xlen.bytes = 0 ∧ ¬ s.StackSlot a ∧ e = .outOfBounds a)

/-! ## What instructions do to registers -/

/-- pc moved past `k` words, modulo 2^XLEN (R18, R21). -/
abbrev State.PcPast (s t : State) (k : Nat) : Prop :=
  t.pc.toNat = (s.pc.toNat + k * s.cfg.xlen.bytes) % 2 ^ s.cfg.xlen.bits

/-- sp moved up by `k` words, modulo 2^XLEN (R16). -/
abbrev State.SpUp (s t : State) (k : Nat) : Prop :=
  t.sp.toNat = (s.sp.toNat + k * s.cfg.xlen.bytes) % 2 ^ s.cfg.xlen.bits

/-- sp moved down by one word, modulo 2^XLEN (R16). -/
abbrev State.SpDown (s t : State) : Prop :=
  (t.sp.toNat : Int) = ((s.sp.toNat : Int) - s.cfg.xlen.bytes) % (2 ^ s.cfg.xlen.bits : Nat)

/-- The word `v` stands at `a`, and every byte outside it is as in `s` (R59, R61). -/
abbrev State.Stored (s t : State) (a v : Word) : Prop :=
  t.word a = v ∧ ∀ c, c < a.toNat ∨ a.toNat + s.cfg.xlen.bytes ≤ c → t.byte c = s.byte c

/-- What an operator that completes leaves of `s`: ax, sp and pc written, sp and pc past one word, everything else
kept (R140). -/
def State.AfterOperator (s t : State) : Prop :=
  t = { s with ax := t.ax, sp := t.sp, pc := t.pc } ∧ s.SpUp t 1 ∧ s.PcPast t 1

/-- The address of PRTF's slot number `k`, 0 the format's: sp + N * WB - (k + 1) * WB modulo 2^XLEN (R177). -/
def State.prtfSlot (s : State) (imm : Word) (k : Nat) : Word :=
  s.xlen.sub (s.xlen.add s.sp (s.scaled imm)) (s.xlen.word ((k + 1) * s.xlen.bytes))

/-- How many arguments PRTF forwards: min(N - 1, 5), none where N < 1 (R177). -/
def State.prtfCount (s : State) (imm : Word) : Nat := min 5 (s.xlen.sval imm - 1).toNat

/-! ## The invariant -/

/-- Every register of a word's width holds a word of XLEN bits (R20, R29). -/
abbrev State.WordsFit (s : State) : Prop :=
  s.cfg.xlen.Fits s.pc ∧ s.cfg.xlen.Fits s.sp ∧ s.cfg.xlen.Fits s.bp ∧ s.cfg.xlen.Fits s.ax ∧ s.cfg.xlen.Fits s.xval

/-- The legal values of the run-status registers (R27, R28, R29, R201, U26). -/
abbrev State.StatusLegal (s : State) : Prop :=
  (s.runstate = 0 ∧ s.cause = 0 ∧ s.xval = 0) ∨ (s.runstate = 1 ∧ s.cause = 0) ∨
  (s.runstate = 2 ∧ (s.cause = 1 ∨ (s.cause = 2 ∧ s.xval = 0) ∨ s.cause = 3 ∨ s.cause = 4))

/-- The ranges of a host block and [base, base + size) share no byte. -/
abbrev HostBlock.apart (b : HostBlock) (base size : Nat) : Prop :=
  b.size = 0 ∨ size = 0 ∨ b.base + b.size ≤ base ∨ base + size ≤ b.base

/-- What R180 requires of a live host block by itself. -/
abbrev State.BlockLegal (s : State) (b : HostBlock) : Prop :=
  b.base % s.cfg.xlen.bytes = 0 ∧ s.cfg.xlen.bytes ≤ b.base ∧ b.base + b.size ≤ 2 ^ s.cfg.xlen.bits ∧
  b.size < 2 ^ (s.cfg.xlen.bits - 1) ∧ b.apart s.cfg.textBase s.cfg.poolBytes ∧
  b.apart s.cfg.dataBase s.cfg.poolBytes ∧ b.apart s.cfg.stackBase s.cfg.poolBytes

/-- The live host blocks are legal and share no byte with each other (R36, R52, R180). -/
abbrev State.BlocksLegal (s : State) : Prop :=
  (∀ b ∈ s.blocks, s.BlockLegal b) ∧ s.blocks.Pairwise fun b c => b.apart c.base c.size

/-- Addresses outside every region hold no state (R32). -/
abbrev State.MemInRegions (s : State) : Prop := ∀ c ∈ s.mem, s.Readable c.1 1

/-- The invariant every step keeps. -/
structure State.Inv (s : State) : Prop where
  cfg : s.cfg.wf
  words : s.WordsFit
  status : s.StatusLegal
  memory : s.mem.wf
  blocks : s.BlocksLegal
  regions : s.MemInRegions

/-! ## Runs -/

/-- `t` is reached from `s` by steps that answer a next state. -/
inductive State.Reaches (s : State) : State → Prop where
  | refl : State.Reaches s s
  | tail {t u : State} : State.Reaches s t → step t = .next u → State.Reaches s u

/-- A safe run: no state reached from `s` is Faulted. -/
def State.SafeFrom (s : State) : Prop := ∀ t, s.Reaches t → ¬ t.Faulted

end Sys2Proof.Machine
end

