-- ==== Sys2Proof/Certificates/Slice0/Obligations.lean ====
section
/-! DEFINITION. The statements for the provers, from the numbered rules of spec/. Each docstring names the rules it
formalises. -/

open Sys2Proof Sys2Proof.Machine

namespace Sys2Proof.Claims

/-- An operator that never faults by itself: its row of the opcode table; where the pop is admitted it completes with
`value` true of the new ax; where the pop faults that fault is taken (R140). -/
def OperatorRule (i : Instr) (number : Word) (value : State → Word → Word → Prop) : Prop :=
  formatOf number = some (.f0 i) ∧
  ∀ s : State,
    (s.StackSlot s.sp → ∃ t, exec i s = .next t ∧ s.AfterOperator t ∧ value s (s.word s.sp) t.ax) ∧
    ∀ e, s.StackFault s.sp e → exec i s = .next (s.afterFault e)

/-- An operator that faults on the operand pairs for which `ok` fails, after the pop's own faults (R140). -/
def FaultingOperatorRule (i : Instr) (number : Word) (ok : State → Word → Prop)
    (value : State → Word → Word → Prop) : Prop :=
  formatOf number = some (.f0 i) ∧
  ∀ s : State,
    (s.StackSlot s.sp → ok s (s.word s.sp) →
      ∃ t, exec i s = .next t ∧ s.AfterOperator t ∧ value s (s.word s.sp) t.ax) ∧
    (s.StackSlot s.sp → ¬ ok s (s.word s.sp) → exec i s = .next (s.afterFault .arithmetic)) ∧
    ∀ e, s.StackFault s.sp e → exec i s = .next (s.afterFault e)

/-- The result of bit i is `f` of bit i of the left and of the right operand, for each of the XLEN bits. -/
def Bitwise (f : Bool → Bool → Bool) (s : State) (l v : Word) : Prop :=
  s.cfg.xlen.Fits v ∧ ∀ k < s.cfg.xlen.bits, v.getLsbD k = f (l.getLsbD k) (s.ax.getLsbD k)

/-- The word 1 where `p` holds of the operands, else the word 0. -/
def Truth (p : State → Word → Prop) (s : State) (l v : Word) : Prop := (p s l → v = 1) ∧ (¬ p s l → v = 0)

/-- All XLEN bits of the operands are equal. -/
def SameBits (s : State) (l : Word) : Prop := ∀ k < s.cfg.xlen.bits, l.getLsbD k = s.ax.getLsbD k

/-- The shift count is in 0 .. XLEN-1, read as signed. -/
def CountLegal (s : State) (_ : Word) : Prop := 0 ≤ s.cfg.xlen.sval s.ax ∧ s.cfg.xlen.sval s.ax < s.cfg.xlen.bits

/-- The divisor is not zero and the quotient fits a word. -/
def QuotientExists (s : State) (l : Word) : Prop :=
  s.cfg.xlen.sval s.ax ≠ 0 ∧
  ¬ (s.cfg.xlen.sval l = -(2 : Int) ^ (s.cfg.xlen.bits - 1) ∧ s.cfg.xlen.sval s.ax = -1)

/-- What a host-bridge instruction of `k` words that completes leaves of `s`: ax, pc and the host's record written, pc
past `k` words, everything else kept (R171). -/
def AfterBridge (s t : State) (k : Nat) : Prop :=
  t = { s with ax := t.ax, pc := t.pc, events := t.events, answers := t.answers } ∧ s.PcPast t k

/-- The first of the argument slots 0, 1, .. n - 1 that is not admitted is number `k`, with fault `e` (R16, R171). -/
def ArgFault (s : State) (n k : Nat) (e : Trap) : Prop :=
  k < n ∧ (∀ j < k, s.StackSlot (s.slot s.sp j)) ∧ s.StackFault (s.slot s.sp k) e

/-- The argument slots 0 .. n - 1 are admitted (R16, R171). -/
def ArgsOk (s : State) (n : Nat) : Prop := ∀ j < n, s.StackSlot (s.slot s.sp j)

/-- arg(i) (R16). -/
def argWord (s : State) (i : Nat) : Word := s.word (s.slot s.sp i)

/-- What the recorded entry of a PRTF that called the host says of the call: the format address and the min(N - 1, 5)
forwarded arguments, the nearest the format first, the format bytes, and that nothing was written (R37, R173, R177). -/
def PrtfEvent (s : State) (n : Word) (fmt : List Byte) (e : HostEvent) : Prop :=
  e.op = .prtf ∧ e.sent = fmt ∧ e.written = [] ∧
  e.args = s.word (s.prtfSlot n 0) :: (List.range (s.prtfCount n)).map fun k => s.word (s.prtfSlot n (k + 1))

end Sys2Proof.Claims

open Sys2Proof.Claims

/-! ## Encoding and the step -/

/-- Words written out from 30_encoding.md R81, R82, R86 (95_test_vectors.md E1 to E9). -/
def Obligations.SpecWordsDecode : Prop :=
  decode .x64 [0x01, 0, 0, 0, 0, 0, 0, 0, 0x0A, 0, 0, 0, 0, 0, 0, 0] = .ok (.imm 10, []) ∧
  decode .x64 [0x0D, 0, 0, 0, 0, 0, 0, 0] = .ok (.push, []) ∧
  decode .x64 [0, 0, 0, 0, 0, 0, 0, 0, 0xFF, 0xFF, 0xFF, 0xFF, 0xFF, 0xFF, 0xFF, 0xFF] =
    .ok (.lea 0xFFFFFFFFFFFFFFFF, []) ∧
  decode .x64 [0x25, 0, 0, 0, 0, 0, 0, 0] = .ok (.exit, []) ∧
  decode .x64 [0x21, 0, 0, 0, 0, 0, 0, 0, 3, 0, 0, 0, 0, 0, 0, 0] = .ok (.prtf 3, []) ∧
  decode .x32 [0x01, 0, 0, 0, 0x0A, 0, 0, 0, 0x0D, 0, 0, 0] = .ok (.imm 10, [0x0D, 0, 0, 0]) ∧
  decode .x64 [0x25, 1, 0, 0, 0, 0, 0, 0] = .error (.illegalOpcode 0x125) ∧
  decode .x64 [0x26, 0, 0, 0, 0, 0, 0, 0] = .error (.illegalOpcode 38)

/-- R81, R82, R85: decoding the encoding of any well-formed instruction gives it back, with every operand at every
value, whatever bytes follow. -/
def Obligations.DecodeOfEncodeIsTheInstruction : Prop :=
  ∀ (x : Xlen) (i : Instr) (rest : List Byte), i.wf x = true → decode x (encode x i ++ rest) = .ok (i, rest)

/-- R80, R81, R82: the bytes an instruction is decoded from are its encoding and no other. -/
def Obligations.DecodedBytesAreTheEncoding : Prop :=
  ∀ (x : Xlen) (bs rest : List Byte) (i : Instr),
    decode x bs = .ok (i, rest) → i.wf x = true ∧ bs = encode x i ++ rest

/-- R87, R88, R202: an opcode word selects an opcode exactly when it is at most 37, and any other raises
IllegalOpcode. -/
def Obligations.OpcodeWordsAbove37AreIllegal : Prop :=
  (∀ op : Word, formatOf op = none ↔ 37 < op.toNat) ∧
  ∀ s : State, s.Running → s.TextWord s.pc → 37 < (s.word s.pc).toNat →
    step s = .next (s.afterFault (.illegalOpcode (s.word s.pc)))

/-- R83: when the bytes at pc, inside the instruction arena, decode to an instruction, the step of a Running core is
that instruction executed on that state. -/
def Obligations.StepRunsTheDecodedInstruction : Prop :=
  ∀ (s : State) (n : Nat) (i : Instr) (rest : List Byte),
    s.cfg.wf → s.Running → s.pc.toNat % s.cfg.xlen.bytes = 0 → s.cfg.textBase ≤ s.pc.toNat →
    s.pc.toNat + n ≤ s.cfg.textBase + s.cfg.poolBytes →
    decode s.cfg.xlen (s.mem.readBytes s.pc.toNat n) = .ok (i, rest) → step s = exec i s

/-- R60, R83, R133, R207: a step whose fetch fails takes the fetch fault, alignment before bounds, the opcode word
before the operand word. -/
def Obligations.BadProgramCounterFaultsAtFetch : Prop :=
  ∀ s : State, s.Running →
    (s.pc.toNat % s.cfg.xlen.bytes ≠ 0 → step s = .next (s.afterFault (.misaligned s.pc))) ∧
    (s.pc.toNat % s.cfg.xlen.bytes = 0 → ¬ s.TextWord s.pc → step s = .next (s.afterFault (.outOfBounds s.pc))) ∧
    (∀ mk, s.TextWord s.pc → formatOf (s.word s.pc) = some (.f1 mk) → ¬ s.TextWord (s.slot s.pc 1) →
      step s = .next (s.afterFault (.outOfBounds (s.slot s.pc 1))))

/-- R90: a zero word is LEA; in zero-filled text a step sets ax to bp and goes on two words further, and where only the
opcode word is left in the arena the operand fetch faults at its end with pc kept (R83, R60; log 21). -/
def Obligations.ZeroFilledTextRunsLea : Prop :=
  ∀ s : State, s.cfg.wf → s.WordsFit → s.Running → s.TextWord s.pc → s.word s.pc = 0 →
    (s.TextWord (s.slot s.pc 1) → s.word (s.slot s.pc 1) = 0 →
      ∃ t, step s = .next t ∧ t = { s with ax := s.bp, pc := t.pc } ∧ t.pc.toNat = s.pc.toNat + 2 * s.cfg.xlen.bytes) ∧
    (s.pc.toNat + s.cfg.xlen.bytes = s.cfg.textBase + s.cfg.poolBytes →
      ∃ b : Word, b.toNat = s.cfg.textBase + s.cfg.poolBytes ∧ step s = .next (s.afterFault (.outOfBounds b)))

/-! ## The whole machine -/

/-- R83, R208, R216: a Running core always answers a next state (its instruction's effect or the fault taken); a core
that is not Running takes no step. Two clauses are the model's choice: that a step with a host call always answers is log
10's (DESIGN CHOICE, unsafe: R173, R216 and U4 let a call never answer, and such a call is not represented), and that a
core that takes no step answers the stop `halted`, with RUNSTATE = 3 counted as not Running, is log 8's. -/
def Obligations.StepAnswersNextExactlyWhenRunning : Prop :=
  ∀ s : State, (s.Running → ∃ t, step s = .next t) ∧ (¬ s.Running → step s = .fault .halted)

/-- R206 (with R17): a step that faults writes RUNSTATE, CAUSE and XVAL and nothing else: registers, every byte of
memory and the set of host blocks are exactly as at the boundary. -/
def Obligations.FaultsArePrecise : Prop :=
  ∀ s t : State, s.Running → step s = .next t → t.Faulted →
    ∃ e : Trap, t.cause = e.code ∧ t.xval = e.info ∧
      t.pc = s.pc ∧ t.sp = s.sp ∧ t.bp = s.bp ∧ t.ax = s.ax ∧ t.mem = s.mem ∧ t.blocks = s.blocks

/-- R27, R216: RUNSTATE leaves Running only by EXIT, which reports the word on top of the stack, or by a fault; in
every other step the three run-status registers keep their values. -/
def Obligations.OnlyExitAndFaultsEndTheRun : Prop :=
  ∀ s t : State, s.Running → step s = .next t →
    (t.Running ∧ t.cause = s.cause ∧ t.xval = s.xval) ∨
    (fetchInstr s = .ok .exit ∧ s.StackSlot s.sp ∧ t = { s with runstate := 1, xval := s.word s.sp }) ∨
    (t.Faulted ∧ 1 ≤ t.cause.toNat ∧ t.cause.toNat ≤ 4)

/-- R25 (the "w" entries): an instruction leaves every register alone that the matrix does not give it to write. -/
def Obligations.RegisterWritesFollowTheMatrix : Prop :=
  ∀ (i : Instr) (s t : State) (r : Fin 4), exec i s = .next t → r ∉ i.writes → t.x r = s.x r

/-- R25 (the "r" entries): a register the matrix does not let an instruction read has no influence on it: changed
beforehand, it is found changed afterwards unless the instruction wrote it, and nothing else differs. -/
def Obligations.UnreadRegistersHaveNoInfluence : Prop :=
  ∀ (i : Instr) (s t : State) (r : Fin 4) (v : Word), s.Running → r ∉ i.reads → exec i s = .next t →
    exec i (s.setX r v) = .next (if r ∈ i.writes ∧ ¬ t.Faulted then t else t.setX r v)

/-- R36, R38: no step changes the launch parameters, and the set of live host blocks only grows, by at most one
block. -/
def Obligations.HostBlocksOnlyGrow : Prop :=
  ∀ s t : State, step s = .next t → t.cfg = s.cfg ∧ (t.blocks = s.blocks ∨ ∃ b, t.blocks = b :: s.blocks)

/-- R37, R40, R206: a host-bridge instruction that completes adds one entry to the record, under its own opcode and with
ax as its result; every other instruction leaves the record and the answers to come alone, and so does one that faults,
but for a PRTF that faulted after its host call, whose entry has no result (the record's form is log 17's). -/
def Obligations.HostCallsAreRecorded : Prop :=
  ∀ (i : Instr) (s t : State), s.Running → exec i s = .next t →
    (t.Faulted → (t.events = s.events ∧ t.answers = s.answers) ∨
      (i.hostOp = some .prtf ∧ ∃ e : HostEvent, t.events = e :: s.events ∧ e.op = .prtf ∧ e.result = none)) ∧
    (¬ t.Faulted →
      (∀ op, i.hostOp = some op → ∃ e : HostEvent, t.events = e :: s.events ∧ e.op = op ∧ e.result = some t.ax) ∧
      (i.hostOp = none → t.events = s.events ∧ t.answers = s.answers))

/-- R52, R53, R59, R71: a byte that a step changes lies in a writable region, DATA, STACK or a live host block (the one
just handed out among them). -/
def Obligations.ChangedBytesLieInWritableRegions : Prop :=
  ∀ (s t : State) (a : Nat), step s = .next t → t.byte a ≠ s.byte a → t.Writable a 1

/-- The invariant holds at reset (R39; the values of `Launch.ref` are log 3's). -/
def Obligations.InvariantHoldsAtReset : Prop := State.reset.Inv

/-- R6 to R9, R39: the invariant holds at the start of every legal launch. -/
def Obligations.InvariantHoldsAtEveryLaunch : Prop := ∀ l : Launch, l.wf → (State.launch l).Inv

/-- Every step keeps the invariant: legal parameters, registers of XLEN bits (R20), legal run status (R27 to R29),
memory in canonical form, legal and disjoint host blocks (R36, R52, R180), no state outside the regions (R32). -/
def Obligations.StepKeepsTheInvariant : Prop := ∀ s t : State, s.Inv → step s = .next t → t.Inv

/-- R33, R53, R69: along any run from a state with the invariant no byte of the instruction arena changes, so every
fetch returns the word that stood there. -/
def Obligations.InstructionArenaNeverChanges : Prop :=
  ∀ s t : State, s.Inv → s.Reaches t →
    ∀ a, s.cfg.textBase ≤ a → a < s.cfg.textBase + s.cfg.poolBytes → t.byte a = s.byte a

/-- R39, R230, R235: what every legal launch leaves in the registers, the run-status registers, the three arenas and
the set of host blocks. -/
def Obligations.ResetLeavesTheLaunchState : Prop :=
  ∀ l : Launch, l.wf →
    (State.launch l).pc.toNat = l.entryPc ∧
    (State.launch l).sp.toNat = l.cfg.stackBase + l.cfg.poolBytes ∧
    (State.launch l).bp.toNat = l.cfg.stackBase + l.cfg.poolBytes ∧
    (State.launch l).ax = 0 ∧ (State.launch l).runstate = 0 ∧ (State.launch l).cause = 0 ∧ (State.launch l).xval = 0 ∧
    (∀ k, k * l.cfg.xlen.bytes < l.cfg.poolBytes → ∀ a : Word, a.toNat = l.cfg.textBase + k * l.cfg.xlen.bytes →
      (State.launch l).word a = l.textInit.getD k 0) ∧
    (∀ k < l.cfg.poolBytes, (State.launch l).byte (l.cfg.dataBase + k) = l.dataInit.getD k 0) ∧
    (∀ k < l.cfg.poolBytes, (State.launch l).byte (l.cfg.stackBase + k) = 0) ∧
    (State.launch l).blocks = []

/-- R26 (C8): the document's invariant sp <= bp <= STACK_TOP is not enforced: a step without a fault can break it. -/
def Obligations.StackOrderIsNotEnforced : Prop :=
  ∃ s t : State, s.Inv ∧ s.Running ∧ s.sp.toNat ≤ s.bp.toNat ∧ s.bp.toNat ≤ s.cfg.stackTop ∧
    step s = .next t ∧ t.Running ∧ ¬ t.sp.toNat ≤ t.bp.toNat

/-! ## Memory -/

/-- R56: after a word is stored at `a`, byte a + k is its bits [8k+7:8k] and the word read back is it; after a byte is
stored at a + k, the word at `a` has it in bits [8k+7:8k] and its other bytes unchanged. -/
def Obligations.WordsAreLittleEndian : Prop :=
  (∀ (s t : State) (a w : Word), s.cfg.xlen.Fits w → memWrite s a .word w = .ok t →
    (∀ k < s.cfg.xlen.bytes, t.byte (a.toNat + k) = w.extractLsb' (8 * k) 8) ∧ t.word a = w) ∧
  (∀ (s t : State) (a c b : Word) (k : Nat), k < s.cfg.xlen.bytes → c.toNat = a.toNat + k →
    memWrite s c .byte b = .ok t →
    ∀ j < s.cfg.xlen.bytes,
      (t.word a).extractLsb' (8 * j) 8 = if j = k then b.extractLsb' 0 8 else (s.word a).extractLsb' (8 * j) 8)

/-- R52, R53, R54, R55, R64: a range is admitted exactly when it is empty or lies inside one region that has the right,
over unbounded integers. So, where the invariant keeps the regions apart, a range that is not empty and begins in a region
is admitted exactly when the region has the right and the range does not run past its end, not across the border of two
regions that touch; one that begins in no region, as at address 0, is never admitted. -/
def Obligations.RangesLieInOneRegion : Prop :=
  (∀ (s : State) (a : Word) (n : Nat),
    (rangeOk s a n .read = true ↔ s.Readable a.toNat n) ∧ (rangeOk s a n .write = true ↔ s.Writable a.toNat n) ∧
    (rangeOk s a n .fetch = true ↔
      n = 0 ∨ (s.cfg.textBase ≤ a.toNat ∧ a.toNat + n ≤ s.cfg.textBase + s.cfg.poolBytes))) ∧
  ∀ (s : State) (a : Word) (n : Nat), s.Inv → 0 < n →
    ((s.cfg.textBase ≤ a.toNat ∧ a.toNat < s.cfg.textBase + s.cfg.poolBytes) →
      rangeOk s a n .write = false ∧
      (rangeOk s a n .read = true ↔ a.toNat + n ≤ s.cfg.textBase + s.cfg.poolBytes) ∧
      (rangeOk s a n .fetch = true ↔ a.toNat + n ≤ s.cfg.textBase + s.cfg.poolBytes)) ∧
    ((s.cfg.dataBase ≤ a.toNat ∧ a.toNat < s.cfg.dataBase + s.cfg.poolBytes) →
      rangeOk s a n .fetch = false ∧
      (rangeOk s a n .read = true ↔ a.toNat + n ≤ s.cfg.dataBase + s.cfg.poolBytes) ∧
      (rangeOk s a n .write = true ↔ a.toNat + n ≤ s.cfg.dataBase + s.cfg.poolBytes)) ∧
    ((s.cfg.stackBase ≤ a.toNat ∧ a.toNat < s.cfg.stackBase + s.cfg.poolBytes) →
      rangeOk s a n .fetch = false ∧
      (rangeOk s a n .read = true ↔ a.toNat + n ≤ s.cfg.stackBase + s.cfg.poolBytes) ∧
      (rangeOk s a n .write = true ↔ a.toNat + n ≤ s.cfg.stackBase + s.cfg.poolBytes)) ∧
    (∀ b ∈ s.blocks, b.base ≤ a.toNat → a.toNat < b.base + b.size →
      rangeOk s a n .fetch = false ∧
      (rangeOk s a n .read = true ↔ a.toNat + n ≤ b.base + b.size) ∧
      (rangeOk s a n .write = true ↔ a.toNat + n ≤ b.base + b.size)) ∧
    (¬ s.Readable a.toNat 1 → ∀ kind, rangeOk s a n kind = false) ∧
    ¬ s.Readable 0 1

/-- R178: a string read gives the bytes before the first zero byte, or faults at the first unreadable byte, and it is
one of the two wherever the invariant holds. -/
def Obligations.StringsEndAtTheFirstZeroByte : Prop :=
  ∀ (s : State) (a : Word), s.cfg.xlen.Fits a →
    (∀ str, s.IsString a str → cStr s a = .ok str) ∧
    (∀ b, s.BadString a b → cStr s a = .error (.outOfBounds b)) ∧
    (s.Inv → (∃ str, s.IsString a str) ∨ ∃ b, s.BadString a b)

/-! ## Data movement -/

/-- R100. -/
def Obligations.ImmLoadsTheImmediate : Prop :=
  (∃ mk, formatOf 1 = some (.f1 mk) ∧ ∀ v, mk v = .imm v) ∧
  ∀ (v : Word) (s : State),
    ∃ t, exec (.imm v) s = .next t ∧ t = { s with ax := v, pc := t.pc } ∧ s.PcPast t 2

/-- R101. -/
def Obligations.LeaFormsAFrameAddress : Prop :=
  (∃ mk, formatOf 0 = some (.f1 mk) ∧ ∀ v, mk v = .lea v) ∧
  ∀ (v : Word) (s : State),
    ∃ t, exec (.lea v) s = .next t ∧ t = { s with ax := t.ax, pc := t.pc } ∧ s.PcPast t 2 ∧
      t.ax.toNat = (s.bp.toNat + v.toNat * s.cfg.xlen.bytes) % 2 ^ s.cfg.xlen.bits

/-- R102 (U1): LC loads one byte, sign-extended, or zero-extended where the parameter LC_EXT says so. -/
def Obligations.LcLoadsOneExtendedByte : Prop :=
  formatOf 10 = some (.f0 .lc) ∧
  ∀ s : State,
    (s.Readable s.ax.toNat 1 →
      ∃ t, exec .lc s = .next t ∧ t = { s with ax := t.ax, pc := t.pc } ∧ s.PcPast t 1 ∧ s.cfg.xlen.Fits t.ax ∧
        (s.cfg.lcExt = .sign → s.cfg.xlen.sval t.ax = (s.byte s.ax.toNat).toInt) ∧
        (s.cfg.lcExt = .zero → t.ax.toNat = (s.byte s.ax.toNat).toNat)) ∧
    (¬ s.Readable s.ax.toNat 1 → exec .lc s = .next (s.afterFault (.outOfBounds s.ax)))

/-- R103. -/
def Obligations.LiLoadsAnAlignedWord : Prop :=
  formatOf 9 = some (.f0 .li) ∧
  ∀ s : State,
    (s.ax.toNat % s.cfg.xlen.bytes = 0 → s.Readable s.ax.toNat s.cfg.xlen.bytes →
      ∃ t, exec .li s = .next t ∧ t = { s with ax := t.ax, pc := t.pc } ∧ s.PcPast t 1 ∧ s.cfg.xlen.Fits t.ax ∧
        ∀ k < s.cfg.xlen.bytes, t.ax.extractLsb' (8 * k) 8 = s.byte (s.ax.toNat + k)) ∧
    (s.ax.toNat % s.cfg.xlen.bytes ≠ 0 → exec .li s = .next (s.afterFault (.misaligned s.ax))) ∧
    (s.ax.toNat % s.cfg.xlen.bytes = 0 → ¬ s.Readable s.ax.toNat s.cfg.xlen.bytes →
      exec .li s = .next (s.afterFault (.outOfBounds s.ax)))

/-- R104. -/
def Obligations.ScStoresTheLowByte : Prop :=
  formatOf 12 = some (.f0 .sc) ∧
  ∀ s : State,
    (s.StackSlot s.sp → s.Writable (s.word s.sp).toNat 1 →
      ∃ t, exec .sc s = .next t ∧ t = { s with sp := t.sp, pc := t.pc, mem := t.mem } ∧ s.SpUp t 1 ∧ s.PcPast t 1 ∧
        t.byte (s.word s.sp).toNat = s.ax.extractLsb' 0 8 ∧ ∀ c, c ≠ (s.word s.sp).toNat → t.byte c = s.byte c) ∧
    (∀ e, s.StackFault s.sp e → exec .sc s = .next (s.afterFault e)) ∧
    (s.StackSlot s.sp → ¬ s.Writable (s.word s.sp).toNat 1 →
      exec .sc s = .next (s.afterFault (.outOfBounds (s.word s.sp))))

/-- R105. -/
def Obligations.SiStoresTheWord : Prop :=
  formatOf 11 = some (.f0 .si) ∧
  ∀ s : State,
    (s.StackSlot s.sp → (s.word s.sp).toNat % s.cfg.xlen.bytes = 0 →
      s.Writable (s.word s.sp).toNat s.cfg.xlen.bytes →
      ∃ t, exec .si s = .next t ∧ t = { s with sp := t.sp, pc := t.pc, mem := t.mem } ∧ s.SpUp t 1 ∧ s.PcPast t 1 ∧
        s.Stored t (s.word s.sp) (s.cfg.xlen.narrow s.ax)) ∧
    (∀ e, s.StackFault s.sp e → exec .si s = .next (s.afterFault e)) ∧
    (s.StackSlot s.sp → (s.word s.sp).toNat % s.cfg.xlen.bytes ≠ 0 →
      exec .si s = .next (s.afterFault (.misaligned (s.word s.sp)))) ∧
    (s.StackSlot s.sp → (s.word s.sp).toNat % s.cfg.xlen.bytes = 0 →
      ¬ s.Writable (s.word s.sp).toNat s.cfg.xlen.bytes →
      exec .si s = .next (s.afterFault (.outOfBounds (s.word s.sp))))

/-- R106. -/
def Obligations.PushStoresAxBelowTheStackTop : Prop :=
  formatOf 13 = some (.f0 .push) ∧
  ∀ s : State,
    (s.StackSlot s.pushSlot →
      ∃ t, exec .push s = .next t ∧ t = { s with sp := s.pushSlot, pc := t.pc, mem := t.mem } ∧ s.SpDown t ∧
        s.PcPast t 1 ∧ s.Stored t s.pushSlot (s.cfg.xlen.narrow s.ax)) ∧
    (∀ e, s.StackFault s.pushSlot e → exec .push s = .next (s.afterFault e))

/-! ## Control flow -/

/-- R120, R121, R122: the three jumps write pc alone; an untaken one goes past its operand word. -/
def Obligations.JumpsWriteOnlyThePc : Prop :=
  ((∃ mk, formatOf 2 = some (.f1 mk) ∧ ∀ v, mk v = .jmp v) ∧ (∃ mk, formatOf 4 = some (.f1 mk) ∧ ∀ v, mk v = .jz v) ∧
    ∃ mk, formatOf 5 = some (.f1 mk) ∧ ∀ v, mk v = .jnz v) ∧
  ∀ (v : Word) (s : State),
    (∃ t, exec (.jmp v) s = .next t ∧ t = { s with pc := v }) ∧
    (∃ t, exec (.jz v) s = .next t ∧ t = { s with pc := t.pc } ∧
      (s.ax = 0 → t.pc = v) ∧ (s.ax ≠ 0 → s.PcPast t 2)) ∧
    (∃ t, exec (.jnz v) s = .next t ∧ t = { s with pc := t.pc } ∧
      (s.ax ≠ 0 → t.pc = v) ∧ (s.ax = 0 → s.PcPast t 2))

/-- R123. -/
def Obligations.CallPushesTheReturnAddress : Prop :=
  (∃ mk, formatOf 3 = some (.f1 mk) ∧ ∀ v, mk v = .call v) ∧
  ∀ (v : Word) (s : State),
    (s.StackSlot s.pushSlot →
      ∃ t ret, exec (.call v) s = .next t ∧ t = { s with sp := s.pushSlot, pc := v, mem := t.mem } ∧ s.SpDown t ∧
        ret.toNat = (s.pc.toNat + 2 * s.cfg.xlen.bytes) % 2 ^ s.cfg.xlen.bits ∧ s.Stored t s.pushSlot ret) ∧
    (∀ e, s.StackFault s.pushSlot e → exec (.call v) s = .next (s.afterFault e))

/-- R124. -/
def Obligations.EntMakesAFrame : Prop :=
  (∃ mk, formatOf 6 = some (.f1 mk) ∧ ∀ v, mk v = .ent v) ∧
  ∀ (n : Word) (s : State),
    (s.StackSlot s.pushSlot →
      ∃ t, exec (.ent n) s = .next t ∧ t = { s with sp := t.sp, bp := s.pushSlot, pc := t.pc, mem := t.mem } ∧
        (t.bp.toNat : Int) = ((s.sp.toNat : Int) - s.cfg.xlen.bytes) % (2 ^ s.cfg.xlen.bits : Nat) ∧
        (t.sp.toNat : Int) = ((t.bp.toNat : Int) - n.toNat * s.cfg.xlen.bytes) % (2 ^ s.cfg.xlen.bits : Nat) ∧
        s.PcPast t 2 ∧ s.Stored t s.pushSlot (s.cfg.xlen.narrow s.bp)) ∧
    (∀ e, s.StackFault s.pushSlot e → exec (.ent n) s = .next (s.afterFault e))

/-- R125. -/
def Obligations.AdjMovesTheStackPointer : Prop :=
  (∃ mk, formatOf 7 = some (.f1 mk) ∧ ∀ v, mk v = .adj v) ∧
  ∀ (n : Word) (s : State),
    ∃ t, exec (.adj n) s = .next t ∧ t = { s with sp := t.sp, pc := t.pc } ∧ s.PcPast t 2 ∧
      t.sp.toNat = (s.sp.toNat + n.toNat * s.cfg.xlen.bytes) % 2 ^ s.cfg.xlen.bits

/-- R126. -/
def Obligations.LevDropsTheFrameAndReturns : Prop :=
  formatOf 8 = some (.f0 .lev) ∧
  ∀ s : State,
    (s.StackSlot s.bp → s.StackSlot (s.slot s.bp 1) →
      ∃ t, exec .lev s = .next t ∧
        t = { s with sp := t.sp, bp := s.word s.bp, pc := s.word (s.slot s.bp 1) } ∧
        t.sp.toNat = (s.bp.toNat + 2 * s.cfg.xlen.bytes) % 2 ^ s.cfg.xlen.bits) ∧
    (∀ e, s.StackFault s.bp e → exec .lev s = .next (s.afterFault e)) ∧
    (s.StackSlot s.bp → ¬ s.StackSlot (s.slot s.bp 1) →
      exec .lev s = .next (s.afterFault (.outOfBounds (s.slot s.bp 1))))

/-- R132 (a), C9: CALL, then ENT N, then LEV give sp and bp back and go on after the CALL, for every N and every state
in which none of the three faults; ax travels through. -/
def Obligations.CallEntLevRoundTrip : Prop :=
  ∀ (f n : Word) (s s₁ s₂ s₃ : State), s.WordsFit → s.Running →
    exec (.call f) s = .next s₁ → ¬ s₁.Faulted → exec (.ent n) s₁ = .next s₂ → ¬ s₂.Faulted →
    exec .lev s₂ = .next s₃ →
    s₃.sp = s.sp ∧ s₃.bp = s.bp ∧ s₃.ax = s.ax ∧ s.PcPast s₃ 2

/-- R130: the frame after CALL and ENT N: the caller's bp at bp, the return address one word above, N slots below down
to sp, and the caller's pushed words, from the caller's stack top upward, at bp + 2 * WB and above, unchanged. -/
def Obligations.CallAndEntBuildTheFrame : Prop :=
  ∀ (f n : Word) (s s₁ s₂ : State), s.cfg.wf → s.WordsFit → s.Running →
    exec (.call f) s = .next s₁ → ¬ s₁.Faulted → exec (.ent n) s₁ = .next s₂ → ¬ s₂.Faulted →
    s₂.word s₂.bp = s.bp ∧
    (s₂.word (s₂.slot s₂.bp 1)).toNat = (s.pc.toNat + 2 * s.cfg.xlen.bytes) % 2 ^ s.cfg.xlen.bits ∧
    s₂.slot s₂.bp 2 = s.sp ∧
    (s₂.sp.toNat : Int) = ((s₂.bp.toNat : Int) - n.toNat * s.cfg.xlen.bytes) % (2 ^ s.cfg.xlen.bits : Nat) ∧
    (∀ c, c < s₂.bp.toNat ∨ s₂.bp.toNat + 2 * s.cfg.xlen.bytes ≤ c → s₂.byte c = s.byte c)

/-! ## Operators -/

/-- R141, R142, R143 in the shape of R140. -/
def Obligations.BitwiseOperators : Prop :=
  OperatorRule .or 14 (Bitwise or) ∧ OperatorRule .xor 15 (Bitwise xor) ∧ OperatorRule .and 16 (Bitwise and)

/-- R144 to R149 in the shape of R140 (R163): equality on all XLEN bits, the order signed, the result 1 or 0. -/
def Obligations.ComparisonOperators : Prop :=
  OperatorRule .eq 17 (Truth SameBits) ∧ OperatorRule .ne 18 (Truth fun s l => ¬ SameBits s l) ∧
  OperatorRule .lt 19 (Truth fun s l => s.cfg.xlen.sval l < s.cfg.xlen.sval s.ax) ∧
  OperatorRule .gt 20 (Truth fun s l => s.cfg.xlen.sval l > s.cfg.xlen.sval s.ax) ∧
  OperatorRule .le 21 (Truth fun s l => s.cfg.xlen.sval l ≤ s.cfg.xlen.sval s.ax) ∧
  OperatorRule .ge 22 (Truth fun s l => s.cfg.xlen.sval l ≥ s.cfg.xlen.sval s.ax)

/-- R150, R151 in the shape of R140: SHL multiplies u(l) modulo 2^XLEN, SHR divides s(l) rounding down, and a count
outside 0 .. XLEN-1 raises ArithmeticFault. -/
def Obligations.ShiftOperators : Prop :=
  FaultingOperatorRule .shl 23 CountLegal (fun s l v =>
    v.toNat = l.toNat * 2 ^ (s.cfg.xlen.sval s.ax).toNat % 2 ^ s.cfg.xlen.bits) ∧
  FaultingOperatorRule .shr 24 CountLegal (fun s l v => s.cfg.xlen.Fits v ∧
    s.cfg.xlen.sval v = (s.cfg.xlen.sval l).fdiv (2 ^ (s.cfg.xlen.sval s.ax).toNat))

/-- R152, R153, R154 in the shape of R140: arithmetic modulo 2^XLEN, SUB popped minus accumulator. -/
def Obligations.AdditiveAndMultiplicativeOperators : Prop :=
  OperatorRule .add 25 (fun s l v => v.toNat = (l.toNat + s.ax.toNat) % 2 ^ s.cfg.xlen.bits) ∧
  OperatorRule .sub 26 (fun s l v => (v.toNat : Int) = ((l.toNat : Int) - s.ax.toNat) % (2 ^ s.cfg.xlen.bits : Nat)) ∧
  OperatorRule .mul 27 (fun s l v => v.toNat = l.toNat * s.ax.toNat % 2 ^ s.cfg.xlen.bits)

/-- R155, R156 in the shape of R140: the quotient truncated toward zero and the remainder that goes with it; a zero
divisor, and MIN with divisor -1, raise ArithmeticFault in both. -/
def Obligations.DivisionOperators : Prop :=
  FaultingOperatorRule .div 28 QuotientExists (fun s l v => s.cfg.xlen.Fits v ∧
    s.cfg.xlen.sval v = (s.cfg.xlen.sval l).tdiv (s.cfg.xlen.sval s.ax)) ∧
  FaultingOperatorRule .mod 29 QuotientExists (fun s l v => s.cfg.xlen.Fits v ∧
    s.cfg.xlen.sval v = s.cfg.xlen.sval l - (s.cfg.xlen.sval l).tdiv (s.cfg.xlen.sval s.ax) * s.cfg.xlen.sval s.ax)

/-- R162, R156: on every operand pair DIV and MOD fault together, and where they do not, s(l) = s(DIV) * s(r) + s(MOD),
|s(MOD)| < |s(r)|, and MOD is zero or has the sign of the dividend. -/
def Obligations.QuotientAndRemainderRecombine : Prop :=
  ∀ s t u : State, s.Running → s.StackSlot s.sp → exec .div s = .next t → exec .mod s = .next u →
    (t.Faulted ↔ u.Faulted) ∧
    (¬ t.Faulted →
      s.cfg.xlen.sval (s.word s.sp) = s.cfg.xlen.sval t.ax * s.cfg.xlen.sval s.ax + s.cfg.xlen.sval u.ax ∧
      (s.cfg.xlen.sval u.ax).natAbs < (s.cfg.xlen.sval s.ax).natAbs ∧
      (s.cfg.xlen.sval u.ax = 0 ∨ (0 < s.cfg.xlen.sval u.ax ↔ 0 < s.cfg.xlen.sval (s.word s.sp))))

/-- R140's testable property: PUSH a; IMM b; SUB computes a - b, and sp is back where it was. -/
def Obligations.PushImmSubSubtractsInOrder : Prop :=
  ∀ (b : Word) (s : State), s.WordsFit → s.Running → s.cfg.xlen.Fits b → s.StackSlot s.pushSlot →
    ∃ s₁ s₂ s₃, exec .push s = .next s₁ ∧ exec (.imm b) s₁ = .next s₂ ∧ exec .sub s₂ = .next s₃ ∧
      (s₃.ax.toNat : Int) = ((s.ax.toNat : Int) - b.toNat) % (2 ^ s.cfg.xlen.bits : Nat) ∧
      s₃.sp = s.sp ∧ s₃.bp = s.bp ∧ s.PcPast s₃ 4

/-! ## EXIT and the host bridge -/

/-- R170. -/
def Obligations.ExitReportsTheStackTop : Prop :=
  formatOf 37 = some (.f0 .exit) ∧
  ∀ s : State,
    (s.StackSlot s.sp → ∃ t, exec .exit s = .next t ∧ t = { s with runstate := 1, xval := t.xval } ∧
      s.cfg.xlen.Fits t.xval ∧ ∀ k < s.cfg.xlen.bytes, t.xval.extractLsb' (8 * k) 8 = s.byte (s.sp.toNat + k)) ∧
    (∀ e, s.StackFault s.sp e → exec .exit s = .next (s.afterFault e))

/-- R174: OPEN hands the path string and the flags to the host and puts its answer in ax, whatever word it is; an
unreadable path faults, after the argument slots in their order (the host and its record are log 4's and 17's; that it
answers is log 10's). -/
def Obligations.OpenAsksTheHost : Prop :=
  formatOf 30 = some (.f0 .opn) ∧
  ∀ s : State, (ArgsOk s 2 →
    (∀ str, cStr s (argWord s 1) = .ok str →
      ∃ t, exec .opn s = .next t ∧ AfterBridge s t 1 ∧
        t.ax = s.cfg.xlen.narrow
          (hostAsk s { op := .opn, args := [argWord s 0, argWord s 1], sent := str, readable := [] }).result ∧
        t.events =
          { op := .opn, args := [argWord s 0, argWord s 1], sent := str
            hostRead := [], result := some t.ax, written := [] } :: s.events) ∧
    (∀ e, cStr s (argWord s 1) = .error e → exec .opn s = .next (s.afterFault e))) ∧
  ∀ k e, ArgFault s 2 k e → exec .opn s = .next (s.afterFault e)

/-- R175: CLOS hands the descriptor to the host and puts its answer in ax, whatever word it is (the host and its record
are log 4's and 17's; that it answers is log 10's). -/
def Obligations.ClosAsksTheHost : Prop :=
  formatOf 32 = some (.f0 .clos) ∧
  ∀ s : State, (ArgsOk s 1 →
    ∃ t, exec .clos s = .next t ∧ AfterBridge s t 1 ∧
      t.ax = s.cfg.xlen.narrow (hostAsk s { op := .clos, args := [argWord s 0], sent := [], readable := [] }).result ∧
      t.events =
        { op := .clos, args := [argWord s 0], sent := []
          hostRead := [], result := some t.ax, written := [] } :: s.events) ∧
  ∀ k e, ArgFault s 1 k e → exec .clos s = .next (s.afterFault e)

/-- R176, R173: READ writes nothing and puts a negative word in ax, or writes exactly the bytes it was given, at most
the length, from the buffer upward and puts their number in ax; the call is recorded with its arguments and the bytes
written (R37); a buffer that is not wholly writable faults, after the argument slots in their order. That READ completes
rests on log 10 (DESIGN CHOICE, unsafe: a host call that never answers is not represented); the record is in log 17's
form, the host log 4's, and an answer the rule does not allow is mapped by log 5. -/
def Obligations.ReadWritesWhatTheHostGives : Prop :=
  formatOf 31 = some (.f0 .read) ∧
  ∀ s : State, (ArgsOk s 3 →
    (s.Writable (argWord s 1).toNat (argWord s 0).toNat →
      ∃ t, exec .read s = .next t ∧ AfterBridge s { t with mem := s.mem } 1 ∧
        ∃ data : List Byte,
          t.events =
            { op := .read, args := [argWord s 0, argWord s 1, argWord s 2], sent := []
              hostRead := [], result := some t.ax, written := data } :: s.events ∧
          ((s.cfg.xlen.sval t.ax < 0 ∧ data = [] ∧ t.mem = s.mem) ∨
            data.length ≤ (argWord s 0).toNat ∧ t.ax.toNat = data.length ∧
            (∀ k (h : k < data.length), t.byte ((argWord s 1).toNat + k) = data[k]) ∧
            (∀ c, c < (argWord s 1).toNat ∨ (argWord s 1).toNat + data.length ≤ c → t.byte c = s.byte c) ∧
            (s.Inv → s.cfg.xlen.sval t.ax = data.length))) ∧
    (¬ s.Writable (argWord s 1).toNat (argWord s 0).toNat →
      exec .read s = .next (s.afterFault (.outOfBounds (argWord s 1))))) ∧
  ∀ k e, ArgFault s 3 k e → exec .read s = .next (s.afterFault e)

/-- R177, C10: PRTF with a format without `%` completes: the host gets the format and min(N - 1, 5) arguments, ax gets
the number of format bytes or a negative word. That these two are all is the model's reading (log 6); the recorded entry
is R37's in log 17's form, the host is log 4's, and that it answers is log 10's. -/
def Obligations.PrtfWithoutPercentCountsItsBytes : Prop :=
  (∃ mk, formatOf 33 = some (.f1 mk) ∧ ∀ v, mk v = .prtf v) ∧
  ∀ (n : Word) (s : State) (fmt : List Byte),
    s.StackSlot (s.prtfSlot n 0) → (∀ k, 1 ≤ k → k ≤ s.prtfCount n → s.StackSlot (s.prtfSlot n k)) →
    cStr s (s.word (s.prtfSlot n 0)) = .ok fmt → (0x25 : Byte) ∉ fmt →
    ∃ t e, exec (.prtf n) s = .next t ∧ AfterBridge s t 2 ∧
      (t.ax.toNat = fmt.length % 2 ^ s.cfg.xlen.bits ∨ s.cfg.xlen.sval t.ax < 0) ∧
      t.events = e :: s.events ∧ PrtfEvent s n fmt e ∧ e.hostRead = [] ∧ e.result = some t.ax

/-- R177, R178, R201, U8: PRTF with a `%` in its format completes with a free result, or the host's read of a string
argument faults, which only a forwarded word that is no readable string can cause; XVAL is then the first unreadable byte
of that string, as R201 has it, or the argument word, as R177 writes it, by the launch's parameter (log 7). Either way the call is recorded (R37, R206; log 17), the bytes the host read being readable bytes
of memory (R173). The host is log 4's, and that it answers is log 10's. -/
def Obligations.PrtfWithPercentIsTheHosts : Prop :=
  ∀ (n : Word) (s : State) (fmt : List Byte),
    s.StackSlot (s.prtfSlot n 0) → (∀ k, 1 ≤ k → k ≤ s.prtfCount n → s.StackSlot (s.prtfSlot n k)) →
    cStr s (s.word (s.prtfSlot n 0)) = .ok fmt → (0x25 : Byte) ∈ fmt →
    ∃ t e, exec (.prtf n) s = .next t ∧ t.events = e :: s.events ∧ PrtfEvent s n fmt e ∧
      (∀ c ∈ e.hostRead, s.Readable c.1 1 ∧ c.2 = s.byte c.1) ∧
      ((AfterBridge s t 2 ∧ e.result = some t.ax) ∨
        ∃ k b c, 1 ≤ k ∧ k ≤ s.prtfCount n ∧ cStr s (s.word (s.prtfSlot n k)) = .error (.outOfBounds b) ∧
          (s.Inv → s.BadString (s.word (s.prtfSlot n k)) b) ∧
          (s.cfg.stringFaultXval = .firstUnreadable → c = b) ∧
          (s.cfg.stringFaultXval = .argument → c = s.word (s.prtfSlot n k)) ∧
          t = { s.afterFault (.outOfBounds c) with events := t.events, answers := t.answers } ∧ e.result = none) ∧
      ((∀ k, 1 ≤ k → k ≤ s.prtfCount n → ∃ str, cStr s (s.word (s.prtfSlot n k)) = .ok str) → AfterBridge s t 2)

/-- R177: PRTF's faults in their order: the format slot, the forwarded argument slots upward, the format string. -/
def Obligations.PrtfFaultsInOrder : Prop :=
  ∀ (n : Word) (s : State) (e : Trap),
    (s.StackFault (s.prtfSlot n 0) e → exec (.prtf n) s = .next (s.afterFault e)) ∧
    (s.StackSlot (s.prtfSlot n 0) →
      ∀ k, 1 ≤ k → k ≤ s.prtfCount n → (∀ j, 1 ≤ j → j < k → s.StackSlot (s.prtfSlot n j)) →
        s.StackFault (s.prtfSlot n k) e → exec (.prtf n) s = .next (s.afterFault e)) ∧
    (s.StackSlot (s.prtfSlot n 0) → (∀ k, 1 ≤ k → k ≤ s.prtfCount n → s.StackSlot (s.prtfSlot n k)) →
      cStr s (s.word (s.prtfSlot n 0)) = .error e → exec (.prtf n) s = .next (s.afterFault e))

/-- R180: MALC answers 0 and changes no region, or the address of a fresh block that meets every constraint of the
rule; bytes outside the block keep their values; the call is recorded with its argument, nothing written (R37). That MALC
completes rests on log 10 (DESIGN CHOICE, unsafe: a host call that never answers is not represented); the record is in log
17's form, an answer R180 does not allow counts as 0 (log 5), an empty block shares no byte with anything (log 14), and
the host is log 4's. -/
def Obligations.MalcHandsOutAFreshBlock : Prop :=
  formatOf 34 = some (.f0 .malc) ∧
  ∀ s : State, (ArgsOk s 1 →
    ∃ t, exec .malc s = .next t ∧ AfterBridge s { t with mem := s.mem, blocks := s.blocks } 1 ∧
      t.events =
        { op := .malc, args := [argWord s 0], sent := []
          hostRead := [], result := some t.ax, written := [] } :: s.events ∧
      ((t.ax = 0 ∧ t.blocks = s.blocks ∧ t.mem = s.mem) ∨
        (t.ax ≠ 0 ∧ t.blocks = { base := t.ax.toNat, size := (argWord s 0).toNat } :: s.blocks ∧
          t.ax.toNat % s.cfg.xlen.bytes = 0 ∧ s.cfg.xlen.bytes ≤ t.ax.toNat ∧
          t.ax.toNat + (argWord s 0).toNat ≤ 2 ^ s.cfg.xlen.bits ∧
          (argWord s 0).toNat < 2 ^ (s.cfg.xlen.bits - 1) ∧
          (∀ a, t.ax.toNat ≤ a → a < t.ax.toNat + max (argWord s 0).toNat 1 → ¬ s.Readable a 1) ∧
          ∀ c, c < t.ax.toNat ∨ t.ax.toNat + (argWord s 0).toNat ≤ c → t.byte c = s.byte c))) ∧
  ∀ k e, ArgFault s 1 k e → exec .malc s = .next (s.afterFault e)

/-- R181, the argument slots' faults in their order first. -/
def Obligations.MsetFillsTheRange : Prop :=
  formatOf 35 = some (.f0 .mset) ∧
  ∀ s : State, (ArgsOk s 3 →
    (s.Writable (argWord s 2).toNat (argWord s 0).toNat →
      ∃ t, exec .mset s = .next t ∧ AfterBridge s { t with mem := s.mem } 1 ∧ t.ax = argWord s 2 ∧
        (∀ k < (argWord s 0).toNat, t.byte ((argWord s 2).toNat + k) = (argWord s 1).extractLsb' 0 8) ∧
        ∀ c, c < (argWord s 2).toNat ∨ (argWord s 2).toNat + (argWord s 0).toNat ≤ c → t.byte c = s.byte c) ∧
    (¬ s.Writable (argWord s 2).toNat (argWord s 0).toNat →
      exec .mset s = .next (s.afterFault (.outOfBounds (argWord s 2))))) ∧
  ∀ k e, ArgFault s 3 k e → exec .mset s = .next (s.afterFault e)

/-- R182: MCMP's result is zero exactly where the ranges agree, else it has the sign of the first differing pair,
compared as unsigned bytes; the argument slots are checked in their order, then range A, then range B. -/
def Obligations.McmpComparesUnsignedBytes : Prop :=
  formatOf 36 = some (.f0 .mcmp) ∧
  ∀ s : State, (ArgsOk s 3 →
    (s.Readable (argWord s 2).toNat (argWord s 0).toNat → s.Readable (argWord s 1).toNat (argWord s 0).toNat →
      ∃ t, exec .mcmp s = .next t ∧ AfterBridge s t 1 ∧
        ((∀ k < (argWord s 0).toNat, s.byte ((argWord s 2).toNat + k) = s.byte ((argWord s 1).toNat + k)) → t.ax = 0) ∧
        ∀ k < (argWord s 0).toNat,
          (∀ j < k, s.byte ((argWord s 2).toNat + j) = s.byte ((argWord s 1).toNat + j)) →
          ((s.byte ((argWord s 2).toNat + k)).toNat < (s.byte ((argWord s 1).toNat + k)).toNat →
            s.cfg.xlen.sval t.ax < 0) ∧
          ((s.byte ((argWord s 1).toNat + k)).toNat < (s.byte ((argWord s 2).toNat + k)).toNat →
            0 < s.cfg.xlen.sval t.ax)) ∧
    (¬ s.Readable (argWord s 2).toNat (argWord s 0).toNat →
      exec .mcmp s = .next (s.afterFault (.outOfBounds (argWord s 2)))) ∧
    (s.Readable (argWord s 2).toNat (argWord s 0).toNat → ¬ s.Readable (argWord s 1).toNat (argWord s 0).toNat →
      exec .mcmp s = .next (s.afterFault (.outOfBounds (argWord s 1))))) ∧
  ∀ k e, ArgFault s 3 k e → exec .mcmp s = .next (s.afterFault e)

/-- R37, R173: MSET and MCMP that complete are recorded with their arguments and ax as the result, nothing sent, read or
written by the host, which they do not call but for the magnitude of MCMP's result where the ranges differ. That they are
recorded at all, and the form of the entry, are log 17's (DESIGN CHOICE). -/
def Obligations.MsetAndMcmpAreRecorded : Prop :=
  ∀ s : State, ArgsOk s 3 →
    (s.Writable (argWord s 2).toNat (argWord s 0).toNat →
      ∃ t, exec .mset s = .next t ∧ t.answers = s.answers ∧
        t.events =
          { op := .mset, args := [argWord s 0, argWord s 1, argWord s 2], sent := []
            hostRead := [], result := some t.ax, written := [] } :: s.events) ∧
    (s.Readable (argWord s 2).toNat (argWord s 0).toNat → s.Readable (argWord s 1).toNat (argWord s 0).toNat →
      ∃ t, exec .mcmp s = .next t ∧ t.answers = (if t.ax = 0 then s.answers else s.answers.tail) ∧
        t.events =
          { op := .mcmp, args := [argWord s 0, argWord s 1, argWord s 2], sent := []
            hostRead := [], result := some t.ax, written := [] } :: s.events)

/-- R172, U2, U3, U6: the host's answers are free: any answer the rule's constraints allow is the one the instruction
takes when it comes next (`answers` is the model's own field, log 4; the shape of an answer is log 5's). -/
def Obligations.EveryAdmittedHostAnswerCanOccur : Prop :=
  ∀ (s : State) (a : HostAnswer) (rest : List HostAnswer), s.answers = a :: rest → s.cfg.xlen.Fits a.result →
    (ArgsOk s 1 → ∃ t, exec .clos s = .next t ∧ t.ax = a.result ∧ t.answers = rest) ∧
    (ArgsOk s 2 → ∀ str, cStr s (argWord s 1) = .ok str →
      ∃ t, exec .opn s = .next t ∧ t.ax = a.result ∧ t.answers = rest) ∧
    (ArgsOk s 3 → s.Writable (argWord s 1).toNat (argWord s 0).toNat →
      ∃ t, exec .read s = .next t ∧ t.answers = rest ∧
        (s.cfg.xlen.sval a.result < 0 → t.ax = a.result) ∧
        (s.cfg.xlen.sval a.result = a.bytes.length → a.bytes.length ≤ (argWord s 0).toNat →
          t.ax = a.result ∧ ∀ k (h : k < a.bytes.length), t.byte ((argWord s 1).toNat + k) = a.bytes[k])) ∧
    (ArgsOk s 1 → ∃ t, exec .malc s = .next t ∧ t.answers = rest ∧
      (a.result = 0 ∨ (a.result.toNat % s.cfg.xlen.bytes = 0 ∧ s.cfg.xlen.bytes ≤ a.result.toNat ∧
          a.result.toNat + (argWord s 0).toNat ≤ 2 ^ s.cfg.xlen.bits ∧
          (argWord s 0).toNat < 2 ^ (s.cfg.xlen.bits - 1) ∧
          ∀ c, a.result.toNat ≤ c → c < a.result.toNat + max (argWord s 0).toNat 1 → ¬ s.Readable c 1) →
        t.ax = a.result ∧
          (a.result ≠ 0 → ∀ k (h : k < a.bytes.length), k < (argWord s 0).toNat →
            t.byte (a.result.toNat + k) = a.bytes[k])))

/-- R172, U7, U8, U9: the same for PRTF, without and with a `%`, and for MCMP's magnitude. With a `%` the bytes the host
reads are the answer's (any readable ones), and an answer that names a forwarded argument which is no readable string is
the fault of reading that string, at the address the launch's parameter says (R177, R201, U8; logs 4, 6, 7, 17). -/
def Obligations.EveryAdmittedResultOfPrtfAndMcmpCanOccur : Prop :=
  ∀ (s : State) (a : HostAnswer) (rest : List HostAnswer), s.answers = a :: rest → s.cfg.xlen.Fits a.result →
    (∀ (n : Word) (fmt : List Byte),
      s.StackSlot (s.prtfSlot n 0) → (∀ k, 1 ≤ k → k ≤ s.prtfCount n → s.StackSlot (s.prtfSlot n k)) →
      cStr s (s.word (s.prtfSlot n 0)) = .ok fmt →
      (a.stringFault = none →
        ((0x25 : Byte) ∈ fmt ∨ s.cfg.xlen.sval a.result < 0 ∨ a.result.toNat = fmt.length) →
        ∃ t e, exec (.prtf n) s = .next t ∧ t.ax = a.result ∧ t.answers = rest ∧ t.events = e :: s.events ∧
          ((0x25 : Byte) ∈ fmt → (∀ w ∈ a.reads, s.Readable w.toNat 1) →
            e.hostRead = a.reads.map fun w => (w.toNat, s.byte w.toNat))) ∧
      ((0x25 : Byte) ∈ fmt → ∀ k b, a.stringFault = some k → k < s.prtfCount n →
        cStr s (s.word (s.prtfSlot n (k + 1))) = .error (.outOfBounds b) →
        ∃ t c, exec (.prtf n) s = .next t ∧
          t = { s.afterFault (.outOfBounds c) with events := t.events, answers := rest } ∧
          (s.cfg.stringFaultXval = .firstUnreadable → c = b) ∧
          (s.cfg.stringFaultXval = .argument → c = s.word (s.prtfSlot n (k + 1))))) ∧
    (ArgsOk s 3 → s.Readable (argWord s 2).toNat (argWord s 0).toNat →
      s.Readable (argWord s 1).toNat (argWord s 0).toNat →
      ∀ k < (argWord s 0).toNat,
        (∀ j < k, s.byte ((argWord s 2).toNat + j) = s.byte ((argWord s 1).toNat + j)) →
        ((s.byte ((argWord s 2).toNat + k)).toNat < (s.byte ((argWord s 1).toNat + k)).toNat ∧
            s.cfg.xlen.sval a.result < 0 ∨
          (s.byte ((argWord s 1).toNat + k)).toNat < (s.byte ((argWord s 2).toNat + k)).toNat ∧
            0 < s.cfg.xlen.sval a.result) →
        ∃ t, exec .mcmp s = .next t ∧ t.ax = a.result ∧ t.answers = rest)
end

