-- ==== Sys2Proof/Laws/Memory.lean ====
section
/-! SUPPORT. Memory: what a read sees after a write, and that a write keeps the canonical form. -/

namespace Sys2Proof.Machine

/-! ## Cells of consecutive bytes -/

theorem Memory.mem_cells {a : Nat} {bs : List Byte} {c : Host.Cell} (h : c ∈ Memory.cells a bs) :
    a ≤ c.1 ∧ c.1 < a + bs.length ∧ c.2 ≠ Memory.unlisted := by
  induction bs generalizing a with
  | nil => simp [Memory.cells] at h
  | cons b bs ih =>
    simp only [Memory.cells] at h
    split at h
    · have := ih h; exact ⟨by omega, by simp only [List.length_cons]; omega, this.2.2⟩
    · rcases List.mem_cons.1 h with rfl | h
      · simp_all
      · have := ih h; exact ⟨by omega, by simp only [List.length_cons]; omega, this.2.2⟩

theorem Memory.pairwise_cells (a : Nat) (bs : List Byte) :
    (Memory.cells a bs).Pairwise (fun c d => c.1 < d.1) := by
  induction bs generalizing a with
  | nil => simp [Memory.cells]
  | cons b bs ih =>
    simp only [Memory.cells]
    split
    · exact ih _
    · exact List.pairwise_cons.2 ⟨fun c hc => (Memory.mem_cells hc).1, ih _⟩

theorem Memory.read_cells (a : Nat) (bs : List Byte) (k : Nat) (h : k < bs.length) :
    Memory.read (Memory.cells a bs) (a + k) = bs[k] := by
  induction bs generalizing a k with
  | nil => simp at h
  | cons b bs ih =>
    have tail : ∀ j (hj : j < bs.length), Memory.read (Memory.cells (a + 1) bs) (a + (j + 1)) = bs[j] := fun j hj => by
      rw [show a + (j + 1) = a + 1 + j by omega]; exact ih _ _ hj
    have absent : Memory.read (Memory.cells (a + 1) bs) a = Memory.unlisted := by
      generalize hm : Memory.cells (a + 1) bs = m
      have : ∀ c ∈ m, c.1 ≠ a := fun c hc => by subst hm; have := (Memory.mem_cells hc).1; omega
      clear hm tail ih
      induction m with
      | nil => rfl
      | cons c m ih => simp only [Memory.read]; rw [if_neg (this c (by simp))]; exact ih fun d hd => this d (by simp [hd])
    simp only [Memory.cells]
    cases k with
    | zero =>
      split
      · simp_all
      · simp [Memory.read]
    | succ k =>
      have hk : k < bs.length := by simpa using h
      split
      · simpa using tail k hk
      · simp only [Memory.read]; rw [if_neg (by omega)]; simpa using tail k hk

/-! ## Reads -/

/-- An address no cell lists reads as unlisted. -/
theorem Memory.read_of_absent {m : Memory} {a : Nat} (h : ∀ c ∈ m, c.1 ≠ a) : m.read a = Memory.unlisted := by
  induction m with
  | nil => rfl
  | cons c m ih => simp only [Memory.read]; rw [if_neg (h c (by simp))]; exact ih fun d hd => h d (by simp [hd])

/-- A byte that does not read as unlisted is listed. -/
theorem Memory.listed_of_read {m : Memory} {a : Nat} (h : m.read a ≠ Memory.unlisted) : ∃ c ∈ m, c.1 = a := by
  by_contra hc
  exact h (Memory.read_of_absent fun c hm he => hc ⟨c, hm, he⟩)

theorem Memory.read_append_left {m n : Memory} {a : Nat} (h : ∀ c ∈ m, c.1 ≠ a) :
    Memory.read (m ++ n) a = Memory.read n a := by
  induction m with
  | nil => rfl
  | cons c m ih =>
    simp only [List.cons_append, Memory.read]; rw [if_neg (h c (by simp))]; exact ih fun d hd => h d (by simp [hd])

theorem Memory.read_append_right {m n : Memory} {a : Nat} (h : ∀ c ∈ n, c.1 ≠ a) :
    Memory.read (m ++ n) a = Memory.read m a := by
  induction m with
  | nil => exact Memory.read_of_absent h
  | cons c m ih => simp only [List.cons_append, Memory.read, ih]

theorem Memory.read_filter {m : Memory} {p : Host.Cell → Bool} {a : Nat} (h : ∀ b, p (a, b) = true) :
    Memory.read (m.filter p) a = m.read a := by
  induction m with
  | nil => rfl
  | cons c m ih =>
    obtain ⟨k, b⟩ := c
    by_cases hk : k = a
    · subst hk; simp [h b, Memory.read]
    · by_cases hp : p (k, b) = true
      · simp [hp, Memory.read, hk, ih]
      · simp [hp, Memory.read, hk, ih]

/-! ## Writes -/

@[simp] theorem Memory.writeBytes_nil (m : Memory) (a : Nat) : m.writeBytes a [] = m := by simp [Memory.writeBytes]

theorem Memory.writeBytes_of_ne (m : Memory) (a : Nat) {bs : List Byte} (h : bs ≠ []) :
    m.writeBytes a bs = m.filter (fun c => decide (c.1 < a)) ++ Memory.cells a bs ++
      m.filter (fun c => decide (a + bs.length ≤ c.1)) := by
  rw [Memory.writeBytes, if_neg h]

/-- A byte inside the written range. -/
theorem Memory.read_writeBytes_inside (m : Memory) (a : Nat) (bs : List Byte) (k : Nat) (h : k < bs.length) :
    (m.writeBytes a bs).read (a + k) = bs[k] := by
  rw [Memory.writeBytes_of_ne m a (by rintro rfl; simp at h), Memory.read_append_right, Memory.read_append_left,
    Memory.read_cells a bs k h]
  · intro c hc; simp at hc; omega
  · intro c hc; simp at hc; omega

/-- A byte outside the written range. -/
theorem Memory.read_writeBytes_outside (m : Memory) (a : Nat) (bs : List Byte) (c : Nat)
    (h : c < a ∨ a + bs.length ≤ c) : (m.writeBytes a bs).read c = m.read c := by
  have hcells : ∀ d ∈ Memory.cells a bs, d.1 ≠ c := fun d hd => by have := Memory.mem_cells hd; omega
  by_cases hbs : bs = []
  · simp [hbs]
  rw [Memory.writeBytes_of_ne m a hbs]
  rcases h with h | h
  · rw [Memory.read_append_right, Memory.read_append_right hcells, Memory.read_filter]
    · simpa using h
    · intro d hd; simp at hd; omega
  · rw [Memory.read_append_left, Memory.read_filter]
    · simpa using h
    · intro d hd
      rcases List.mem_append.1 hd with hd | hd
      · simp at hd; omega
      · exact hcells d hd

/-- Every read after a write. -/
theorem Memory.read_writeBytes (m : Memory) (a : Nat) (bs : List Byte) (c : Nat) :
    (m.writeBytes a bs).read c = if h : a ≤ c ∧ c < a + bs.length then bs[c - a] else m.read c := by
  split
  · next h =>
    have := Memory.read_writeBytes_inside m a bs (c - a) (by omega)
    rwa [show a + (c - a) = c by omega] at this
  · next h => exact Memory.read_writeBytes_outside m a bs c (by omega)

/-- A cell after a write is an old cell outside the range or lies inside it. -/
theorem Memory.mem_writeBytes {m : Memory} {a : Nat} {bs : List Byte} {c : Host.Cell} (h : c ∈ m.writeBytes a bs) :
    c ∈ m ∨ (a ≤ c.1 ∧ c.1 < a + bs.length ∧ c.2 ≠ Memory.unlisted) := by
  by_cases hbs : bs = []
  · simp only [hbs, Memory.writeBytes_nil] at h; exact .inl h
  rw [Memory.writeBytes_of_ne m a hbs] at h
  rcases List.mem_append.1 h with h | h
  · rcases List.mem_append.1 h with h | h
    · exact .inl (List.mem_filter.1 h).1
    · exact .inr (Memory.mem_cells h)
  · exact .inl (List.mem_filter.1 h).1

/-- Every memory operation that writes keeps the canonical form. -/
theorem Memory.wf_writeBytes {m : Memory} (a : Nat) (bs : List Byte) (h : m.wf) : (m.writeBytes a bs).wf := by
  by_cases hbs : bs = []
  · simpa [hbs] using h
  obtain ⟨hs, hz⟩ := h
  refine ⟨?_, fun c hc => (Memory.mem_writeBytes hc).elim (hz c) fun h => h.2.2⟩
  rw [Memory.writeBytes_of_ne m a hbs]
  refine List.pairwise_append.2 ⟨List.pairwise_append.2 ⟨hs.filter _, Memory.pairwise_cells _ _, ?_⟩, hs.filter _, ?_⟩
  · intro c hc d hd
    have := Memory.mem_cells hd
    simp at hc; omega
  · intro c hc d hd
    simp only [List.mem_filter, decide_eq_true_eq] at hd
    rcases List.mem_append.1 hc with hc | hc
    · simp at hc; omega
    · have := Memory.mem_cells hc; omega

theorem Memory.wf_nil : Memory.wf [] := ⟨List.Pairwise.nil, by simp⟩

@[simp] theorem Memory.length_readBytes (m : Memory) (a n : Nat) : (m.readBytes a n).length = n := by
  simp [Memory.readBytes]

@[simp] theorem Memory.getElem_readBytes (m : Memory) (a n k : Nat) (h : k < (m.readBytes a n).length) :
    (m.readBytes a n)[k] = m.read (a + k) := by
  simp [Memory.readBytes]

/-- A range read right after it was written. -/
theorem Memory.readBytes_writeBytes (m : Memory) (a : Nat) (bs : List Byte) :
    (m.writeBytes a bs).readBytes a bs.length = bs := by
  apply List.ext_getElem (by simp)
  intro k h₁ h₂
  rw [Memory.getElem_readBytes, Memory.read_writeBytes_inside m a bs k h₂]

/-- A range read after a write that does not touch it. -/
theorem Memory.readBytes_writeBytes_outside (m : Memory) (a : Nat) (bs : List Byte) (c n : Nat)
    (h : c + n ≤ a ∨ a + bs.length ≤ c) : (m.writeBytes a bs).readBytes c n = m.readBytes c n := by
  apply List.ext_getElem (by simp)
  intro k h₁ h₂
  simp only [Memory.length_readBytes] at h₁
  rw [Memory.getElem_readBytes, Memory.getElem_readBytes, Memory.read_writeBytes_outside]
  omega

/-- The memory of a launch is in canonical form, that of reset too. -/
theorem State.wf_launch (l : Launch) : (State.launch l).mem.wf :=
  Memory.wf_writeBytes _ _ (Memory.wf_writeBytes _ _ Memory.wf_nil)

theorem State.wf_reset : State.reset.mem.wf := State.wf_launch _

end Sys2Proof.Machine
end

