-- ==== Sys2Proof/Laws/State.lean ====
section
/-! SUPPORT. Every field after every update of State. -/

namespace Sys2Proof.Machine

variable (s : State)

@[simp] theorem State.setPc_cfg (v : Word) : (s.setPc v).cfg = s.cfg := rfl
@[simp] theorem State.setPc_pc (v : Word) : (s.setPc v).pc = v := rfl
@[simp] theorem State.setPc_sp (v : Word) : (s.setPc v).sp = s.sp := rfl
@[simp] theorem State.setPc_bp (v : Word) : (s.setPc v).bp = s.bp := rfl
@[simp] theorem State.setPc_ax (v : Word) : (s.setPc v).ax = s.ax := rfl
@[simp] theorem State.setPc_runstate (v : Word) : (s.setPc v).runstate = s.runstate := rfl
@[simp] theorem State.setPc_cause (v : Word) : (s.setPc v).cause = s.cause := rfl
@[simp] theorem State.setPc_xval (v : Word) : (s.setPc v).xval = s.xval := rfl
@[simp] theorem State.setPc_mem (v : Word) : (s.setPc v).mem = s.mem := rfl
@[simp] theorem State.setPc_blocks (v : Word) : (s.setPc v).blocks = s.blocks := rfl
@[simp] theorem State.setPc_events (v : Word) : (s.setPc v).events = s.events := rfl
@[simp] theorem State.setPc_answers (v : Word) : (s.setPc v).answers = s.answers := rfl
@[simp] theorem State.setPc_xlen (v : Word) : (s.setPc v).xlen = s.xlen := rfl

@[simp] theorem State.setSp_cfg (v : Word) : (s.setSp v).cfg = s.cfg := rfl
@[simp] theorem State.setSp_pc (v : Word) : (s.setSp v).pc = s.pc := rfl
@[simp] theorem State.setSp_sp (v : Word) : (s.setSp v).sp = v := rfl
@[simp] theorem State.setSp_bp (v : Word) : (s.setSp v).bp = s.bp := rfl
@[simp] theorem State.setSp_ax (v : Word) : (s.setSp v).ax = s.ax := rfl
@[simp] theorem State.setSp_runstate (v : Word) : (s.setSp v).runstate = s.runstate := rfl
@[simp] theorem State.setSp_cause (v : Word) : (s.setSp v).cause = s.cause := rfl
@[simp] theorem State.setSp_xval (v : Word) : (s.setSp v).xval = s.xval := rfl
@[simp] theorem State.setSp_mem (v : Word) : (s.setSp v).mem = s.mem := rfl
@[simp] theorem State.setSp_blocks (v : Word) : (s.setSp v).blocks = s.blocks := rfl
@[simp] theorem State.setSp_events (v : Word) : (s.setSp v).events = s.events := rfl
@[simp] theorem State.setSp_answers (v : Word) : (s.setSp v).answers = s.answers := rfl
@[simp] theorem State.setSp_xlen (v : Word) : (s.setSp v).xlen = s.xlen := rfl

@[simp] theorem State.setBp_cfg (v : Word) : (s.setBp v).cfg = s.cfg := rfl
@[simp] theorem State.setBp_pc (v : Word) : (s.setBp v).pc = s.pc := rfl
@[simp] theorem State.setBp_sp (v : Word) : (s.setBp v).sp = s.sp := rfl
@[simp] theorem State.setBp_bp (v : Word) : (s.setBp v).bp = v := rfl
@[simp] theorem State.setBp_ax (v : Word) : (s.setBp v).ax = s.ax := rfl
@[simp] theorem State.setBp_runstate (v : Word) : (s.setBp v).runstate = s.runstate := rfl
@[simp] theorem State.setBp_cause (v : Word) : (s.setBp v).cause = s.cause := rfl
@[simp] theorem State.setBp_xval (v : Word) : (s.setBp v).xval = s.xval := rfl
@[simp] theorem State.setBp_mem (v : Word) : (s.setBp v).mem = s.mem := rfl
@[simp] theorem State.setBp_blocks (v : Word) : (s.setBp v).blocks = s.blocks := rfl
@[simp] theorem State.setBp_events (v : Word) : (s.setBp v).events = s.events := rfl
@[simp] theorem State.setBp_answers (v : Word) : (s.setBp v).answers = s.answers := rfl
@[simp] theorem State.setBp_xlen (v : Word) : (s.setBp v).xlen = s.xlen := rfl

@[simp] theorem State.setAx_cfg (v : Word) : (s.setAx v).cfg = s.cfg := rfl
@[simp] theorem State.setAx_pc (v : Word) : (s.setAx v).pc = s.pc := rfl
@[simp] theorem State.setAx_sp (v : Word) : (s.setAx v).sp = s.sp := rfl
@[simp] theorem State.setAx_bp (v : Word) : (s.setAx v).bp = s.bp := rfl
@[simp] theorem State.setAx_ax (v : Word) : (s.setAx v).ax = v := rfl
@[simp] theorem State.setAx_runstate (v : Word) : (s.setAx v).runstate = s.runstate := rfl
@[simp] theorem State.setAx_cause (v : Word) : (s.setAx v).cause = s.cause := rfl
@[simp] theorem State.setAx_xval (v : Word) : (s.setAx v).xval = s.xval := rfl
@[simp] theorem State.setAx_mem (v : Word) : (s.setAx v).mem = s.mem := rfl
@[simp] theorem State.setAx_blocks (v : Word) : (s.setAx v).blocks = s.blocks := rfl
@[simp] theorem State.setAx_events (v : Word) : (s.setAx v).events = s.events := rfl
@[simp] theorem State.setAx_answers (v : Word) : (s.setAx v).answers = s.answers := rfl
@[simp] theorem State.setAx_xlen (v : Word) : (s.setAx v).xlen = s.xlen := rfl

@[simp] theorem State.setMem_cfg (m : Memory) : (s.setMem m).cfg = s.cfg := rfl
@[simp] theorem State.setMem_pc (m : Memory) : (s.setMem m).pc = s.pc := rfl
@[simp] theorem State.setMem_sp (m : Memory) : (s.setMem m).sp = s.sp := rfl
@[simp] theorem State.setMem_bp (m : Memory) : (s.setMem m).bp = s.bp := rfl
@[simp] theorem State.setMem_ax (m : Memory) : (s.setMem m).ax = s.ax := rfl
@[simp] theorem State.setMem_runstate (m : Memory) : (s.setMem m).runstate = s.runstate := rfl
@[simp] theorem State.setMem_cause (m : Memory) : (s.setMem m).cause = s.cause := rfl
@[simp] theorem State.setMem_xval (m : Memory) : (s.setMem m).xval = s.xval := rfl
@[simp] theorem State.setMem_mem (m : Memory) : (s.setMem m).mem = m := rfl
@[simp] theorem State.setMem_blocks (m : Memory) : (s.setMem m).blocks = s.blocks := rfl
@[simp] theorem State.setMem_events (m : Memory) : (s.setMem m).events = s.events := rfl
@[simp] theorem State.setMem_answers (m : Memory) : (s.setMem m).answers = s.answers := rfl
@[simp] theorem State.setMem_xlen (m : Memory) : (s.setMem m).xlen = s.xlen := rfl

@[simp] theorem State.setBlocks_cfg (bs : List HostBlock) : (s.setBlocks bs).cfg = s.cfg := rfl
@[simp] theorem State.setBlocks_pc (bs : List HostBlock) : (s.setBlocks bs).pc = s.pc := rfl
@[simp] theorem State.setBlocks_sp (bs : List HostBlock) : (s.setBlocks bs).sp = s.sp := rfl
@[simp] theorem State.setBlocks_bp (bs : List HostBlock) : (s.setBlocks bs).bp = s.bp := rfl
@[simp] theorem State.setBlocks_ax (bs : List HostBlock) : (s.setBlocks bs).ax = s.ax := rfl
@[simp] theorem State.setBlocks_runstate (bs : List HostBlock) : (s.setBlocks bs).runstate = s.runstate := rfl
@[simp] theorem State.setBlocks_cause (bs : List HostBlock) : (s.setBlocks bs).cause = s.cause := rfl
@[simp] theorem State.setBlocks_xval (bs : List HostBlock) : (s.setBlocks bs).xval = s.xval := rfl
@[simp] theorem State.setBlocks_mem (bs : List HostBlock) : (s.setBlocks bs).mem = s.mem := rfl
@[simp] theorem State.setBlocks_blocks (bs : List HostBlock) : (s.setBlocks bs).blocks = bs := rfl
@[simp] theorem State.setBlocks_events (bs : List HostBlock) : (s.setBlocks bs).events = s.events := rfl
@[simp] theorem State.setBlocks_answers (bs : List HostBlock) : (s.setBlocks bs).answers = s.answers := rfl
@[simp] theorem State.setBlocks_xlen (bs : List HostBlock) : (s.setBlocks bs).xlen = s.xlen := rfl

@[simp] theorem State.setStatus_cfg (r : BitVec 2) (c : BitVec 3) (v : Word) : (s.setStatus r c v).cfg = s.cfg := rfl
@[simp] theorem State.setStatus_pc (r : BitVec 2) (c : BitVec 3) (v : Word) : (s.setStatus r c v).pc = s.pc := rfl
@[simp] theorem State.setStatus_sp (r : BitVec 2) (c : BitVec 3) (v : Word) : (s.setStatus r c v).sp = s.sp := rfl
@[simp] theorem State.setStatus_bp (r : BitVec 2) (c : BitVec 3) (v : Word) : (s.setStatus r c v).bp = s.bp := rfl
@[simp] theorem State.setStatus_ax (r : BitVec 2) (c : BitVec 3) (v : Word) : (s.setStatus r c v).ax = s.ax := rfl
@[simp] theorem State.setStatus_runstate (r : BitVec 2) (c : BitVec 3) (v : Word) : (s.setStatus r c v).runstate = r := rfl
@[simp] theorem State.setStatus_cause (r : BitVec 2) (c : BitVec 3) (v : Word) : (s.setStatus r c v).cause = c := rfl
@[simp] theorem State.setStatus_xval (r : BitVec 2) (c : BitVec 3) (v : Word) : (s.setStatus r c v).xval = v := rfl
@[simp] theorem State.setStatus_mem (r : BitVec 2) (c : BitVec 3) (v : Word) : (s.setStatus r c v).mem = s.mem := rfl
@[simp] theorem State.setStatus_blocks (r : BitVec 2) (c : BitVec 3) (v : Word) : (s.setStatus r c v).blocks = s.blocks := rfl
@[simp] theorem State.setStatus_events (r : BitVec 2) (c : BitVec 3) (v : Word) : (s.setStatus r c v).events = s.events := rfl
@[simp] theorem State.setStatus_answers (r : BitVec 2) (c : BitVec 3) (v : Word) : (s.setStatus r c v).answers = s.answers := rfl
@[simp] theorem State.setStatus_xlen (r : BitVec 2) (c : BitVec 3) (v : Word) : (s.setStatus r c v).xlen = s.xlen := rfl

@[simp] theorem State.setHost_cfg (es : List HostEvent) (as : List HostAnswer) : (s.setHost es as).cfg = s.cfg := rfl
@[simp] theorem State.setHost_pc (es : List HostEvent) (as : List HostAnswer) : (s.setHost es as).pc = s.pc := rfl
@[simp] theorem State.setHost_sp (es : List HostEvent) (as : List HostAnswer) : (s.setHost es as).sp = s.sp := rfl
@[simp] theorem State.setHost_bp (es : List HostEvent) (as : List HostAnswer) : (s.setHost es as).bp = s.bp := rfl
@[simp] theorem State.setHost_ax (es : List HostEvent) (as : List HostAnswer) : (s.setHost es as).ax = s.ax := rfl
@[simp] theorem State.setHost_runstate (es : List HostEvent) (as : List HostAnswer) : (s.setHost es as).runstate = s.runstate := rfl
@[simp] theorem State.setHost_cause (es : List HostEvent) (as : List HostAnswer) : (s.setHost es as).cause = s.cause := rfl
@[simp] theorem State.setHost_xval (es : List HostEvent) (as : List HostAnswer) : (s.setHost es as).xval = s.xval := rfl
@[simp] theorem State.setHost_mem (es : List HostEvent) (as : List HostAnswer) : (s.setHost es as).mem = s.mem := rfl
@[simp] theorem State.setHost_blocks (es : List HostEvent) (as : List HostAnswer) : (s.setHost es as).blocks = s.blocks := rfl
@[simp] theorem State.setHost_events (es : List HostEvent) (as : List HostAnswer) : (s.setHost es as).events = es := rfl
@[simp] theorem State.setHost_answers (es : List HostEvent) (as : List HostAnswer) : (s.setHost es as).answers = as := rfl
@[simp] theorem State.setHost_xlen (es : List HostEvent) (as : List HostAnswer) : (s.setHost es as).xlen = s.xlen := rfl

end Sys2Proof.Machine
end

