-- ==== Sys2Proof/Laws/Words.lean ====
section
/-! SUPPORT. Words of XLEN bits, their arithmetic and their bytes. -/

namespace Sys2Proof

theorem Xlen.bits_le (x : Xlen) : x.bits ≤ 64 := by cases x <;> decide

theorem Xlen.bits_pos (x : Xlen) : 0 < x.bits := by cases x <;> decide

theorem Xlen.bits_eq (x : Xlen) : x.bits = 8 * x.bytes := by cases x <;> rfl

theorem Xlen.bytes_pos (x : Xlen) : 0 < x.bytes := by cases x <;> decide

theorem Xlen.pow_bits (x : Xlen) : 2 ^ x.bits = 256 ^ x.bytes := by cases x <;> rfl

theorem Xlen.pow_bits_le (x : Xlen) : 2 ^ x.bits ≤ 2 ^ 64 := Nat.pow_le_pow_right (by decide) x.bits_le

theorem Xlen.bytes_lt (x : Xlen) : x.bytes < 2 ^ x.bits := by cases x <;> decide

/-! ## Vectors of XLEN bits as words -/

@[simp] theorem Xlen.toNat_get (x : Xlen) (w : Word) : (x.get w).toNat = w.toNat % 2 ^ x.bits := by
  simp [Xlen.get]

@[simp] theorem Xlen.toNat_put (x : Xlen) (v : BitVec x.bits) : (x.put v).toNat = v.toNat := by
  have := v.isLt
  have := x.pow_bits_le
  simp only [Xlen.put, BitVec.toNat_setWidth]
  omega

@[simp] theorem Xlen.get_put (x : Xlen) (v : BitVec x.bits) : x.get (x.put v) = v := by
  apply BitVec.eq_of_toNat_eq
  simp [Nat.mod_eq_of_lt v.isLt]

theorem Xlen.put_get (x : Xlen) {w : Word} (h : x.Fits w) : x.put (x.get w) = w := by
  apply BitVec.eq_of_toNat_eq
  simp [Nat.mod_eq_of_lt h]

theorem Xlen.fits_put (x : Xlen) (v : BitVec x.bits) : x.Fits (x.put v) := by
  simp [Xlen.Fits, v.isLt]

theorem Xlen.fits_zero (x : Xlen) : x.Fits 0 := by cases x <;> decide

theorem Xlen.fits_one (x : Xlen) : x.Fits 1 := by cases x <;> decide

theorem Xlen.fits_word (x : Xlen) (n : Nat) : x.Fits (x.word n) := x.fits_put _

theorem Xlen.fits_wordInt (x : Xlen) (i : Int) : x.Fits (x.wordInt i) := x.fits_put _

theorem Xlen.fits_narrow (x : Xlen) (w : Word) : x.Fits (x.narrow w) := x.fits_put _

theorem Xlen.fits_add (x : Xlen) (a b : Word) : x.Fits (x.add a b) := x.fits_put _

theorem Xlen.fits_sub (x : Xlen) (a b : Word) : x.Fits (x.sub a b) := x.fits_put _

theorem Xlen.fits_mul (x : Xlen) (a b : Word) : x.Fits (x.mul a b) := x.fits_put _

/-! ## Arithmetic modulo 2^XLEN -/

@[simp] theorem Xlen.toNat_word (x : Xlen) (n : Nat) : (x.word n).toNat = n % 2 ^ x.bits := by simp [Xlen.word]

theorem Xlen.toNat_word_of_lt (x : Xlen) {n : Nat} (h : n < 2 ^ x.bits) : (x.word n).toNat = n := by
  simp [Nat.mod_eq_of_lt h]

@[simp] theorem Xlen.toNat_narrow (x : Xlen) (w : Word) : (x.narrow w).toNat = w.toNat % 2 ^ x.bits := by
  simp [Xlen.narrow]

theorem Xlen.narrow_of_fits (x : Xlen) {w : Word} (h : x.Fits w) : x.narrow w = w := x.put_get h

@[simp] theorem Xlen.toNat_add (x : Xlen) (a b : Word) : (x.add a b).toNat = (a.toNat + b.toNat) % 2 ^ x.bits := by
  simp [Xlen.add]

@[simp] theorem Xlen.toNat_mul (x : Xlen) (a b : Word) : (x.mul a b).toNat = (a.toNat * b.toNat) % 2 ^ x.bits := by
  simp [Xlen.mul, Nat.mul_mod]

theorem Xlen.toNat_sub (x : Xlen) (a b : Word) :
    ((x.sub a b).toNat : Int) = ((a.toNat : Int) - b.toNat) % (2 ^ x.bits : Nat) := by
  have hb : b.toNat % 2 ^ x.bits < 2 ^ x.bits := Nat.mod_lt _ (Nat.two_pow_pos _)
  simp only [Xlen.sub, Xlen.toNat_put, BitVec.toNat_sub, Xlen.toNat_get, Int.natCast_emod, Nat.cast_add,
    Nat.cast_sub hb.le]
  have e : ∀ m p q : Int, (m - q % m + p % m) % m = (p - q) % m := fun m p q => by
    rw [Int.add_emod, Int.emod_emod_of_dvd p (dvd_refl m), ← Int.add_emod,
      show m - q % m + p = (p - q % m) + m by ring, Int.add_emod_right, Int.sub_emod, Int.emod_emod_of_dvd _ (dvd_refl m),
      ← Int.sub_emod]
  exact e _ _ _

/-! ## Signed values -/

/-- s(v) of a word of XLEN bits, in terms of u(v). -/
theorem Xlen.sval_eq (x : Xlen) {w : Word} (h : x.Fits w) :
    x.sval w = if 2 * w.toNat < 2 ^ x.bits then (w.toNat : Int) else (w.toNat : Int) - (2 ^ x.bits : Nat) := by
  rw [Xlen.sval, BitVec.toInt_eq_toNat_cond, x.toNat_get, Nat.mod_eq_of_lt h]

@[simp] theorem Xlen.sval_put (x : Xlen) (v : BitVec x.bits) : x.sval (x.put v) = v.toInt := by simp [Xlen.sval]

@[simp] theorem Xlen.sval_narrow (x : Xlen) (w : Word) : x.sval (x.narrow w) = x.sval w := by
  simp [Xlen.narrow, Xlen.sval]

/-- The word made of an integer in the signed range has that s-value. -/
theorem Xlen.sval_wordInt (x : Xlen) {i : Int} (h₁ : -(2 : Int) ^ (x.bits - 1) ≤ i) (h₂ : i < (2 : Int) ^ (x.bits - 1)) :
    x.sval (x.wordInt i) = i := by
  rw [Xlen.wordInt, Xlen.sval_put, BitVec.toInt_ofInt_eq_self x.bits_pos h₁ h₂]

/-- s(v) lies in the signed range. -/
theorem Xlen.sval_bounds (x : Xlen) (w : Word) :
    -(2 : Int) ^ (x.bits - 1) ≤ x.sval w ∧ x.sval w < (2 : Int) ^ (x.bits - 1) :=
  ⟨BitVec.le_toInt _, BitVec.toInt_lt⟩

/-! ## Bytes of words -/

@[simp] theorem length_wordBytes (x : Xlen) (w : Word) : (wordBytes x w).length = x.bytes := by simp [wordBytes]

theorem bytesNat_lt (bs : List Byte) : bytesNat bs < 256 ^ bs.length := by
  induction bs with
  | nil => simp [bytesNat]
  | cons b bs ih =>
    have := b.isLt
    simp only [bytesNat, List.length_cons, Nat.pow_succ]
    omega

/-- At most WB bytes make a word of XLEN bits. -/
theorem fits_bytesWord (x : Xlen) {bs : List Byte} (h : bs.length ≤ x.bytes) : x.Fits (bytesWord bs) := by
  have h₁ := bytesNat_lt bs
  have h₂ : 256 ^ bs.length ≤ 256 ^ x.bytes := Nat.pow_le_pow_right (by decide) h
  have h₃ := x.pow_bits
  have h₄ := x.pow_bits_le
  simp only [Xlen.Fits, bytesWord, BitVec.toNat_ofNat]
  rw [Nat.mod_eq_of_lt] <;> omega

theorem toNat_bytesWord (x : Xlen) {bs : List Byte} (h : bs.length ≤ x.bytes) : (bytesWord bs).toNat = bytesNat bs := by
  have h₁ := bytesNat_lt bs
  have h₂ : 256 ^ bs.length ≤ 256 ^ x.bytes := Nat.pow_le_pow_right (by decide) h
  have h₃ := x.pow_bits
  have h₄ := x.pow_bits_le
  simp only [bytesWord, BitVec.toNat_ofNat]
  rw [Nat.mod_eq_of_lt]; omega

/-- Little-endian digits: byte k of the number some bytes stand for. -/
theorem bytesNat_digit (bs : List Byte) (k : Nat) (h : k < bs.length) : bytesNat bs / 256 ^ k % 256 = (bs[k]).toNat := by
  induction bs generalizing k with
  | nil => simp at h
  | cons b bs ih =>
    have := b.isLt
    cases k with
    | zero => simp only [bytesNat, List.getElem_cons_zero, Nat.pow_zero]; omega
    | succ k =>
      simp only [bytesNat, List.getElem_cons_succ]
      rw [← ih k (by simpa using h), Nat.pow_succ', ← Nat.div_div_eq_div_mul]
      congr 2
      omega

/-- Two numbers below 256^n with the same n little-endian digits are equal. -/
theorem bytesNat_eq {bs : List Byte} {n m : Nat} (hl : bs.length = n) (hm : m < 256 ^ n)
    (h : ∀ k (hk : k < bs.length), (bs[k]).toNat = m / 256 ^ k % 256) : bytesNat bs = m := by
  induction bs generalizing n m with
  | nil => subst hl; simp [bytesNat] at *; omega
  | cons b bs ih =>
    have h₀ := h 0 (by simp)
    simp only [List.getElem_cons_zero, Nat.pow_zero, Nat.div_one] at h₀
    obtain ⟨n, rfl⟩ : ∃ k, n = k + 1 := ⟨bs.length, by simpa using hl.symm⟩
    have := ih (n := n) (m := m / 256) (by simpa using hl)
      (Nat.div_lt_of_lt_mul (by rwa [Nat.pow_succ'] at hm)) (fun k hk => by
        have := h (k + 1) (by simpa using hk)
        simpa [Nat.pow_succ', Nat.div_div_eq_div_mul] using this)
    simp only [bytesNat, this, h₀]
    omega

/-- The bytes of a word of XLEN bits hold that word. -/
theorem bytesWord_wordBytes (x : Xlen) {w : Word} (h : x.Fits w) : bytesWord (wordBytes x w) = w := by
  apply BitVec.eq_of_toNat_eq
  rw [toNat_bytesWord x (by simp)]
  apply bytesNat_eq (n := x.bytes) (by simp) (by rw [← x.pow_bits]; exact h)
  intro k hk
  simp [wordBytes, Nat.shiftRight_eq_div_pow, Nat.pow_mul]

/-- The bytes of the word that WB bytes hold are those bytes. -/
theorem wordBytes_bytesWord (x : Xlen) {bs : List Byte} (h : bs.length = x.bytes) : wordBytes x (bytesWord bs) = bs := by
  apply List.ext_getElem (by simp [h])
  intro k h₁ h₂
  apply BitVec.eq_of_toNat_eq
  simp only [wordBytes, List.getElem_map, List.getElem_range, BitVec.extractLsb'_toNat, toNat_bytesWord x h.le,
    Nat.shiftRight_eq_div_pow, Nat.pow_mul]
  exact bytesNat_digit bs k h₂

end Sys2Proof
end

