-- ==== Sys2Proof/Laws/Ops.lean ====
section
/-! SUPPORT. One lemma per shared operation: everything it can do. -/

namespace Sys2Proof.Machine

variable {s t : State}

/-! ## The end of an instruction -/

@[simp] theorem takeTrap_eq (s : State) (e : Trap) : takeTrap s e = s.afterFault e := rfl

@[simp] theorem finish_ok (s t : State) : finish s (.ok t) = .next t := rfl

@[simp] theorem finish_error (s : State) (e : Trap) : finish s (.error e) = .next (s.afterFault e) := rfl

/-- An instruction that ends in a next state computed it or took a fault. -/
theorem finish_cases {r : Except Trap State} (h : finish s r = .next t) :
    r = .ok t ∨ ∃ e, r = .error e ∧ t = s.afterFault e := by
  cases r with
  | ok u => left; simpa using h
  | error e => right; exact ⟨e, rfl, by simpa using h.symm⟩

/-- An instruction that begins in `s` always ends in a next state. -/
theorem finish_next (s : State) (r : Except Trap State) : ∃ t, finish s r = .next t := by
  cases r <;> exact ⟨_, rfl⟩

/-! ## A bind of checks -/

@[simp] theorem ok_bind {α β : Type} (a : α) (f : α → Except Trap β) : ((Except.ok a : Except Trap α) >>= f) = f a := rfl

@[simp] theorem error_bind {α β : Type} (e : Trap) (f : α → Except Trap β) :
    ((Except.error e : Except Trap α) >>= f) = .error e := rfl

theorem bind_ok {α β : Type} {r : Except Trap α} {f : α → Except Trap β} {b : β} (h : (r >>= f) = .ok b) :
    ∃ a, r = .ok a ∧ f a = .ok b := by
  cases r with
  | ok a => exact ⟨a, rfl, h⟩
  | error e => simp at h

theorem bind_error {α β : Type} {r : Except Trap α} {f : α → Except Trap β} {e : Trap} (h : (r >>= f) = .error e) :
    r = .error e ∨ ∃ a, r = .ok a ∧ f a = .error e := by
  cases r with
  | ok a => exact .inr ⟨a, rfl, h⟩
  | error e' => left; simpa using h

/-! ## Addresses -/

@[simp] theorem State.toNat_slot (s : State) (a : Word) (k : Nat) :
    (s.slot a k).toNat = (a.toNat + k * s.cfg.xlen.bytes) % 2 ^ s.cfg.xlen.bits := by
  simp [State.slot, State.xlen]

@[simp] theorem State.toNat_scaled (s : State) (v : Word) :
    (s.scaled v).toNat = v.toNat * s.cfg.xlen.bytes % 2 ^ s.cfg.xlen.bits := by
  simp [State.scaled, State.xlen, Xlen.wb, Nat.mul_mod]

theorem State.toNat_pushSlot (s : State) :
    (s.pushSlot.toNat : Int) = ((s.sp.toNat : Int) - s.cfg.xlen.bytes) % (2 ^ s.cfg.xlen.bits : Nat) := by
  rw [State.pushSlot, Xlen.toNat_sub, State.xlen, Xlen.wb, Xlen.toNat_word_of_lt _ s.cfg.xlen.bytes_lt]

theorem State.fits_slot (s : State) (a : Word) (k : Nat) : s.cfg.xlen.Fits (s.slot a k) := Xlen.fits_add ..

theorem State.fits_pushSlot (s : State) : s.cfg.xlen.Fits s.pushSlot := Xlen.fits_sub ..

theorem State.fits_word (s : State) (a : Word) : s.cfg.xlen.Fits (s.word a) := fits_bytesWord _ (by simp)

/-! ## Range checks -/

theorem rangeOk_read (s : State) (a : Word) (n : Nat) : rangeOk s a n .read = true ↔ s.Readable a.toNat n := by
  simp only [rangeOk, Bool.or_eq_true, beq_iff_eq, List.any_eq_true, State.regions, List.mem_cons, List.mem_map,
    Bool.and_eq_true, Region.contains, decide_eq_true_eq]
  simp [Region.allows, State.textRegion, State.dataRegion, State.stackRegion, HostBlock.region, State.Readable]

theorem rangeOk_write (s : State) (a : Word) (n : Nat) : rangeOk s a n .write = true ↔ s.Writable a.toNat n := by
  simp only [rangeOk, Bool.or_eq_true, beq_iff_eq, List.any_eq_true, State.regions, List.mem_cons, List.mem_map,
    Bool.and_eq_true, Region.contains, decide_eq_true_eq]
  simp [Region.allows, State.textRegion, State.dataRegion, State.stackRegion, HostBlock.region, State.Writable]

/-- What may be written may be read. -/
theorem State.Writable.readable {a n : Nat} (h : s.Writable a n) : s.Readable a n :=
  h.elim .inl fun h => .inr (.inr h)

@[simp] theorem aligned_eq_false (x : Xlen) (a : Word) : aligned x a = false ↔ a.toNat % x.bytes ≠ 0 := by
  simp [aligned]

/-! ## Stack accesses -/

/-- A stack access is admitted or faults, with one fault only. -/
theorem State.stackSlot_or_fault (s : State) (a : Word) : s.StackSlot a ∨ ∃ e, s.StackFault a e := by
  by_cases h : s.StackSlot a
  · exact .inl h
  · by_cases ha : a.toNat % s.cfg.xlen.bytes = 0
    · exact .inr ⟨_, .inr ⟨ha, h, rfl⟩⟩
    · exact .inr ⟨_, .inl ⟨ha, rfl⟩⟩

theorem arenaCheck_stack_ok {a : Word} (h : s.StackSlot a) : arenaCheck s s.stackRegion a = .ok () := by
  simp [arenaCheck, Region.contains, State.stackRegion, State.xlen, h.1, h.2.1, h.2.2]

theorem arenaCheck_stack_error {a : Word} {e : Trap} (h : s.StackFault a e) :
    arenaCheck s s.stackRegion a = .error e := by
  rcases h with ⟨h, rfl⟩ | ⟨h, hb, rfl⟩
  · simp [arenaCheck, State.xlen, h]
  · have : ¬ (s.cfg.stackBase ≤ a.toNat ∧ a.toNat + s.cfg.xlen.bytes ≤ s.cfg.stackBase + s.cfg.poolBytes) :=
      fun hc => hb ⟨h, hc⟩
    simp only [arenaCheck, Region.contains, State.stackRegion, State.xlen, aligned_eq_false]
    simp [h, this]

theorem stackRead_ok {a : Word} (h : s.StackSlot a) : stackRead s a = .ok (s.word a) := by
  simp [stackRead, arenaCheck_stack_ok h, loadAt, Width.bytes, State.xlen]

theorem stackRead_error {a : Word} {e : Trap} (h : s.StackFault a e) : stackRead s a = .error e := by
  simp [stackRead, arenaCheck_stack_error h]

theorem stackRead_cases (s : State) (a : Word) :
    (s.StackSlot a ∧ stackRead s a = .ok (s.word a)) ∨ ∃ e, s.StackFault a e ∧ stackRead s a = .error e :=
  (s.stackSlot_or_fault a).imp (fun h => ⟨h, stackRead_ok h⟩) fun ⟨e, h⟩ => ⟨e, h, stackRead_error h⟩

theorem stackRead_inv {a v : Word} (h : stackRead s a = .ok v) : s.StackSlot a ∧ v = s.word a := by
  rcases stackRead_cases s a with ⟨h₁, h₂⟩ | ⟨e, _, h₂⟩
  · exact ⟨h₁, by simpa [h] using h₂⟩
  · simp [h] at h₂

theorem stackRead_error_inv {a : Word} {e : Trap} (h : stackRead s a = .error e) : s.StackFault a e := by
  rcases stackRead_cases s a with ⟨_, h₂⟩ | ⟨e', h₁, h₂⟩
  · simp [h] at h₂
  · rw [h] at h₂; cases h₂; exact h₁

/-- The memory a word store leaves. -/
theorem storeAt_word (s : State) (a v : Word) :
    storeAt s a .word v = s.setMem (s.mem.writeBytes a.toNat (wordBytes s.cfg.xlen v)) := by
  simp [storeAt, Width.bytes, State.xlen, List.take_of_length_le]

/-- push(v) on an admitted slot. -/
theorem push_ok (v : Word) (h : s.StackSlot s.pushSlot) :
    push s v = .ok ((s.setMem (s.mem.writeBytes s.pushSlot.toNat (wordBytes s.cfg.xlen v))).setSp s.pushSlot) := by
  simp [push, stackWrite, arenaCheck_stack_ok h, storeAt_word]

theorem push_error {e : Trap} (v : Word) (h : s.StackFault s.pushSlot e) : push s v = .error e := by
  simp [push, stackWrite, arenaCheck_stack_error h]

theorem push_cases (s : State) (v : Word) :
    (s.StackSlot s.pushSlot ∧
      push s v = .ok ((s.setMem (s.mem.writeBytes s.pushSlot.toNat (wordBytes s.cfg.xlen v))).setSp s.pushSlot)) ∨
    ∃ e, s.StackFault s.pushSlot e ∧ push s v = .error e :=
  (s.stackSlot_or_fault s.pushSlot).imp (fun h => ⟨h, push_ok v h⟩) fun ⟨e, h⟩ => ⟨e, h, push_error v h⟩

/-- pop() on an admitted slot. -/
theorem pop_ok (h : s.StackSlot s.sp) : pop s = .ok (s.word s.sp, s.setSp (s.slot s.sp 1)) := by
  simp [pop, stackRead_ok h]

theorem pop_error {e : Trap} (h : s.StackFault s.sp e) : pop s = .error e := by simp [pop, stackRead_error h]

theorem pop_cases (s : State) :
    (s.StackSlot s.sp ∧ pop s = .ok (s.word s.sp, s.setSp (s.slot s.sp 1))) ∨
    ∃ e, s.StackFault s.sp e ∧ pop s = .error e :=
  (s.stackSlot_or_fault s.sp).imp (fun h => ⟨h, pop_ok h⟩) fun ⟨e, h⟩ => ⟨e, h, pop_error h⟩

/-! ## Data accesses -/

theorem accessCheck_read_ok {a : Word} {n : Width} (ha : n = .word → a.toNat % s.cfg.xlen.bytes = 0)
    (h : s.Readable a.toNat (n.bytes s.cfg.xlen)) : accessCheck s a n .read = .ok () := by
  have h₁ : ¬ (n = .word ∧ aligned s.xlen a = false) := fun ⟨hn, hf⟩ => (aligned_eq_false _ _).1 hf (ha hn)
  have h₂ : rangeOk s a (n.bytes s.xlen) .read = true := (rangeOk_read s a _).2 h
  rw [accessCheck, if_neg h₁, h₂]; rfl

theorem accessCheck_write_ok {a : Word} {n : Width} (ha : n = .word → a.toNat % s.cfg.xlen.bytes = 0)
    (h : s.Writable a.toNat (n.bytes s.cfg.xlen)) : accessCheck s a n .write = .ok () := by
  have h₁ : ¬ (n = .word ∧ aligned s.xlen a = false) := fun ⟨hn, hf⟩ => (aligned_eq_false _ _).1 hf (ha hn)
  have h₂ : rangeOk s a (n.bytes s.xlen) .write = true := (rangeOk_write s a _).2 h
  rw [accessCheck, if_neg h₁, h₂]; rfl

theorem accessCheck_misaligned {a : Word} {k : Access} (h : a.toNat % s.cfg.xlen.bytes ≠ 0) :
    accessCheck s a .word k = .error (.misaligned a) := by
  simp [accessCheck, State.xlen, h]

theorem accessCheck_read_outside {a : Word} {n : Width} (ha : n = .word → a.toNat % s.cfg.xlen.bytes = 0)
    (h : ¬ s.Readable a.toNat (n.bytes s.cfg.xlen)) : accessCheck s a n .read = .error (.outOfBounds a) := by
  have h₁ : ¬ (n = .word ∧ aligned s.xlen a = false) := fun ⟨hn, hf⟩ => (aligned_eq_false _ _).1 hf (ha hn)
  have h₂ : rangeOk s a (n.bytes s.xlen) .read = false := by
    rw [← Bool.not_eq_true, rangeOk_read]; exact h
  rw [accessCheck, if_neg h₁, h₂]; rfl

theorem accessCheck_write_outside {a : Word} {n : Width} (ha : n = .word → a.toNat % s.cfg.xlen.bytes = 0)
    (h : ¬ s.Writable a.toNat (n.bytes s.cfg.xlen)) : accessCheck s a n .write = .error (.outOfBounds a) := by
  have h₁ : ¬ (n = .word ∧ aligned s.xlen a = false) := fun ⟨hn, hf⟩ => (aligned_eq_false _ _).1 hf (ha hn)
  have h₂ : rangeOk s a (n.bytes s.xlen) .write = false := by
    rw [← Bool.not_eq_true, rangeOk_write]; exact h
  rw [accessCheck, if_neg h₁, h₂]; rfl

/-- What an access check that passes says. -/
theorem accessCheck_inv {a : Word} {n : Width} {k : Access} (h : accessCheck s a n k = .ok ()) :
    (n = .word → a.toNat % s.cfg.xlen.bytes = 0) ∧ rangeOk s a (n.bytes s.cfg.xlen) k = true := by
  unfold accessCheck at h
  split at h
  · cases h
  · next h₁ =>
    split at h
    · cases h
    · next h₂ =>
      refine ⟨fun hn => ?_, by simpa [State.xlen] using h₂⟩
      by_contra hc
      exact h₁ ⟨hn, (aligned_eq_false _ _).2 hc⟩

/-- A fault of an access check names the address. -/
theorem accessCheck_error {a : Word} {n : Width} {k : Access} {e : Trap} (h : accessCheck s a n k = .error e) :
    e = .misaligned a ∨ e = .outOfBounds a := by
  unfold accessCheck at h
  split at h
  · left; cases h; rfl
  · split at h
    · right; cases h; rfl
    · cases h

theorem memRead_inv {a v : Word} {n : Width} (h : memRead s a n = .ok v) :
    accessCheck s a n .read = .ok () ∧ v = loadAt s a n := by
  obtain ⟨⟨⟩, h₁, h₂⟩ := bind_ok h
  exact ⟨h₁, by simpa using h₂.symm⟩

theorem memRead_of_check {a : Word} {n : Width} (h : accessCheck s a n .read = .ok ()) :
    memRead s a n = .ok (loadAt s a n) := by
  simp [memRead, h]

theorem memRead_error_of_check {a : Word} {n : Width} {e : Trap} (h : accessCheck s a n .read = .error e) :
    memRead s a n = .error e := by
  simp [memRead, h]

theorem memRead_error {a : Word} {n : Width} {e : Trap} (h : memRead s a n = .error e) :
    accessCheck s a n .read = .error e := by
  rcases bind_error h with h | ⟨_, _, h⟩
  · exact h
  · cases h

theorem memWrite_inv {a v : Word} {n : Width} (h : memWrite s a n v = .ok t) :
    accessCheck s a n .write = .ok () ∧ t = storeAt s a n v := by
  obtain ⟨⟨⟩, h₁, h₂⟩ := bind_ok h
  exact ⟨h₁, by simpa using h₂.symm⟩

theorem memWrite_of_check {a v : Word} {n : Width} (h : accessCheck s a n .write = .ok ()) :
    memWrite s a n v = .ok (storeAt s a n v) := by
  simp [memWrite, h]

theorem memWrite_error_of_check {a v : Word} {n : Width} {e : Trap} (h : accessCheck s a n .write = .error e) :
    memWrite s a n v = .error e := by
  simp [memWrite, h]

/-- A byte load gives the byte, zero-extended. -/
theorem loadAt_byte (s : State) (a : Word) : loadAt s a .byte = (s.byte a.toNat).setWidth 64 := by
  apply BitVec.eq_of_toNat_eq
  have := (s.byte a.toNat).isLt
  simp [loadAt, bytesWord, Memory.readBytes, Width.bytes, bytesNat, State.byte]

theorem loadAt_word (s : State) (a : Word) : loadAt s a .word = s.word a := rfl

theorem fits_loadAt (s : State) (a : Word) (n : Width) : s.cfg.xlen.Fits (loadAt s a n) := by
  refine fits_bytesWord _ ?_
  have := s.cfg.xlen.bytes_pos
  cases n <;> simp [Width.bytes, State.xlen]
  omega

/-! ## Fetch -/

theorem arenaCheck_text_ok {a : Word} (h : s.TextWord a) : arenaCheck s s.textRegion a = .ok () := by
  simp [arenaCheck, Region.contains, State.textRegion, State.xlen, h.1, h.2.1, h.2.2]

theorem fetch_ok {a : Word} (h : s.TextWord a) : fetch s a = .ok (s.word a) := by
  simp [fetch, arenaCheck_text_ok h, loadAt, Width.bytes, State.xlen]

theorem fetch_misaligned {a : Word} (h : a.toNat % s.cfg.xlen.bytes ≠ 0) : fetch s a = .error (.misaligned a) := by
  simp [fetch, arenaCheck, State.xlen, h]

theorem fetch_outside {a : Word} (h : a.toNat % s.cfg.xlen.bytes = 0) (hb : ¬ s.TextWord a) :
    fetch s a = .error (.outOfBounds a) := by
  have : ¬ (s.cfg.textBase ≤ a.toNat ∧ a.toNat + s.cfg.xlen.bytes ≤ s.cfg.textBase + s.cfg.poolBytes) :=
    fun hc => hb ⟨h, hc⟩
  simp only [fetch, arenaCheck, Region.contains, State.textRegion, State.xlen, aligned_eq_false]
  simp [h, this]

theorem fetch_inv {a v : Word} (h : fetch s a = .ok v) : s.TextWord a ∧ v = s.word a := by
  by_cases ha : a.toNat % s.cfg.xlen.bytes = 0
  · by_cases hb : s.TextWord a
    · exact ⟨hb, by simpa [fetch_ok hb] using h.symm⟩
    · simp [fetch_outside ha hb] at h
  · simp [fetch_misaligned ha] at h

/-! ## Every instruction -/

/-- Every instruction in every state ends in a next state: its effect or the fault it takes. -/
theorem exec_answers_next (i : Instr) (s : State) : ∃ t, exec i s = .next t := by
  cases i <;> (unfold exec; exact finish_next s _)

end Sys2Proof.Machine
end

