-- ==== Sys2Proof/Laws/Shared.lean ====
section
/-! SUPPORT. One lemma per shared shape of instruction: an operator, SC and SI, an argument, fetching an instruction,
the opcode map, MALC's constraints, MCMP's first difference. -/

namespace Sys2Proof.Machine
variable {s t : State}

/-! ## Operators -/

theorem binary_ok {f : Xlen → Word → Word → Except Trap Word} {v : Word} (h : s.StackSlot s.sp)
    (hf : f s.cfg.xlen (s.word s.sp) s.ax = .ok v) :
    binary s f = .ok (((s.setSp (s.slot s.sp 1)).setAx v).setPc s.next1) := by
  simp [binary, pop_ok h, State.xlen, hf]

theorem binary_fault {f : Xlen → Word → Word → Except Trap Word} {e : Trap} (h : s.StackSlot s.sp)
    (hf : f s.cfg.xlen (s.word s.sp) s.ax = .error e) : binary s f = .error e := by
  simp [binary, pop_ok h, State.xlen, hf]

theorem binary_error {e : Trap} (f : Xlen → Word → Word → Except Trap Word) (h : s.StackFault s.sp e) :
    binary s f = .error e := by
  simp [binary, pop_error h]

/-- Everything an operator can do. -/
theorem binary_cases (s : State) (f : Xlen → Word → Word → Except Trap Word) :
    (s.StackSlot s.sp ∧ ∃ v, f s.cfg.xlen (s.word s.sp) s.ax = .ok v ∧
      binary s f = .ok (((s.setSp (s.slot s.sp 1)).setAx v).setPc s.next1)) ∨
    (s.StackSlot s.sp ∧ ∃ e, f s.cfg.xlen (s.word s.sp) s.ax = .error e ∧ binary s f = .error e) ∨
    ∃ e, s.StackFault s.sp e ∧ binary s f = .error e := by
  rcases s.stackSlot_or_fault s.sp with h | ⟨e, h⟩
  · cases hf : f s.cfg.xlen (s.word s.sp) s.ax with
    | ok v => exact .inl ⟨h, v, rfl, binary_ok h hf⟩
    | error e => exact .inr (.inl ⟨h, e, rfl, binary_fault h hf⟩)
  · exact .inr (.inr ⟨e, h, binary_error f h⟩)

/-! ## SC and SI -/

theorem storeAt_eq (s : State) (a : Word) (n : Width) (v : Word) :
    storeAt s a n v = s.setMem (s.mem.writeBytes a.toNat ((wordBytes s.cfg.xlen v).take (n.bytes s.cfg.xlen))) := rfl

theorem Writable_setSp (s : State) (v : Word) (a n : Nat) : (s.setSp v).Writable a n ↔ s.Writable a n := Iff.rfl

/-- SC and SI that complete. -/
theorem popStore_ok {n : Width} (h : s.StackSlot s.sp) (ha : n = .word → (s.word s.sp).toNat % s.cfg.xlen.bytes = 0)
    (hw : s.Writable (s.word s.sp).toNat (n.bytes s.cfg.xlen)) :
    popStore s n = .ok ((storeAt (s.setSp (s.slot s.sp 1)) (s.word s.sp) n s.ax).setPc s.next1) := by
  have hc := accessCheck_write_ok (s := s.setSp (s.slot s.sp 1)) (a := s.word s.sp) (n := n) ha hw
  simp [popStore, pop_ok h, memWrite_of_check hc]

/-- SC and SI whose store faults. -/
theorem popStore_fault {n : Width} {e : Trap} (h : s.StackSlot s.sp)
    (hc : accessCheck s (s.word s.sp) n .write = .error e) : popStore s n = .error e := by
  have hc' : accessCheck (s.setSp (s.slot s.sp 1)) (s.word s.sp) n .write = .error e := hc
  simp [popStore, pop_ok h, memWrite_error_of_check hc']

theorem popStore_error {e : Trap} (n : Width) (h : s.StackFault s.sp e) : popStore s n = .error e := by
  simp [popStore, pop_error h]

/-! ## Arguments -/

@[simp] theorem arg_eq (s : State) (i : Nat) : arg s i = stackRead s (s.slot s.sp i) := rfl

/-! ## Fetching an instruction -/

theorem fetchInstr_inv {i : Instr} (h : fetchInstr s = .ok i) :
    s.TextWord s.pc ∧ (formatOf (s.word s.pc) = some (.f0 i) ∨
      ∃ mk, formatOf (s.word s.pc) = some (.f1 mk) ∧ s.TextWord (s.slot s.pc 1) ∧ i = mk (s.word (s.slot s.pc 1))) := by
  obtain ⟨op, h₁, h₂⟩ := bind_ok h
  obtain ⟨ht, rfl⟩ := fetch_inv h₁
  refine ⟨ht, ?_⟩
  split at h₂
  · cases h₂
  · next hf => cases h₂; exact .inl hf
  · next mk hf =>
    obtain ⟨v, h₃, h₄⟩ := bind_ok h₂
    obtain ⟨ht', rfl⟩ := fetch_inv h₃
    exact .inr ⟨mk, hf, ht', by simpa [State.next1] using h₄.symm⟩

theorem fetchInstr_f0 {i : Instr} (h : s.TextWord s.pc) (hf : formatOf (s.word s.pc) = some (.f0 i)) :
    fetchInstr s = .ok i := by
  simp [fetchInstr, fetch_ok h, hf]

theorem fetchInstr_f1 {mk : Word → Instr} (h : s.TextWord s.pc) (hf : formatOf (s.word s.pc) = some (.f1 mk))
    (h' : s.TextWord (s.slot s.pc 1)) : fetchInstr s = .ok (mk (s.word (s.slot s.pc 1))) := by
  simp [fetchInstr, fetch_ok h, hf, State.next1, fetch_ok h']

theorem fetchInstr_illegal (h : s.TextWord s.pc) (hf : formatOf (s.word s.pc) = none) :
    fetchInstr s = .error (.illegalOpcode (s.word s.pc)) := by
  simp [fetchInstr, fetch_ok h, hf]

/-! ## The opcode map -/

/-- The number of a row's opcode is the number its instruction has. -/
theorem formatOf_f0 {op : Word} {i : Instr} (h : formatOf op = some (.f0 i)) :
    i.operand = none ∧ op = BitVec.ofNat 64 i.number := by
  have hm : ∀ l : List (Nat × Format), l.lookup op.toNat = some (.f0 i) → (op.toNat, Format.f0 i) ∈ l := by
    intro l
    induction l with
    | nil => simp
    | cons p l ih =>
      obtain ⟨k, f⟩ := p
      simp only [List.lookup]
      split
      · next hk => intro hh; simp_all
      · next hk => intro hh; exact List.mem_cons_of_mem _ (ih hh)
  have := hm _ h
  have e : op = BitVec.ofNat 64 op.toNat := by simp
  simp only [opcodeTable, opcodeRowsLow, opcodeRowsAlu, opcodeRowsHost, List.cons_append, List.nil_append, List.mem_cons,
    Prod.mk.injEq, reduceCtorEq, and_false, false_or, Format.f0.injEq, List.not_mem_nil, or_false] at this
  rcases this with h|h|h|h|h|h|h|h|h|h|h|h|h|h|h|h|h|h|h|h|h|h|h|h|h|h|h|h|h <;>
    (obtain ⟨h₁, rfl⟩ := h; rw [h₁] at e; exact ⟨rfl, e⟩)

theorem formatOf_f1 {op : Word} {mk : Word → Instr} (h : formatOf op = some (.f1 mk)) (v : Word) :
    (mk v).operand = some v ∧ op = BitVec.ofNat 64 (mk v).number := by
  have hm : ∀ l : List (Nat × Format), l.lookup op.toNat = some (.f1 mk) → (op.toNat, Format.f1 mk) ∈ l := by
    intro l
    induction l with
    | nil => simp
    | cons p l ih =>
      obtain ⟨k, f⟩ := p
      simp only [List.lookup]
      split
      · next hk => intro hh; simp_all
      · next hk => intro hh; exact List.mem_cons_of_mem _ (ih hh)
  have := hm _ h
  have e : op = BitVec.ofNat 64 op.toNat := by simp
  simp only [opcodeTable, opcodeRowsLow, opcodeRowsAlu, opcodeRowsHost, List.cons_append, List.nil_append, List.mem_cons,
    Prod.mk.injEq, reduceCtorEq, and_false, false_or, Format.f1.injEq, List.not_mem_nil, or_false] at this
  rcases this with h|h|h|h|h|h|h|h|h <;>
    (obtain ⟨h₁, rfl⟩ := h; rw [h₁] at e; exact ⟨rfl, e⟩)

/-- A fetched instruction is well-formed. -/
theorem fetchInstr_wf {i : Instr} (h : fetchInstr s = .ok i) : i.wf s.cfg.xlen = true := by
  obtain ⟨_, hf | ⟨mk, hf, _, rfl⟩⟩ := fetchInstr_inv h
  · simp [Instr.wf, (formatOf_f0 hf).1]
  · simp [Instr.wf, (formatOf_f1 hf _).1, s.fits_word]
/-! ## MALC's blocks and MCMP's first difference -/

/-- What R180 asks of MALC's answer. -/
theorem blockOk_iff {a : Word} {n : Nat} : blockOk s a n = true ↔
    (a.toNat % s.cfg.xlen.bytes = 0 ∧ s.cfg.xlen.bytes ≤ a.toNat ∧ a.toNat + n ≤ 2 ^ s.cfg.xlen.bits ∧
      n < 2 ^ (s.cfg.xlen.bits - 1)) ∧
    ∀ r ∈ s.regions, r.size = 0 ∨ a.toNat + max n 1 ≤ r.base ∨ r.base + r.size ≤ a.toNat := by
  rw [blockOk, Bool.and_eq_true, decide_eq_true_iff, List.all_eq_true]
  simp only [Region.disjoint, Bool.or_eq_true, beq_iff_eq, decide_eq_true_eq]
  rfl

/-- A readable byte lies in one of the regions. -/
theorem readable_one {c : Nat} : s.Readable c 1 ↔ ∃ r ∈ s.regions, r.base ≤ c ∧ c < r.base + r.size := by
  simp only [State.Readable, State.regions, List.mem_cons, List.mem_map]
  constructor
  · rintro (h | h | h | h | ⟨b, hb, h⟩)
    · omega
    · exact ⟨_, .inl rfl, h.1, by simp only [State.textRegion]; omega⟩
    · exact ⟨_, .inr (.inl rfl), h.1, by simp only [State.dataRegion]; omega⟩
    · exact ⟨_, .inr (.inr (.inl rfl)), h.1, by simp only [State.stackRegion]; omega⟩
    · exact ⟨_, .inr (.inr (.inr ⟨b, hb, rfl⟩)), h.1, by simp only [HostBlock.region]; omega⟩
  · rintro ⟨r, rfl | rfl | rfl | ⟨b, hb, rfl⟩, h₁, h₂⟩
    · simp only [State.textRegion] at h₁ h₂; omega
    · simp only [State.dataRegion] at h₁ h₂; omega
    · simp only [State.stackRegion] at h₁ h₂; omega
    · simp only [HostBlock.region] at h₁ h₂; exact .inr (.inr (.inr (.inr ⟨b, hb, by omega⟩)))

/-- The disjointness R180 asks for, byte by byte. -/
theorem blockOk_bytes {a : Word} {n : Nat} : blockOk s a n = true ↔
    (a.toNat % s.cfg.xlen.bytes = 0 ∧ s.cfg.xlen.bytes ≤ a.toNat ∧ a.toNat + n ≤ 2 ^ s.cfg.xlen.bits ∧
      n < 2 ^ (s.cfg.xlen.bits - 1)) ∧
    ∀ c, a.toNat ≤ c → c < a.toNat + max n 1 → ¬ s.Readable c 1 := by
  rw [blockOk_iff]
  refine and_congr_right fun _ => ⟨fun h c h₁ h₂ hr => ?_, fun h r hr => ?_⟩
  · obtain ⟨r, hr, h₃, h₄⟩ := readable_one.1 hr
    have := h r hr; omega
  · by_contra hc
    by_cases hab : a.toNat ≤ r.base
    · exact h r.base hab (by omega) (readable_one.2 ⟨r, hr, le_rfl, by omega⟩)
    · exact h a.toNat le_rfl (by omega) (readable_one.2 ⟨r, hr, by omega, by omega⟩)

/-- Two ranges agree. -/
theorem firstDiff_none {p q : List Byte} (h : p.length = q.length) : firstDiff p q = none ↔ p = q := by
  induction p generalizing q with
  | nil => cases q <;> simp_all [firstDiff]
  | cons a p ih =>
    cases q with
    | nil => simp at h
    | cons b q =>
      simp only [firstDiff]
      split
      · next e => simp [e, ih (by simpa using h)]
      · next e => simp [e]

/-- The first place where two ranges differ. -/
theorem firstDiff_at {p q : List Byte} (k : Nat) (hp : k < p.length) (hq : k < q.length)
    (h : ∀ j (hj : j < k), p[j] = q[j]) (hne : p[k] ≠ q[k]) : firstDiff p q = some (p[k], q[k]) := by
  induction k generalizing p q with
  | zero =>
    cases p with
    | nil => simp at hp
    | cons a p =>
      cases q with
      | nil => simp at hq
      | cons b q => simp only [List.getElem_cons_zero] at hne ⊢; simp [firstDiff, hne]
  | succ k ih =>
    cases p with
    | nil => simp at hp
    | cons a p =>
      cases q with
      | nil => simp at hq
      | cons b q =>
        have h₀ : a = b := h 0 (by omega)
        simp only [firstDiff, h₀, if_true, List.getElem_cons_succ]
        exact ih (by simpa using hp) (by simpa using hq) (fun j hj => by simpa using h (j + 1) (by omega)) (by simpa using hne)

end Sys2Proof.Machine
end

