-- ==== Sys2Proof/Laws/Strings.lean ====
section
/-! SUPPORT. Everything a string read can do, and PRTF's argument list. -/

namespace Sys2Proof.Machine
variable {s t : State}

/-! ## Strings -/

/-- Address a + k, modulo 2^XLEN. -/
abbrev State.at (s : State) (a : Word) (k : Nat) : Word := s.cfg.xlen.word (a.toNat + k)

theorem memRead_byte_cases (s : State) (a : Word) :
    (s.Readable a.toNat 1 ∧ memRead s a .byte = .ok ((s.byte a.toNat).setWidth 64)) ∨
    (¬ s.Readable a.toNat 1 ∧ memRead s a .byte = .error (.outOfBounds a)) := by
  by_cases h : s.Readable a.toNat 1
  · left
    refine ⟨h, ?_⟩
    rw [memRead_of_check (accessCheck_read_ok (by simp) (by simpa [Width.bytes] using h)), loadAt_byte]
  · right
    exact ⟨h, memRead_error_of_check (accessCheck_read_outside (by simp) (by simpa [Width.bytes] using h))⟩

/-- Reading a string is one look at its first byte, then the rest of it. -/
theorem cStrFrom_succ (s : State) (a : Word) (n : Nat) :
    cStrFrom s a (n + 1) =
      if s.Readable a.toNat 1 then
        if s.byte a.toNat = 0 then .ok []
        else (cStrFrom s (s.cfg.xlen.add a 1) n).map (s.byte a.toNat :: ·)
      else .error (.outOfBounds a) := by
  rcases memRead_byte_cases s a with ⟨h, hr⟩ | ⟨h, hr⟩
  · rw [cStrFrom, hr, if_pos h]
    have e : (BitVec.setWidth 64 (s.byte a.toNat) = 0) ↔ s.byte a.toNat = 0 := by
      constructor
      · intro hh
        apply BitVec.eq_of_toNat_eq
        have := congrArg BitVec.toNat hh
        have hl := (s.byte a.toNat).isLt
        simp at this
        simp; omega
      · intro hh; simp [hh]
    simp only [ok_bind, e, State.xlen]
    split
    · rfl
    · cases cStrFrom s (s.cfg.xlen.add a 1) n with
      | ok r => simp [Except.map]
      | error e => rfl
  · simp [cStrFrom, hr, h]

/-- A fault of a string read is out of bounds. -/
theorem cStrFrom_error {a : Word} {n : Nat} {e : Trap} (h : cStrFrom s a n = .error e) : ∃ b, e = .outOfBounds b := by
  induction n generalizing a with
  | zero => cases h; exact ⟨_, rfl⟩
  | succ n ih =>
    rw [cStrFrom_succ] at h
    split at h
    · split at h
      · cases h
      · cases hc : cStrFrom s (s.cfg.xlen.add a 1) n with
        | ok r => rw [hc] at h; cases h
        | error e' => rw [hc] at h; cases h; exact ih hc
    · cases h; exact ⟨_, rfl⟩

theorem cStr_error {a : Word} {e : Trap} (h : cStr s a = .error e) : ∃ b, e = .outOfBounds b := cStrFrom_error h

theorem toNat_add_one (x : Xlen) (a : Word) : (x.add a 1).toNat = (a.toNat + 1) % 2 ^ x.bits := by simp

/-- A string of `str` is read whole when at least its length and one more bytes are looked at. -/
theorem cStrFrom_ok {a : Word} {str : List Byte} (ha : s.cfg.xlen.Fits a) (h : s.IsString a str) (n : Nat)
    (hn : str.length < n) : cStrFrom s a n = .ok str := by
  induction str generalizing a n with
  | nil =>
    obtain ⟨n, rfl⟩ : ∃ m, n = m + 1 := ⟨n - 1, by omega⟩
    obtain ⟨-, h₁, h₂⟩ := h
    simp only [List.length_nil, Nat.add_zero, Nat.mod_eq_of_lt ha] at h₁ h₂
    rw [cStrFrom_succ, if_pos h₁, if_pos h₂]
  | cons b bs ih =>
    obtain ⟨n, rfl⟩ : ∃ m, n = m + 1 := ⟨n - 1, by omega⟩
    obtain ⟨h₀, h₁, h₂⟩ := h
    have hb := h₀ 0 (by simp)
    simp only [Nat.add_zero, Nat.mod_eq_of_lt ha, List.getElem_cons_zero] at hb
    have e : ∀ k, ((s.cfg.xlen.add a 1).toNat + k) % 2 ^ s.cfg.xlen.bits = (a.toNat + (k + 1)) % 2 ^ s.cfg.xlen.bits := by
      intro k; rw [toNat_add_one, Nat.mod_add_mod]; congr 1; omega
    rw [cStrFrom_succ, if_pos hb.1, if_neg (by rw [hb.2.1]; exact hb.2.2)]
    rw [ih (a := s.cfg.xlen.add a 1) (s.cfg.xlen.fits_add _ _) ⟨?_, ?_, ?_⟩ n (by simpa using hn)]
    · simp [Except.map, hb.2.1]
    · intro k hk
      have := h₀ (k + 1) (by simpa using hk)
      rw [e]; simpa using this
    · rw [e]; simpa using h₁
    · rw [e]; simpa using h₂

theorem cStrFrom_bad {a b : Word} (ha : s.cfg.xlen.Fits a) (k : Nat)
    (h : ∀ j < k, s.Readable ((a.toNat + j) % 2 ^ s.cfg.xlen.bits) 1 ∧ s.byte ((a.toNat + j) % 2 ^ s.cfg.xlen.bits) ≠ 0)
    (hk : ¬ s.Readable ((a.toNat + k) % 2 ^ s.cfg.xlen.bits) 1) (hb : b.toNat = (a.toNat + k) % 2 ^ s.cfg.xlen.bits)
    (n : Nat) (hn : k < n) : cStrFrom s a n = .error (.outOfBounds b) := by
  induction k generalizing a n with
  | zero =>
    obtain ⟨n, rfl⟩ : ∃ m, n = m + 1 := ⟨n - 1, by omega⟩
    simp only [Nat.add_zero, Nat.mod_eq_of_lt ha] at hk hb
    rw [cStrFrom_succ, if_neg hk, BitVec.eq_of_toNat_eq hb]
  | succ k ih =>
    obtain ⟨n, rfl⟩ : ∃ m, n = m + 1 := ⟨n - 1, by omega⟩
    have h₀ := h 0 (by simp)
    simp only [Nat.add_zero, Nat.mod_eq_of_lt ha] at h₀
    have e : ∀ k, ((s.cfg.xlen.add a 1).toNat + k) % 2 ^ s.cfg.xlen.bits = (a.toNat + (k + 1)) % 2 ^ s.cfg.xlen.bits := by
      intro k; rw [toNat_add_one, Nat.mod_add_mod]; congr 1; omega
    rw [cStrFrom_succ, if_pos h₀.1, if_neg h₀.2, ih (s.cfg.xlen.fits_add a 1) (fun j hj => ?_) (by rwa [e])
      (by rwa [e]) n (by omega)]
    · rfl
    · rw [e]; exact h (j + 1) (by omega)

/-- `n` consecutive addresses (modulo 2^XLEN) that hold bytes other than zero are `n` cells of memory, if none comes
twice. -/
theorem Memory.length_ge {m : Memory} {n : Nat} {f : Nat → Nat} (hf : ∀ j < n, ∀ k < n, f j = f k → j = k)
    (h : ∀ j < n, m.read (f j) ≠ 0) : n ≤ m.length := by
  have hsub : (Finset.range n).image f ⊆ (m.map Prod.fst).toFinset := by
    intro a ha
    obtain ⟨j, hj, rfl⟩ := Finset.mem_image.1 ha
    obtain ⟨c, hc, hca⟩ := Memory.listed_of_read (h j (Finset.mem_range.1 hj))
    exact List.mem_toFinset.2 (List.mem_map.2 ⟨c, hc, hca⟩)
  have h₁ := Finset.card_le_card hsub
  rw [Finset.card_image_of_injOn (fun j hj k hk e => hf j (by simpa using hj) k (by simpa using hk) e),
    Finset.card_range] at h₁
  have h₂ := List.toFinset_card_le (m.map Prod.fst)
  simp at h₂
  omega

/-- The look-ahead bound of `cStr` is never met: a stretch of bytes other than zero that ends at all is shorter than the
list of cells. -/
theorem stretch_le {a k : Nat} (h : ∀ j < k, s.byte ((a + j) % 2 ^ s.cfg.xlen.bits) ≠ 0)
    (hk : ∀ j < k, (a + j) % 2 ^ s.cfg.xlen.bits ≠ (a + k) % 2 ^ s.cfg.xlen.bits) : k ≤ s.mem.length := by
  have hlt : k ≤ 2 ^ s.cfg.xlen.bits := by
    by_contra hc
    exact hk (k - 2 ^ s.cfg.xlen.bits) (by have := Nat.two_pow_pos s.cfg.xlen.bits; omega) (by
      rw [show a + k = a + (k - 2 ^ s.cfg.xlen.bits) + 2 ^ s.cfg.xlen.bits by omega, Nat.add_mod_right])
  refine Memory.length_ge (f := fun j => (a + j) % 2 ^ s.cfg.xlen.bits) (fun j hj l hl e => ?_) h
  have key : ∀ j l, j ≤ l → l < k → (a + j) % 2 ^ s.cfg.xlen.bits = (a + l) % 2 ^ s.cfg.xlen.bits → j = l := by
    intro j l hjl hl e
    have := Nat.ModEq.add_left_cancel' a e
    rw [Nat.ModEq, Nat.mod_eq_of_lt (by omega), Nat.mod_eq_of_lt (by omega)] at this
    exact this
  rcases Nat.le_total j l with hjl | hlj
  · exact key j l hjl hl e
  · exact (key l j hlj hj e.symm).symm

/-- A zero-terminated string is what CStr gives (R178). -/
theorem cStr_ok {a : Word} {str : List Byte} (ha : s.cfg.xlen.Fits a) (h : s.IsString a str) : cStr s a = .ok str := by
  refine cStrFrom_ok ha h _ (Nat.lt_succ_of_le (stretch_le (a := a.toNat) (fun j hj => ?_) fun j hj e => ?_))
  · have := h.1 j hj; rw [this.2.1]; exact this.2.2
  · have := h.1 j hj
    rw [e, h.2.2] at this
    exact this.2.2 this.2.1.symm

/-- A string that meets an unreadable byte faults there (R178). -/
theorem cStr_bad {a b : Word} (ha : s.cfg.xlen.Fits a) (h : s.BadString a b) : cStr s a = .error (.outOfBounds b) := by
  obtain ⟨k, h₁, h₂, h₃⟩ := h
  refine cStrFrom_bad ha k h₁ h₂ h₃ _ (Nat.lt_succ_of_le (stretch_le (a := a.toNat) (fun j hj => (h₁ j hj).2)
    fun j hj e => h₂ (e ▸ (h₁ j hj).1)))

/-- Every string read is one of the two, where the address space has an unreadable byte. -/
theorem string_or_bad (s : State) (a : Word) (z : Nat) (hz : z < 2 ^ s.cfg.xlen.bits) (hr : ¬ s.Readable z 1) :
    (∃ str, s.IsString a str) ∨ ∃ b, s.BadString a b := by
  let P : Nat → Prop := fun k => ¬ (s.Readable ((a.toNat + k) % 2 ^ s.cfg.xlen.bits) 1 ∧
    s.byte ((a.toNat + k) % 2 ^ s.cfg.xlen.bits) ≠ 0)
  have hex : ∃ k, P k := by
    refine ⟨z + (2 ^ s.cfg.xlen.bits - a.toNat % 2 ^ s.cfg.xlen.bits), fun h => hr ?_⟩
    have hm : a.toNat % 2 ^ s.cfg.xlen.bits < 2 ^ s.cfg.xlen.bits := Nat.mod_lt _ (Nat.two_pow_pos _)
    have e : (a.toNat + (z + (2 ^ s.cfg.xlen.bits - a.toNat % 2 ^ s.cfg.xlen.bits))) % 2 ^ s.cfg.xlen.bits = z := by
      rw [← Nat.mod_add_mod,
        show a.toNat % 2 ^ s.cfg.xlen.bits + (z + (2 ^ s.cfg.xlen.bits - a.toNat % 2 ^ s.cfg.xlen.bits))
          = z + 2 ^ s.cfg.xlen.bits by omega, Nat.add_mod_right, Nat.mod_eq_of_lt hz]
    rw [e] at h; exact h.1
  classical
  have hmin : ∀ j < Nat.find hex, s.Readable ((a.toNat + j) % 2 ^ s.cfg.xlen.bits) 1 ∧
      s.byte ((a.toNat + j) % 2 ^ s.cfg.xlen.bits) ≠ 0 := fun j hj => not_not.1 (Nat.find_min hex hj)
  by_cases h : s.Readable ((a.toNat + Nat.find hex) % 2 ^ s.cfg.xlen.bits) 1
  · left
    have h₀ : s.byte ((a.toNat + Nat.find hex) % 2 ^ s.cfg.xlen.bits) = 0 := by
      by_contra hc; exact Nat.find_spec hex ⟨h, hc⟩
    refine ⟨(List.range (Nat.find hex)).map fun j => s.byte ((a.toNat + j) % 2 ^ s.cfg.xlen.bits), ?_, ?_, ?_⟩
    · intro k hk
      simp only [List.length_map, List.length_range] at hk
      simpa using hmin k hk
    · simpa using h
    · simpa using h₀
  · right
    exact ⟨s.cfg.xlen.word (a.toNat + Nat.find hex), Nat.find hex, hmin, h, by simp⟩

/-! ## PRTF's arguments -/

theorem prtfSlot_eq (s : State) (imm : Word) (k : Nat) :
    s.xlen.sub (s.xlen.add s.sp (s.scaled imm)) (s.xlen.word ((k + 1) * s.xlen.bytes)) = s.prtfSlot imm k := rfl

/-- The argument slots, all admitted. -/
theorem prtfArgs_ok (s : State) (imm : Word) (n k : Nat)
    (h : ∀ j, k ≤ j → j < k + n → (j : Int) ≤ s.cfg.xlen.sval imm - 1 → s.StackSlot (s.prtfSlot imm j)) :
    prtfArgs s (s.xlen.add s.sp (s.scaled imm)) imm n k =
      .ok ((List.range (min n (s.cfg.xlen.sval imm - k).toNat)).map fun j => s.word (s.prtfSlot imm (k + j))) := by
  induction n generalizing k with
  | zero => simp [prtfArgs]
  | succ n ih =>
    rw [prtfArgs]
    by_cases hk : s.xlen.sval imm - 1 - (k : Int) ≥ 0
    · rw [if_pos hk, prtfSlot_eq, stackRead_ok (h k le_rfl (by omega) (by simp only [State.xlen] at hk; omega)), ok_bind,
        ih (k + 1) (fun j h₁ h₂ h₃ => h j (by omega) (by omega) h₃), ok_bind]
      simp only [State.xlen] at hk
      obtain ⟨m, hm⟩ : ∃ m : Nat, s.cfg.xlen.sval imm - k = m + 1 :=
        ⟨(s.cfg.xlen.sval imm - k - 1).toNat, by omega⟩
      have h₁ : (s.cfg.xlen.sval imm - ↑(k + 1)).toNat = m := by push_cast; omega
      have h₂ : (s.cfg.xlen.sval imm - ↑k).toNat = m + 1 := by omega
      rw [h₁, h₂, Nat.succ_min_succ, List.range_succ_eq_map]
      simp only [List.map_cons, Nat.add_zero, List.map_map, Except.ok.injEq, List.cons.injEq, true_and]
      apply List.map_congr_left
      intro j _
      simp only [Function.comp, Nat.succ_eq_add_one]
      rw [show k + 1 + j = k + (j + 1) by omega]
    · rw [if_neg hk]
      simp only [State.xlen] at hk
      have : (s.cfg.xlen.sval imm - ↑k).toNat = 0 := by omega
      simp [this]

/-- The first argument slot that is not admitted decides the fault. -/
theorem prtfArgs_error (s : State) (imm : Word) (n k j : Nat) {e : Trap} (h₁ : k ≤ j) (h₂ : j < k + n)
    (h₃ : (j : Int) ≤ s.cfg.xlen.sval imm - 1) (h : ∀ i, k ≤ i → i < j → s.StackSlot (s.prtfSlot imm i))
    (hf : s.StackFault (s.prtfSlot imm j) e) :
    prtfArgs s (s.xlen.add s.sp (s.scaled imm)) imm n k = .error e := by
  induction n generalizing k with
  | zero => omega
  | succ n ih =>
    rw [prtfArgs, if_pos (by simp only [State.xlen]; omega), prtfSlot_eq]
    rcases Nat.eq_or_lt_of_le h₁ with rfl | hlt
    · simp [stackRead_error hf]
    · rw [stackRead_ok (h k le_rfl hlt), ok_bind, ih (k + 1) hlt (by omega) (fun i h₁ h₂ => h i (by omega) h₂)]
      rfl

end Sys2Proof.Machine
end

