-- ==== Sys2Proof/Laws/Effects.lean ====
section
/-! SUPPORT. Everything an instruction, and a step, can do to a state. -/

namespace Sys2Proof.Machine
variable {s t : State}

/-! ## What an instruction can do -/

/-- Everything an instruction can do to a state: take a fault other than IllegalOpcode; take OutOfBoundsAccess after a
host call (PRTF), which is recorded; end the run (EXIT); write registers, the host's record and one writable range; hand
out a host block (MALC). -/
inductive Effect (i : Instr) (s : State) : State → Prop where
  | fault (e : Trap) (code : e.code ≠ 1) (info : s.WordsFit → s.cfg.xlen.Fits e.info) : Effect i s (s.afterFault e)
  | hostFault (b : Word) (e : HostEvent) (answers : List HostAnswer) (op : i.hostOp = some .prtf)
      (info : s.cfg.xlen.Fits b) (record : e.op = .prtf ∧ e.result = none) :
      Effect i s { s.afterFault (.outOfBounds b) with events := e :: s.events, answers := answers }
  | exit (op : i = .exit) (slot : s.StackSlot s.sp) : Effect i s { s with runstate := 1, xval := s.word s.sp }
  | done (pc sp bp ax : Word) (events : List HostEvent) (answers : List HostAnswer) (a : Nat) (bs : List Byte)
      (writable : s.Writable a bs.length)
      (words : s.WordsFit → i.wf s.cfg.xlen = true →
        s.cfg.xlen.Fits pc ∧ s.cfg.xlen.Fits sp ∧ s.cfg.xlen.Fits bp ∧ s.cfg.xlen.Fits ax)
      (kept : (0 ∉ i.writes → pc = s.pc) ∧ (1 ∉ i.writes → sp = s.sp) ∧ (2 ∉ i.writes → bp = s.bp) ∧
        (3 ∉ i.writes → ax = s.ax))
      (host : (i.hostOp = none → events = s.events ∧ answers = s.answers) ∧
        ∀ op, i.hostOp = some op → ∃ e : HostEvent, events = e :: s.events ∧ e.op = op ∧ e.result = some ax) :
      Effect i s { s with pc := pc, sp := sp, bp := bp, ax := ax
                          mem := s.mem.writeBytes a bs, events := events, answers := answers }
  | block (pc ax : Word) (e : HostEvent) (answers : List HostAnswer) (size : Nat) (bs : List Byte) (op : i = .malc)
      (fits : bs.length ≤ size) (ok : blockOk s ax size = true) (words : s.cfg.xlen.Fits pc ∧ s.cfg.xlen.Fits ax)
      (record : e.op = .malc ∧ e.result = some ax) :
      Effect i s { s with pc := pc, ax := ax, blocks := { base := ax.toNat, size := size } :: s.blocks
                          mem := s.mem.writeBytes ax.toNat bs, events := e :: s.events, answers := answers }

theorem StackFault_code {a : Word} {e : Trap} (h : s.StackFault a e) : e.code ≠ 1 := by
  rcases h with ⟨_, rfl⟩ | ⟨_, _, rfl⟩ <;> simp [Trap.code]

theorem StackFault_info {a : Word} {e : Trap} (h : s.StackFault a e) : e.info = a := by
  rcases h with ⟨_, rfl⟩ | ⟨_, _, rfl⟩ <;> rfl

theorem cStrFrom_error_fits {a b : Word} {n : Nat} (ha : s.cfg.xlen.Fits a)
    (h : cStrFrom s a n = .error (.outOfBounds b)) : s.cfg.xlen.Fits b := by
  induction n generalizing a with
  | zero => cases h; exact ha
  | succ n ih =>
    rw [cStrFrom_succ] at h
    split at h
    · split at h
      · cases h
      · cases hc : cStrFrom s (s.cfg.xlen.add a 1) n with
        | ok r => rw [hc] at h; cases h
        | error e' => rw [hc] at h; cases h; exact ih (s.cfg.xlen.fits_add _ _) hc
    · cases h; exact ha

/-- A string fault names an address of XLEN bits. -/
theorem cStr_error_inv {a : Word} {e : Trap} (ha : s.cfg.xlen.Fits a) (h : cStr s a = .error e) :
    ∃ b, e = .outOfBounds b ∧ s.cfg.xlen.Fits b := by
  obtain ⟨b, rfl⟩ := cStr_error h
  exact ⟨b, rfl, cStrFrom_error_fits ha h⟩

/-- An effect that leaves memory and the host's record alone. -/
theorem Effect.regs {i : Instr} (pc sp bp ax : Word)
    (words : s.WordsFit → i.wf s.cfg.xlen = true →
      s.cfg.xlen.Fits pc ∧ s.cfg.xlen.Fits sp ∧ s.cfg.xlen.Fits bp ∧ s.cfg.xlen.Fits ax)
    (kept : (0 ∉ i.writes → pc = s.pc) ∧ (1 ∉ i.writes → sp = s.sp) ∧ (2 ∉ i.writes → bp = s.bp) ∧
      (3 ∉ i.writes → ax = s.ax))
    (h : i.hostOp = none) : Effect i s { s with pc := pc, sp := sp, bp := bp, ax := ax } := by
  have := Effect.done (i := i) (s := s) pc sp bp ax s.events s.answers 0 [] (.inl rfl) words kept
    ⟨fun _ => ⟨rfl, rfl⟩, fun op ho => by simp [h] at ho⟩
  simpa using this

/-- An effect that writes memory and leaves the host's record alone. -/
theorem Effect.store {i : Instr} (pc sp bp ax : Word) (a : Nat) (bs : List Byte) (writable : s.Writable a bs.length)
    (words : s.WordsFit → i.wf s.cfg.xlen = true →
      s.cfg.xlen.Fits pc ∧ s.cfg.xlen.Fits sp ∧ s.cfg.xlen.Fits bp ∧ s.cfg.xlen.Fits ax)
    (kept : (0 ∉ i.writes → pc = s.pc) ∧ (1 ∉ i.writes → sp = s.sp) ∧ (2 ∉ i.writes → bp = s.bp) ∧
      (3 ∉ i.writes → ax = s.ax))
    (h : i.hostOp = none) :
    Effect i s { s with pc := pc, sp := sp, bp := bp, ax := ax, mem := s.mem.writeBytes a bs } :=
  Effect.done (i := i) (s := s) pc sp bp ax s.events s.answers a bs writable words kept
    ⟨fun _ => ⟨rfl, rfl⟩, fun op ho => by simp [h] at ho⟩

/-- A stack slot may be written. -/
theorem StackSlot_writable {a : Word} (h : s.StackSlot a) : s.Writable a.toNat s.cfg.xlen.bytes :=
  .inr (.inr (.inl ⟨h.2.1, h.2.2⟩))

/-- An operator's effect, where its result function keeps to XLEN bits and faults with ArithmeticFault alone. -/
theorem binary_effect {i : Instr} {f : Xlen → Word → Word → Except Trap Word} (hw : i.writes = [0, 1, 3])
    (hh : i.hostOp = none) (hf : ∀ x l r v, x.Fits l → x.Fits r → f x l r = .ok v → x.Fits v)
    (he : ∀ x l r e, f x l r = .error e → e = .arithmetic) (h : finish s (binary s f) = .next t) : Effect i s t := by
  rcases binary_cases s f with ⟨_, v, h₁, h₂⟩ | ⟨_, e, h₁, h₂⟩ | ⟨e, h₁, h₂⟩
  · rw [h₂] at h; cases h
    exact Effect.regs s.next1 (s.slot s.sp 1) s.bp v
      (fun hs _ => ⟨s.fits_slot _ _, s.fits_slot _ _, hs.2.2.1, hf _ _ _ _ (s.fits_word _) hs.2.2.2.1 h₁⟩)
      (by simp [hw]) hh
  · rw [h₂] at h; cases h; cases he _ _ _ _ h₁
    exact .fault _ (by decide) fun _ => s.cfg.xlen.fits_zero
  · rw [h₂] at h; cases h
    exact .fault _ (StackFault_code h₁) fun hs => by rw [StackFault_info h₁]; exact hs.2.1

theorem fits_truthWord (x : Xlen) (b : Bool) : x.Fits (truthWord b) := by
  cases b <;> cases x <;> decide

theorem stack_fault_effect {i : Instr} {a : Word} {e : Trap} (h : s.StackFault a e)
    (ha : s.WordsFit → s.cfg.xlen.Fits a) : Effect i s (s.afterFault e) :=
  .fault _ (StackFault_code h) fun hs => by rw [StackFault_info h]; exact ha hs

theorem access_fault_effect {i : Instr} {a : Word} {n : Width} {k : Access} {e : Trap}
    (h : accessCheck s a n k = .error e) (ha : s.WordsFit → s.cfg.xlen.Fits a) : Effect i s (s.afterFault e) := by
  rcases accessCheck_error h with rfl | rfl <;> exact .fault _ (by simp [Trap.code]) ha

theorem popStore_effect {i : Instr} {n : Width} (hw : i.writes = [0, 1]) (hh : i.hostOp = none)
    (h : finish s (popStore s n) = .next t) : Effect i s t := by
  rcases s.stackSlot_or_fault s.sp with hs | ⟨e, hs⟩
  · cases hc : accessCheck s (s.word s.sp) n .write with
    | ok u =>
      have hi := accessCheck_inv hc
      have hr := (rangeOk_write _ _ _).1 hi.2
      rw [popStore_ok hs hi.1 hr] at h; cases h
      refine Effect.store s.next1 (s.slot s.sp 1) s.bp s.ax (s.word s.sp).toNat
        ((wordBytes s.cfg.xlen s.ax).take (n.bytes s.cfg.xlen)) ?_
        (fun hs _ => ⟨s.fits_slot _ _, s.fits_slot _ _, hs.2.2.1, hs.2.2.2.1⟩) (by simp [hw]) hh
      have : ((wordBytes s.cfg.xlen s.ax).take (n.bytes s.cfg.xlen)).length = n.bytes s.cfg.xlen := by
        have := s.cfg.xlen.bytes_pos
        cases n <;> simp [Width.bytes]; omega
      rw [this]; exact hr
    | error e =>
      rw [popStore_fault hs hc] at h; cases h
      exact access_fault_effect hc fun _ => s.fits_word _
  · rw [popStore_error n hs] at h; cases h
    exact stack_fault_effect hs fun hs => hs.2.1

/-- A chain of stack reads: the first that faults decides, or the rest follows. -/
theorem arg_bind_effect {i : Instr} {k : Nat} {f : Word → Except Trap State}
    (h : finish s (arg s k >>= f) = .next t)
    (hf : s.StackSlot (s.slot s.sp k) → finish s (f (s.word (s.slot s.sp k))) = .next t → Effect i s t) :
    Effect i s t := by
  rcases stackRead_cases s (s.slot s.sp k) with ⟨h₁, h₂⟩ | ⟨e, h₁, h₂⟩
  · rw [arg_eq, h₂] at h; exact hf h₁ h
  · rw [arg_eq, h₂] at h; cases h
    exact stack_fault_effect h₁ fun _ => s.fits_slot _ _

theorem host_effect {i : Instr} (pc ax : Word) (e : HostEvent) (answers : List HostAnswer) (a : Nat) (bs : List Byte)
    (writable : s.Writable a bs.length) (hpc : s.cfg.xlen.Fits pc) (hax : s.cfg.xlen.Fits ax)
    (hw : i.writes = [0, 3]) (ho : i.hostOp = some e.op) (hr : e.result = some ax) :
    Effect i s { s with pc := pc, ax := ax, mem := s.mem.writeBytes a bs
                        events := e :: s.events, answers := answers } :=
  .done pc s.sp s.bp ax (e :: s.events) answers a bs writable (fun hs _ => ⟨hpc, hs.2.1, hs.2.2.1, hax⟩)
    (by simp [hw]) ⟨fun h => by simp [h] at ho, fun op h => ⟨e, rfl, by rw [ho] at h; simpa using h, hr⟩⟩

theorem imm_fits {i : Instr} {v : Word} {x : Xlen} (h : i.wf x = true) (hv : i.operand = some v) : x.Fits v := by
  simpa [Instr.wf, hv] using h

theorem fits_readAnswer (x : Xlen) (n : Nat) (a : HostAnswer) : x.Fits (readAnswer x n a).1 := by
  unfold readAnswer; split
  · exact x.fits_narrow _
  · exact x.fits_word _

theorem length_readAnswer (x : Xlen) (n : Nat) (a : HostAnswer) : (readAnswer x n a).2.length ≤ n := by
  unfold readAnswer; split
  · simp
  · simp

theorem Writable_mono {a n m : Nat} (h : s.Writable a n) (hm : m ≤ n) : s.Writable a m := by
  rcases h with h | h | h | ⟨b, hb, h⟩
  · left; omega
  · right; left; omega
  · right; right; left; omega
  · right; right; right; exact ⟨b, hb, by omega⟩

theorem fits_mcmpResult (x : Xlen) (p q : Byte) (a : HostAnswer) : x.Fits (mcmpResult x p q a) := by
  unfold mcmpResult negativeWord positiveWord
  split <;> split <;> first | exact x.fits_narrow _ | exact x.fits_wordInt _ | exact x.fits_word _

theorem fits_prtfResult (x : Xlen) (fmt : List Byte) (a : HostAnswer) : x.Fits (prtfResult x fmt a) := by
  unfold prtfResult; split
  · exact x.fits_word _
  · exact x.fits_narrow _

theorem fits_malcAnswer (s : State) (n : Nat) (a : HostAnswer) : s.cfg.xlen.Fits (malcAnswer s n a) := by
  unfold malcAnswer; split
  · exact s.cfg.xlen.fits_narrow _
  · exact s.cfg.xlen.fits_zero

theorem prtfArgs_error_inv {t imm : Word} {n k : Nat} {e : Trap} (h : prtfArgs s t imm n k = .error e) :
    ∃ a, s.StackFault a e ∧ s.cfg.xlen.Fits a := by
  induction n generalizing k with
  | zero => cases h
  | succ n ih =>
    rw [prtfArgs] at h
    split at h
    · rcases bind_error h with h | ⟨w, _, h⟩
      · exact ⟨_, stackRead_error_inv h, s.cfg.xlen.fits_sub _ _⟩
      · rcases bind_error h with h | ⟨r, _, h⟩
        · exact ih h
        · cases h
    · cases h

theorem prtfArgs_fits {t imm : Word} {n k : Nat} {ws : List Word} (h : prtfArgs s t imm n k = .ok ws) :
    ∀ w ∈ ws, s.cfg.xlen.Fits w := by
  induction n generalizing k ws with
  | zero => cases h; simp
  | succ n ih =>
    rw [prtfArgs] at h
    split at h
    · obtain ⟨w, h₁, h₂⟩ := bind_ok h
      obtain ⟨r, h₃, h₄⟩ := bind_ok h₂
      cases h₄
      intro v hv
      rcases List.mem_cons.1 hv with rfl | hv
      · rw [(stackRead_inv h₁).2]; exact s.fits_word _
      · exact ih h₃ v hv
    · cases h; simp

/-- When the host's string read faults: the format has a `%`, the answer names a forwarded argument, and CStr fails
there with that fault. -/
theorem prtfStringFault_eq_some {fmt : List Byte} {args : List Word} {a : HostAnswer} {w : Word} {e : Trap} :
    prtfStringFault s fmt args a = some (w, e) ↔
      hasPercent fmt = true ∧ (∃ k, a.stringFault = some k ∧ args[k]? = some w) ∧ cStr s w = .error e := by
  constructor
  · intro h
    unfold prtfStringFault at h
    split at h
    · cases h
    · next k hk =>
      split at h
      · next v hp hv =>
        split at h
        · cases h
        · next hc => cases h; exact ⟨hp, ⟨k, hk, hv⟩, hc⟩
      · cases h
  · rintro ⟨hp, ⟨k, hk, hw⟩, hc⟩
    simp [prtfStringFault, hk, hp, hw, hc]

/-- The fault of a string argument is OutOfBoundsAccess at an address of XLEN bits. -/
theorem stringArgumentTrap_inv {w b : Word} (hw : s.cfg.xlen.Fits w) (hb : s.cfg.xlen.Fits b) :
    ∃ c, stringArgumentTrap s w (.outOfBounds b) = .outOfBounds c ∧ s.cfg.xlen.Fits c ∧
      (s.cfg.stringFaultXval = .firstUnreadable → c = b) ∧ (s.cfg.stringFaultXval = .argument → c = w) := by
  cases h : s.cfg.stringFaultXval with
  | firstUnreadable => exact ⟨b, by simp [stringArgumentTrap, h], hb, fun _ => rfl, fun h' => by cases h'⟩
  | argument => exact ⟨w, by simp [stringArgumentTrap, h], hw, (fun h' => by cases h'), fun _ => rfl⟩

/-- The host reads readable bytes, and what stands there. -/
theorem mem_hostReads {l : List Word} {c : Host.Cell} (h : c ∈ hostReads s l) : s.Readable c.1 1 ∧ c.2 = s.byte c.1 := by
  simp only [hostReads, List.mem_map, List.mem_filter, rangeOk_read] at h
  obtain ⟨a, ⟨_, ha⟩, rfl⟩ := h
  exact ⟨ha, rfl⟩

theorem prtfSlot_zero (s : State) (v : Word) :
    s.xlen.sub (s.xlen.add s.sp (s.scaled v)) s.xlen.wb = s.prtfSlot v 0 := by
  simp [State.prtfSlot, Xlen.wb]

/-- Every instruction's end is one of the five effects. -/
theorem exec_effect {i : Instr} (h : exec i s = .next t) : Effect i s t := by
  cases i with
  | imm v =>
    cases h
    exact Effect.regs s.next2 s.sp s.bp v (fun hs hi => ⟨s.fits_slot _ _, hs.2.1, hs.2.2.1, imm_fits hi rfl⟩)
      (by simp [Instr.writes]) rfl
  | lea v =>
    cases h
    exact Effect.regs s.next2 s.sp s.bp (s.xlen.add s.bp (s.scaled v))
      (fun hs hi => ⟨s.fits_slot _ _, hs.2.1, hs.2.2.1, s.xlen.fits_add _ _⟩) (by simp [Instr.writes]) rfl
  | jmp v =>
    cases h
    exact Effect.regs v s.sp s.bp s.ax (fun hs hi => ⟨imm_fits hi rfl, hs.2.1, hs.2.2.1, hs.2.2.2.1⟩)
      (by simp [Instr.writes]) rfl
  | jz v =>
    cases h
    exact Effect.regs (if axIsZero s then v else s.next2) s.sp s.bp s.ax
      (fun hs hi => ⟨by split; exact imm_fits hi rfl; exact s.fits_slot _ _, hs.2.1, hs.2.2.1, hs.2.2.2.1⟩)
      (by simp [Instr.writes]) rfl
  | jnz v =>
    cases h
    exact Effect.regs (if axIsZero s then s.next2 else v) s.sp s.bp s.ax
      (fun hs hi => ⟨by split; exact s.fits_slot _ _; exact imm_fits hi rfl, hs.2.1, hs.2.2.1, hs.2.2.2.1⟩)
      (by simp [Instr.writes]) rfl
  | call v =>
    rcases push_cases s s.next2 with ⟨h₁, h₂⟩ | ⟨e, h₁, h₂⟩ <;> simp only [exec, execCall, h₂] at h <;> cases h
    · exact Effect.store v s.pushSlot s.bp s.ax s.pushSlot.toNat (wordBytes s.cfg.xlen s.next2)
        (by rw [length_wordBytes]; exact StackSlot_writable h₁)
        (fun hs hi => ⟨imm_fits hi rfl, s.fits_pushSlot, hs.2.2.1, hs.2.2.2.1⟩) (by simp [Instr.writes]) rfl
    · exact stack_fault_effect h₁ fun _ => s.fits_pushSlot
  | ent v =>
    rcases push_cases s s.bp with ⟨h₁, h₂⟩ | ⟨e, h₁, h₂⟩ <;> simp only [exec, execEnt, h₂] at h <;> cases h
    · exact Effect.store s.next2 (s.xlen.sub s.pushSlot (s.scaled v)) s.pushSlot s.ax s.pushSlot.toNat
        (wordBytes s.cfg.xlen s.bp) (by rw [length_wordBytes]; exact StackSlot_writable h₁)
        (fun hs hi => ⟨s.fits_slot _ _, s.xlen.fits_sub _ _, s.fits_pushSlot, hs.2.2.2.1⟩) (by simp [Instr.writes]) rfl
    · exact stack_fault_effect h₁ fun _ => s.fits_pushSlot
  | adj v =>
    cases h
    exact Effect.regs s.next2 (s.xlen.add s.sp (s.scaled v)) s.bp s.ax
      (fun hs hi => ⟨s.fits_slot _ _, s.xlen.fits_add _ _, hs.2.2.1, hs.2.2.2.1⟩) (by simp [Instr.writes]) rfl
  | lev =>
    rcases stackRead_cases s s.bp with ⟨h₁, h₂⟩ | ⟨e, h₁, h₂⟩ <;> simp only [exec, execLev, h₂] at h
    · rcases stackRead_cases s (s.slot s.bp 1) with ⟨h₃, h₄⟩ | ⟨e, h₃, h₄⟩ <;> simp only [ok_bind, h₄] at h <;> cases h
      · exact Effect.regs (s.word (s.slot s.bp 1)) (s.slot s.bp 2) (s.word s.bp) s.ax
          (fun hs _ => ⟨s.fits_word _, s.fits_slot _ _, s.fits_word _, hs.2.2.2.1⟩) (by simp [Instr.writes]) rfl
      · exact stack_fault_effect h₃ fun _ => s.fits_slot _ _
    · cases h
      exact stack_fault_effect h₁ fun hs => hs.2.2.1
  | li =>
    cases hc : accessCheck s s.ax .word .read with
    | ok u =>
      simp only [exec, execLi, memRead_of_check hc] at h; cases h
      exact Effect.regs s.next1 s.sp s.bp (loadAt s s.ax .word)
        (fun hs _ => ⟨s.fits_slot _ _, hs.2.1, hs.2.2.1, fits_loadAt _ _ _⟩) (by simp [Instr.writes]) rfl
    | error e =>
      simp only [exec, execLi, memRead_error_of_check hc] at h; cases h
      exact access_fault_effect hc fun hs => hs.2.2.2.1
  | lc =>
    cases hc : accessCheck s s.ax .byte .read with
    | ok u =>
      simp only [exec, execLc, memRead_of_check hc] at h; cases h
      exact Effect.regs s.next1 s.sp s.bp (extendByte s ((loadAt s s.ax .byte).setWidth 8))
        (fun hs _ => ⟨s.fits_slot _ _, hs.2.1, hs.2.2.1, by unfold extendByte; split <;> exact s.cfg.xlen.fits_put _⟩)
        (by simp [Instr.writes]) rfl
    | error e =>
      simp only [exec, execLc, memRead_error_of_check hc] at h; cases h
      exact access_fault_effect hc fun hs => hs.2.2.2.1
  | si => exact popStore_effect rfl rfl h
  | sc => exact popStore_effect rfl rfl h
  | push =>
    rcases push_cases s s.ax with ⟨h₁, h₂⟩ | ⟨e, h₁, h₂⟩ <;> simp only [exec, execPush, h₂] at h <;> cases h
    · exact Effect.store s.next1 s.pushSlot s.bp s.ax s.pushSlot.toNat (wordBytes s.cfg.xlen s.ax)
        (by rw [length_wordBytes]; exact StackSlot_writable h₁)
        (fun hs _ => ⟨s.fits_slot _ _, s.fits_pushSlot, hs.2.2.1, hs.2.2.2.1⟩) (by simp [Instr.writes]) rfl
    · exact stack_fault_effect h₁ fun _ => s.fits_pushSlot
  | or => exact binary_effect rfl rfl (fun x l r v _ _ h => by cases h; exact x.fits_put _) (fun x l r e h => by cases h) h
  | xor => exact binary_effect rfl rfl (fun x l r v _ _ h => by cases h; exact x.fits_put _) (fun x l r e h => by cases h) h
  | and => exact binary_effect rfl rfl (fun x l r v _ _ h => by cases h; exact x.fits_put _) (fun x l r e h => by cases h) h
  | eq => exact binary_effect rfl rfl (fun x l r v _ _ h => by cases h; exact fits_truthWord x _) (fun x l r e h => by cases h) h
  | ne => exact binary_effect rfl rfl (fun x l r v _ _ h => by cases h; exact fits_truthWord x _) (fun x l r e h => by cases h) h
  | lt => exact binary_effect rfl rfl (fun x l r v _ _ h => by cases h; exact fits_truthWord x _) (fun x l r e h => by cases h) h
  | gt => exact binary_effect rfl rfl (fun x l r v _ _ h => by cases h; exact fits_truthWord x _) (fun x l r e h => by cases h) h
  | le => exact binary_effect rfl rfl (fun x l r v _ _ h => by cases h; exact fits_truthWord x _) (fun x l r e h => by cases h) h
  | ge => exact binary_effect rfl rfl (fun x l r v _ _ h => by cases h; exact fits_truthWord x _) (fun x l r e h => by cases h) h
  | shl =>
    exact binary_effect rfl rfl (fun x l r v _ _ h => by unfold aluShl at h; split at h <;> cases h; exact x.fits_put _)
      (fun x l r e h => by unfold aluShl at h; split at h <;> cases h; rfl) h
  | shr =>
    exact binary_effect rfl rfl (fun x l r v _ _ h => by unfold aluShr at h; split at h <;> cases h; exact x.fits_put _)
      (fun x l r e h => by unfold aluShr at h; split at h <;> cases h; rfl) h
  | add => exact binary_effect rfl rfl (fun x l r v _ _ h => by cases h; exact x.fits_put _) (fun x l r e h => by cases h) h
  | sub => exact binary_effect rfl rfl (fun x l r v _ _ h => by cases h; exact x.fits_put _) (fun x l r e h => by cases h) h
  | mul => exact binary_effect rfl rfl (fun x l r v _ _ h => by cases h; exact x.fits_put _) (fun x l r e h => by cases h) h
  | div =>
    exact binary_effect rfl rfl (fun x l r v _ _ h => by unfold aluDiv at h; split at h <;> cases h; exact x.fits_put _)
      (fun x l r e h => by unfold aluDiv at h; split at h <;> cases h; rfl) h
  | mod =>
    exact binary_effect rfl rfl (fun x l r v _ _ h => by unfold aluMod at h; split at h <;> cases h; exact x.fits_put _)
      (fun x l r e h => by unfold aluMod at h; split at h <;> cases h; rfl) h
  | exit =>
    rcases stackRead_cases s s.sp with ⟨h₁, h₂⟩ | ⟨e, h₁, h₂⟩ <;> simp only [exec, execExit, h₂] at h <;> cases h
    · exact .exit rfl h₁
    · exact stack_fault_effect h₁ fun hs => hs.2.1
  | opn =>
    refine arg_bind_effect h fun _ h => arg_bind_effect h fun _ h => ?_
    cases hc : cStr s (s.word (s.slot s.sp 1)) with
    | ok str =>
      rw [hc] at h; cases h
      exact host_effect _ _ _ _ 0 [] (.inl rfl) (s.fits_slot _ _) (s.cfg.xlen.fits_narrow _) rfl (by rfl) (by rfl)
    | error e =>
      rw [hc] at h; cases h
      obtain ⟨b, rfl, hb⟩ := cStr_error_inv (s.fits_word _) hc
      exact .fault _ (by simp [Trap.code]) fun _ => hb
  | clos =>
    refine arg_bind_effect h fun _ h => ?_
    cases h
    exact host_effect _ _ _ _ 0 [] (.inl rfl) (s.fits_slot _ _) (s.cfg.xlen.fits_narrow _) rfl (by rfl) (by rfl)
  | read =>
    refine arg_bind_effect h fun _ h => arg_bind_effect h fun _ h => arg_bind_effect h fun _ h => ?_
    split at h
    · cases h
      exact .fault _ (by simp [Trap.code]) fun _ => s.fits_word _
    · next hr =>
      have hr := (rangeOk_write _ _ _).1 (by simpa using hr)
      cases h
      exact host_effect _ _ _ _ _ _ (Writable_mono hr (length_readAnswer _ _ _)) (s.fits_slot _ _)
        (fits_readAnswer _ _ _) rfl (by rfl) (by rfl)
  | prtf v =>
    simp only [exec, execPrtf] at h
    rcases stackRead_cases s (s.prtfSlot v 0) with ⟨h₁, h₂⟩ | ⟨e, h₁, h₂⟩
    · rw [prtfSlot_zero, h₂] at h
      cases ha : prtfArgs s (s.xlen.add s.sp (s.scaled v)) v 5 1 with
      | error e =>
        rw [ha] at h; cases h
        obtain ⟨a, h₃, h₄⟩ := prtfArgs_error_inv ha
        exact stack_fault_effect h₃ fun _ => h₄
      | ok args =>
        rw [ha] at h
        cases hc : cStr s (s.word (s.prtfSlot v 0)) with
        | error e =>
          rw [ok_bind, ok_bind, hc] at h; cases h
          obtain ⟨b, rfl, hb⟩ := cStr_error_inv (s.fits_word _) hc
          exact .fault _ (by simp [Trap.code]) fun _ => hb
        | ok fmt =>
          rw [ok_bind, ok_bind, hc, ok_bind] at h
          split at h
          · next w e hp =>
            obtain ⟨_, ⟨k, _, hw⟩, hc⟩ := prtfStringFault_eq_some.1 hp
            have hf := prtfArgs_fits ha w (List.mem_of_getElem? hw)
            obtain ⟨b, rfl, hb⟩ := cStr_error_inv hf hc
            obtain ⟨c, he, hc, _⟩ := stringArgumentTrap_inv hf hb
            rw [he] at h; cases h
            exact .hostFault c _ _ rfl hc ⟨rfl, rfl⟩
          · cases h
            exact host_effect _ _ _ _ 0 [] (.inl rfl) (s.fits_slot _ _) (fits_prtfResult _ _ _) rfl (by rfl) (by rfl)
    · rw [prtfSlot_zero, h₂] at h; cases h
      exact stack_fault_effect h₁ fun _ => s.xlen.fits_sub _ _
  | malc =>
    refine arg_bind_effect h fun _ h => ?_
    by_cases hz : malcAnswer s (s.word (s.slot s.sp 0)).toNat (hostAsk s
      { op := .malc, args := [s.word (s.slot s.sp 0)], sent := [], readable := [] }) = 0
    · simp only [if_pos hz] at h; cases h
      exact host_effect _ _ _ _ 0 [] (.inl rfl) (s.fits_slot _ _) (fits_malcAnswer _ _ _) rfl (by rfl) (by rfl)
    · simp only [if_neg hz] at h; cases h
      refine .block _ _ _ _ _ _ rfl (by simp) ?_ ⟨s.fits_slot _ _, fits_malcAnswer _ _ _⟩ ⟨rfl, rfl⟩
      unfold malcAnswer at hz ⊢
      split at hz
      · next hb => rw [if_pos hb]; exact hb
      · exact absurd rfl hz
  | mset =>
    refine arg_bind_effect h fun _ h => arg_bind_effect h fun _ h => arg_bind_effect h fun _ h => ?_
    split at h
    · cases h
      exact .fault _ (by simp [Trap.code]) fun _ => s.fits_word _
    · next hr =>
      have hr := (rangeOk_write _ _ _).1 (by simpa using hr)
      cases h
      exact host_effect _ _ _ _ _ _ (by simpa using hr) (s.fits_slot _ _) (s.fits_word _) rfl (by rfl) (by rfl)
  | mcmp =>
    refine arg_bind_effect h fun _ h => arg_bind_effect h fun _ h => arg_bind_effect h fun _ h => ?_
    split at h
    · cases h
      exact .fault _ (by simp [Trap.code]) fun _ => s.fits_word _
    · split at h
      · cases h
        exact .fault _ (by simp [Trap.code]) fun _ => s.fits_word _
      · split at h
        · cases h
          exact host_effect _ _ _ _ 0 [] (.inl rfl) (s.fits_slot _ _) s.cfg.xlen.fits_zero rfl (by rfl) (by rfl)
        · cases h
          exact host_effect _ _ _ _ 0 [] (.inl rfl) (s.fits_slot _ _) (fits_mcmpResult _ _ _ _) rfl (by rfl) (by rfl)

/-- A fetch that fails faults with the two address faults. -/
theorem fetch_error {a : Word} {e : Trap} (h : fetch s a = .error e) : e = .misaligned a ∨ e = .outOfBounds a := by
  by_cases ha : a.toNat % s.cfg.xlen.bytes = 0
  · by_cases hb : s.TextWord a
    · simp [fetch_ok hb] at h
    · rw [fetch_outside ha hb] at h; cases h; exact .inr rfl
  · rw [fetch_misaligned ha] at h; cases h; exact .inl rfl

/-- The faults of fetch and decode. -/
theorem fetchInstr_error {e : Trap} (h : fetchInstr s = .error e) :
    (s.TextWord s.pc ∧ formatOf (s.word s.pc) = none ∧ e = .illegalOpcode (s.word s.pc)) ∨
    ∃ a, (a = s.pc ∨ a = s.slot s.pc 1) ∧ (e = .misaligned a ∨ e = .outOfBounds a) := by
  rcases bind_error h with h | ⟨op, h₁, h₂⟩
  · exact .inr ⟨_, .inl rfl, fetch_error h⟩
  · obtain ⟨ht, rfl⟩ := fetch_inv h₁
    split at h₂
    · next hf => cases h₂; exact .inl ⟨ht, hf, rfl⟩
    · cases h₂
    · rcases bind_error h₂ with h | ⟨v, _, h₄⟩
      · exact .inr ⟨_, .inr rfl, fetch_error h⟩
      · cases h₄

theorem formatOf_none {op : Word} (h : formatOf op = none) : op ≠ 0 := by
  rintro rfl; cases h

/-- Everything a step can do: it is a Running core's, and it takes a fetch or decode fault or has an instruction's
effect. -/
theorem step_cases (h : step s = .next t) :
    s.Running ∧ ((∃ e, fetchInstr s = .error e ∧ t = s.afterFault e) ∨
      ∃ i, fetchInstr s = .ok i ∧ i.wf s.cfg.xlen = true ∧ exec i s = .next t ∧ Effect i s t) := by
  unfold step at h
  split at h
  · next hr =>
    refine ⟨hr, ?_⟩
    split at h
    · next i hi => exact .inr ⟨i, hi, fetchInstr_wf hi, h, exec_effect h⟩
    · next e he => cases h; exact .inl ⟨e, he, rfl⟩
  · cases h

end Sys2Proof.Machine
end

