-- ==== Sys2Proof/Laws/PerInstr.lean ====
section
/-! SUPPORT. Per-instruction statements: the opcode table holds every instruction's row. -/

namespace Sys2Proof.Laws.TableRow

/-- The row that an instruction's number selects is the instruction's own: its format, and for an F1 instruction the
constructor that takes the operand word. -/
def Statement (i : Instr) : Prop :=
  match i.operand with
  | none => opcodeTable.lookup i.number = some (.f0 i)
  | some v => ∃ mk, opcodeTable.lookup i.number = some (.f1 mk) ∧ mk v = i

theorem lea (v : Word) : Statement (.lea v) := ⟨_, rfl, rfl⟩

theorem imm (v : Word) : Statement (.imm v) := ⟨_, rfl, rfl⟩

theorem jmp (v : Word) : Statement (.jmp v) := ⟨_, rfl, rfl⟩

theorem call (v : Word) : Statement (.call v) := ⟨_, rfl, rfl⟩

theorem jz (v : Word) : Statement (.jz v) := ⟨_, rfl, rfl⟩

theorem jnz (v : Word) : Statement (.jnz v) := ⟨_, rfl, rfl⟩

theorem ent (v : Word) : Statement (.ent v) := ⟨_, rfl, rfl⟩

theorem adj (v : Word) : Statement (.adj v) := ⟨_, rfl, rfl⟩

theorem lev : Statement .lev := rfl

theorem li : Statement .li := rfl

theorem lc : Statement .lc := rfl

theorem si : Statement .si := rfl

theorem sc : Statement .sc := rfl

theorem push : Statement .push := rfl

theorem or : Statement .or := rfl

theorem xor : Statement .xor := rfl

theorem and : Statement .and := rfl

theorem eq : Statement .eq := rfl

theorem ne : Statement .ne := rfl

theorem lt : Statement .lt := rfl

theorem gt : Statement .gt := rfl

theorem le : Statement .le := rfl

theorem ge : Statement .ge := rfl

theorem shl : Statement .shl := rfl

theorem shr : Statement .shr := rfl

theorem add : Statement .add := rfl

theorem sub : Statement .sub := rfl

theorem mul : Statement .mul := rfl

theorem div : Statement .div := rfl

theorem mod : Statement .mod := rfl

theorem opn : Statement .opn := rfl

theorem read : Statement .read := rfl

theorem clos : Statement .clos := rfl

theorem prtf (v : Word) : Statement (.prtf v) := ⟨_, rfl, rfl⟩

theorem malc : Statement .malc := rfl

theorem mset : Statement .mset := rfl

theorem mcmp : Statement .mcmp := rfl

theorem exit : Statement .exit := rfl

end Sys2Proof.Laws.TableRow
end

