-- ==== Sys2Proof/Tests/Slice0.lean ====
section
/-! SUPPORT. Tests of the model against spec 95_test_vectors.md (the row is named in each docstring) and, for every
statement with hypotheses, a state and operands that meet them. -/

namespace Sys2Proof.Tests
open Sys2Proof.Machine Sys2Proof.Claims

/-! ## Helpers -/

/-- The reset state with the given words on the stack, the first on top. -/
def stacked (ws : List Word) : State :=
  { State.reset with
    sp := 0x340000 - BitVec.ofNat 64 (8 * ws.length)
    mem := Memory.writeBytes [] (0x340000 - 8 * ws.length) (ws.flatMap (wordBytes .x64)) }

/-- Bytes placed from an address upward. -/
def placed (s : State) (a : Nat) (bs : List Byte) : State := s.setMem (s.mem.writeBytes a bs)

/-- An answer of the host with a result word and nothing else. -/
def answer (r : Word) : HostAnswer := { result := r, bytes := [], reads := [], stringFault := none }

/-- The state after an outcome. -/
def after : Host.Outcome State Fault Refusal → State
  | .next t => t
  | _ => State.reset

/-- What one step that runs the given table word shows of the state after it. -/
def stepping {α : Type} (s : State) (nbits w : Nat) (f : State → α) : α := f (after (step (s.withFetchWord nbits w)))

/-- ax, sp, bp and pc. -/
def regs (s : State) : Word × Word × Word × Word := (s.ax, s.sp, s.bp, s.pc)

/-- RUNSTATE, CAUSE, XVAL, ax, sp and pc. -/
def status (s : State) : BitVec 2 × BitVec 3 × Word × Word × Word × Word :=
  (s.runstate, s.cause, s.xval, s.ax, s.sp, s.pc)

/-- An operator at P = 0x100000 with left operand `l` on the stack: ax, sp and pc after it, or the fault's registers. -/
def operator (op : Nat) (l r : Word) : BitVec 2 × BitVec 3 × Word × Word × Word × Word :=
  stepping { stacked [l] with ax := r } 64 op status

/-- The registers an operator that completes leaves. -/
def result (v : Word) : BitVec 2 × BitVec 3 × Word × Word × Word × Word := (0, 0, 0, v, 0x340000, 0x100008)

/-- The registers an operator that raises ArithmeticFault leaves. -/
def arithmetic (r : Word) : BitVec 2 × BitVec 3 × Word × Word × Word × Word := (2, 2, 0, r, 0x33FFF8, 0x100000)

/-! ## Well-formedness: the check refuses an operand wider than a word (R80, R82) -/

theorem test_wf_accepts_widest : (Instr.imm 0xFFFFFFFFFFFFFFFF).wf .x64 = true ∧ (Instr.imm 0xFFFFFFFF).wf .x32 = true := by
  decide

theorem test_wf_refuses_wide_operand : (Instr.imm 0x100000000).wf .x32 = false := by decide

theorem test_wf_refuses_wide_operand_of_each :
    ([Instr.lea, Instr.jmp, Instr.call, Instr.jz, Instr.jnz, Instr.ent, Instr.adj, Instr.prtf].map
      fun mk => (mk 0x100000000).wf .x32) = List.replicate 8 false := by
  decide

/-! ## Decoding: words written out from R81, R82, R86 -/

/-- Bits 63..0 the opcode word, bits 127..64 the operand word. -/
theorem test_decode_two_word_rows :
    [0x000000000000000A0000000000000000, 0x000000000000000A0000000000000001, 0x000000000000000A0000000000000002,
     0x000000000000000A0000000000000003, 0x000000000000000A0000000000000004, 0x000000000000000A0000000000000005,
     0x000000000000000A0000000000000006, 0x000000000000000A0000000000000007,
     0x00000000000000030000000000000021].map (decodeTableWord 128) =
    [some (.lea 10), some (.imm 10), some (.jmp 10), some (.call 10), some (.jz 10), some (.jnz 10), some (.ent 10),
     some (.adj 10), some (.prtf 3)] := by
  decide

theorem test_decode_memory_rows :
    [0x08, 0x09, 0x0A, 0x0B, 0x0C, 0x0D].map (decodeTableWord 64) =
    [some .lev, some .li, some .lc, some .si, some .sc, some .push] := by
  decide

theorem test_decode_operators :
    [0x0E, 0x0F, 0x10, 0x11, 0x12, 0x13, 0x14, 0x15, 0x16, 0x17, 0x18, 0x19, 0x1A, 0x1B, 0x1C, 0x1D].map
      (decodeTableWord 64) =
    [some .or, some .xor, some .and, some .eq, some .ne, some .lt, some .gt, some .le, some .ge, some .shl, some .shr,
     some .add, some .sub, some .mul, some .div, some .mod] := by
  decide

theorem test_decode_host_rows :
    [0x1E, 0x1F, 0x20, 0x22, 0x23, 0x24, 0x25].map (decodeTableWord 64) =
    [some .opn, some .read, some .clos, some .malc, some .mset, some .mcmp, some .exit] := by
  decide

/-- E5 to E7: the whole word takes part in the match. -/
theorem test_decode_illegal_words : [0x125, 0x26, 0xFFFFFFFFFFFFFFFF].map (decodeTableWord 64) = [none, none, none] := by
  decide

/-- E9, XLEN = 32. -/
theorem test_decode_32 :
    decode .x32 [0x01, 0, 0, 0, 0x0A, 0, 0, 0, 0x0D, 0, 0, 0] = .ok (.imm 10, [0x0D, 0, 0, 0]) ∧
    decode .x32 [0x0D, 0, 0, 0] = .ok (.push, []) ∧ decode .x32 [0x01, 0, 0, 0, 1] = .error .truncatedOperand := by
  decide

/-- E1 and E3 read the other way. -/
theorem test_encode :
    encode .x64 (.imm 10) = [0x01, 0, 0, 0, 0, 0, 0, 0, 0x0A, 0, 0, 0, 0, 0, 0, 0] ∧
    encode .x64 (.lea (-1)) = [0, 0, 0, 0, 0, 0, 0, 0, 0xFF, 0xFF, 0xFF, 0xFF, 0xFF, 0xFF, 0xFF, 0xFF] := by
  decide

/-! ## Data movement -/

/-- A1. -/
theorem test_imm : stepping State.reset 128 0xFFFFFFFFFFFFFFFF0000000000000001 regs =
    (0xFFFFFFFFFFFFFFFF, 0x340000, 0x340000, 0x100010) := by decide

/-- A3: an address above the arena is formed and not checked. -/
theorem test_lea_up : stepping { State.reset with bp := 0x33FFF8 } 128 0x00000000000000020000000000000000 regs =
    (0x340008, 0x340000, 0x33FFF8, 0x100010) := by decide

/-- A4. -/
theorem test_lea_down : stepping { State.reset with bp := 0x33FFF8 } 128 0xFFFFFFFFFFFFFFFD0000000000000000 State.ax =
    0x33FFE0 := by decide

/-- A6. -/
theorem test_lc_sign : stepping { placed State.reset 0x200000 [1, 2, 3, 0xFF, 0x7F] with ax := 0x200003 } 64 0x0A regs =
    (0xFFFFFFFFFFFFFFFF, 0x340000, 0x340000, 0x100008) := by decide

/-- A7. -/
theorem test_lc_positive : stepping { placed State.reset 0x200000 [1, 2, 3, 0xFF, 0x7F] with ax := 0x200004 } 64 0x0A
    State.ax = 0x7F := by decide

/-- A9. -/
theorem test_li : stepping { placed State.reset 0x200000 [1, 2, 3, 0xFF, 0x7F] with ax := 0x200000 } 64 0x09 regs =
    (0x0000007FFF030201, 0x340000, 0x340000, 0x100008) := by decide

/-- F6: alignment is tested before the region. -/
theorem test_li_misaligned : stepping { State.reset with ax := 0x200001 } 64 0x09 status =
    (2, 4, 0x200001, 0x200001, 0x340000, 0x100000) := by decide

/-- A11: the store goes over the slot the address was popped from. -/
theorem test_si : stepping { stacked [0x33FFF8] with ax := 0x77 } 64 0x0B (fun t => (regs t, t.word 0x33FFF8)) =
    ((0x77, 0x340000, 0x340000, 0x100008), 0x77) := by decide

/-- F5: the pop is undone. -/
theorem test_si_into_text : stepping (stacked [0x100000]) 64 0x0B status = (2, 3, 0x100000, 0, 0x33FFF8, 0x100000) := by
  decide

/-- A12. -/
theorem test_sc : stepping { stacked [0x200009] with ax := 0x1FF } 64 0x0C (fun t => (regs t, t.word 0x200008)) =
    ((0x1FF, 0x340000, 0x340000, 0x100008), 0xFF00) := by decide

/-- A13. -/
theorem test_push : stepping { stacked [7, 8] with ax := 0x1234 } 64 0x0D (fun t => (regs t, t.word 0x33FFE8)) =
    ((0x1234, 0x33FFE8, 0x340000, 0x100008), 0x1234) := by decide

/-- F17: the lowest slot is filled, the next push overflows. -/
theorem test_push_overflow : stepping { State.reset with sp := 0x300000 } 64 0x0D status =
    (2, 3, 0x2FFFF8, 0, 0x300000, 0x100000) := by decide

/-! ## Control flow -/

/-- B1. -/
theorem test_jmp : stepping State.reset 128 0x00000000001001000000000000000002 regs =
    (0, 0x340000, 0x340000, 0x100100) := by decide

/-- B2, B4. -/
theorem test_jz : stepping State.reset 128 0x00000000001001000000000000000004 State.pc = 0x100100 ∧
    stepping { State.reset with ax := -1 } 128 0x00000000001001000000000000000004 State.pc = 0x100010 := by decide

/-- B5, B7. -/
theorem test_jnz : stepping State.reset 128 0x00000000001001000000000000000005 State.pc = 0x100010 ∧
    stepping { State.reset with ax := -1 } 128 0x00000000001001000000000000000005 State.pc = 0x100100 := by decide

/-- B8. -/
theorem test_call : stepping { stacked [0, 0] with pc := 0x100020, ax := 9 } 128 0x00000000001000800000000000000003
    (fun t => (regs t, t.word 0x33FFE8)) = ((9, 0x33FFE8, 0x340000, 0x100080), 0x100030) := by decide

/-- B14. -/
theorem test_ent : stepping { State.reset with sp := 0x33FFE8, ax := 9 } 128 0x00000000000000020000000000000006
    (fun t => (regs t, t.word 0x33FFE0)) = ((9, 0x33FFD0, 0x33FFE0, 0x100010), 0x340000) := by decide

/-- B9. -/
theorem test_adj : stepping { State.reset with sp := 0x33FFF0 } 128 0x00000000000000020000000000000007 regs =
    (0, 0x340000, 0x340000, 0x100010) := by decide

/-- B13: a negative count reserves. -/
theorem test_adj_negative : stepping { State.reset with sp := 0x33FFF0 } 128 0xFFFFFFFFFFFFFFFF0000000000000007 State.sp =
    0x33FFE8 := by decide

/-- B15. -/
theorem test_lev : stepping { stacked [0x340000, 0x100030, 5, 6] with bp := 0x33FFE0, ax := 9 } 64 0x08 regs =
    (9, 0x33FFF0, 0x340000, 0x100030) := by decide

/-- F9: no frame. -/
theorem test_lev_without_frame : stepping State.reset 64 0x08 status = (2, 3, 0x340000, 0, 0x340000, 0x100000) := by
  decide

/-! ## Operators (the rows of section 2.3) -/

theorem test_or : operator 0x0E 0x0F0F 0x00FF = result 0x0FFF := by decide

theorem test_xor : operator 0x0F 0x5555 (-1) = result 0xFFFFFFFFFFFFAAAA := by decide

theorem test_and : operator 0x10 0x0F0F 0x00FF = result 0x000F := by decide

theorem test_eq : operator 0x11 5 5 = result 1 ∧ operator 0x11 0 0x8000000000000000 = result 0 := by decide

theorem test_ne : operator 0x12 5 5 = result 0 ∧ operator 0x12 0x100000000 0 = result 1 := by decide

theorem test_lt : operator 0x13 (-1) 0 = result 1 ∧ operator 0x13 5 5 = result 0 := by decide

theorem test_gt : operator 0x14 0x7FFFFFFFFFFFFFFF 0x8000000000000000 = result 1 ∧ operator 0x14 (-1) 0 = result 0 := by
  decide

theorem test_le : operator 0x15 5 5 = result 1 ∧ operator 0x15 5 3 = result 0 := by decide

theorem test_ge : operator 0x16 0 (-1) = result 1 ∧ operator 0x16 3 5 = result 0 := by decide

theorem test_shl : operator 0x17 3 63 = result 0x8000000000000000 ∧ operator 0x17 1 0 = result 1 := by decide

theorem test_shl_count : operator 0x17 1 64 = arithmetic 64 ∧ operator 0x17 1 (-1) = arithmetic (-1) := by decide

theorem test_shr : operator 0x18 0xFFFFFFFFFFFFFFF0 2 = result 0xFFFFFFFFFFFFFFFC ∧
    operator 0x18 0x8000000000000000 63 = result 0xFFFFFFFFFFFFFFFF := by decide

theorem test_shr_count : operator 0x18 1 64 = arithmetic 64 := by decide

theorem test_add : operator 0x19 0x7FFFFFFFFFFFFFFF 1 = result 0x8000000000000000 := by decide

theorem test_sub : operator 0x1A 10 3 = result 7 ∧ operator 0x1A 3 10 = result 0xFFFFFFFFFFFFFFF9 := by decide

theorem test_mul : operator 0x1B (-3) 5 = result 0xFFFFFFFFFFFFFFF1 ∧ operator 0x1B 0x100000000 0x100000000 = result 0 := by
  decide

theorem test_div : operator 0x1C (-7) 2 = result 0xFFFFFFFFFFFFFFFD ∧ operator 0x1C (-7) (-2) = result 3 := by decide

theorem test_div_faults : operator 0x1C 1 0 = arithmetic 0 ∧ operator 0x1C 0x8000000000000000 (-1) = arithmetic (-1) := by
  decide

theorem test_mod : operator 0x1D (-7) 2 = result (-1) ∧ operator 0x1D 7 (-2) = result 1 := by decide

theorem test_mod_faults : operator 0x1D 1 0 = arithmetic 0 ∧ operator 0x1D 0x8000000000000000 (-1) = arithmetic (-1) := by
  decide

/-! ## XLEN = 32 (the note under section 2.3) -/

/-- REF with 32-bit words. -/
def config32 : Config := { Config.ref with xlen := .x32 }

/-- The left operand `l` on a 32-bit stack. -/
def stacked32 (l : Word) : State :=
  { State.launch { Launch.ref with cfg := config32 } with
    sp := 0x33FFFC, mem := Memory.writeBytes [] 0x33FFFC (wordBytes .x32 l) }

theorem test_operators_32 :
    stepping { stacked32 0x10000 with ax := 0x10000 } 32 0x1B regs = (0, 0x340000, 0x340000, 0x100004) ∧
    stepping { stacked32 0x80000000 with ax := 31 } 32 0x18 State.ax = 0xFFFFFFFF := by decide

theorem test_imm_32 : stepping (State.launch { Launch.ref with cfg := config32 }) 64 0x0000000A00000001 regs =
    (10, 0x340000, 0x340000, 0x100008) := by decide

/-! ## EXIT and the host bridge (section 2.4) -/

/-- H1. -/
theorem test_exit : stepping (stacked [-1]) 64 0x25 status = (1, 0, -1, 0, 0x33FFF8, 0x100000) := by decide

/-- F3. -/
theorem test_exit_on_empty_stack : stepping State.reset 64 0x25 status = (2, 3, 0x340000, 0, 0x340000, 0x100000) := by
  decide

/-- "a.c" at 0x200000, its address and the flags on the stack. -/
def openState (r : Word) : State :=
  { placed (stacked [0, 0x200000]) 0x200000 [0x61, 0x2E, 0x63, 0] with answers := [answer r] }

/-- H2. -/
theorem test_open : stepping (openState 3) 64 0x1E (fun t => (regs t, t.events)) =
    ((3, 0x33FFF0, 0x340000, 0x100008),
      [HostEvent.mk .opn [0, 0x200000] [0x61, 0x2E, 0x63] [] (some 3) []]) := by decide

/-- H3: a host failure is a value. -/
theorem test_open_failed : stepping (openState (-2)) 64 0x1E status = (0, 0, 0, -2, 0x33FFF0, 0x100008) := by decide

/-- Length 4, a buffer and descriptor 3 on the stack; the host answers with "hi". -/
def readState (buf r : Word) : State :=
  { stacked [4, buf, 3] with answers := [{ result := r, bytes := [0x68, 0x69], reads := [], stringFault := none }] }

/-- H4, H5. -/
theorem test_read :
    stepping (readState 0x200100 2) 64 0x1F (fun t => (t.ax, t.sp, t.mem.readBytes 0x200100 4)) =
      (2, 0x33FFE8, [0x68, 0x69, 0, 0]) ∧
    stepping (readState 0x200100 (-1)) 64 0x1F (fun t => (t.ax, t.mem.readBytes 0x200100 4)) = (-1, [0, 0, 0, 0]) := by
  decide

/-- H6. -/
theorem test_read_into_text : stepping (readState 0x100000 2) 64 0x1F (fun t => (status t, t.answers.length)) =
    ((2, 3, 0x100000, 0, 0x33FFE8, 0x100000), 1) := by decide

/-- H7. -/
theorem test_clos : stepping { stacked [3] with ax := 9, answers := [answer 0] } 64 0x20 regs =
    (0, 0x33FFF8, 0x340000, 0x100008) := by decide

/-- H8. -/
theorem test_malc : stepping { stacked [16] with answers := [answer 0x1000000] } 64 0x22 (fun t => (regs t, t.blocks)) =
    ((0x1000000, 0x33FFF8, 0x340000, 0x100008), [{ base := 0x1000000, size := 16 }]) := by decide

/-- H9. -/
theorem test_malc_failed : stepping { stacked [16] with answers := [answer 0] } 64 0x22 (fun t => (t.ax, t.blocks)) =
    (0, []) := by decide

/-- H10. -/
theorem test_mset : stepping (placed (stacked [3, 0x141, 0x200000]) 0x200000 [0, 0, 0, 0x80]) 64 0x23
    (fun t => (regs t, t.mem.readBytes 0x200000 4)) =
    ((0x200000, 0x33FFE8, 0x340000, 0x100008), [0x41, 0x41, 0x41, 0x80]) := by decide

/-- F14: nothing is written. -/
theorem test_mset_past_the_arena : stepping (stacked [16, 1, 0x23FFF8]) 64 0x23 (fun t => (status t, t.byte 0x23FFF8)) =
    ((2, 3, 0x23FFF8, 0, 0x33FFE8, 0x100000), 0) := by decide

/-- The data of H11 to H13, and the host's draw 7. -/
def compareState (ws : List Word) : State :=
  { placed (stacked ws) 0x200000 [0x41, 0x41, 0x41, 0x80, 0, 0, 0, 0, 0x41, 0x41, 0x41, 0x7F] with answers := [answer 7] }

/-- H11, H12: unsigned bytes. -/
theorem test_mcmp_sign :
    0 < Xlen.sval .x64 (stepping (compareState [4, 0x200008, 0x200000]) 64 0x24 State.ax) ∧
    Xlen.sval .x64 (stepping (compareState [4, 0x200000, 0x200008]) 64 0x24 State.ax) < 0 := by decide

/-- H13, H14. -/
theorem test_mcmp_equal : stepping (compareState [3, 0x200000, 0x200008]) 64 0x24 State.ax = 0 ∧
    stepping (stacked [0, 0, 0]) 64 0x24 State.ax = 0 := by decide

/-- "x" at 0x200000 and seven words pushed, the format's address first. -/
def printState : State :=
  { placed (stacked [6, 5, 4, 3, 2, 1, 0x200000]) 0x200000 [0x78, 0] with answers := [answer 1] }

/-- H15. -/
theorem test_prtf : stepping printState 128 0x00000000000000070000000000000021 (fun t => (regs t, t.events)) =
    ((1, 0x33FFC8, 0x340000, 0x100010),
      [HostEvent.mk .prtf [0x200000, 1, 2, 3, 4, 5] [0x78] [] (some 1) []]) := by decide

/-! ## Fetch (section 2.5) -/

/-- F2, F13. -/
theorem test_illegal_opcode : stepping State.reset 64 0x26 status = (2, 1, 0x26, 0, 0x340000, 0x100000) ∧
    stepping State.reset 64 0x125 status = (2, 1, 0x125, 0, 0x340000, 0x100000) := by decide

/-- F4, F7. -/
theorem test_fetch_at_the_end : status (after (step { State.reset with pc := 0x140000 })) =
      (2, 3, 0x140000, 0, 0x340000, 0x140000) ∧
    status (after (step { State.reset with pc := 0x100004 })) = (2, 4, 0x100004, 0, 0x340000, 0x100004) := by decide

/-- F8, F22. -/
theorem test_fetch_outside : status (after (step { State.reset with pc := 0x200000 })) =
      (2, 3, 0x200000, 0, 0x340000, 0x200000) ∧
    status (after (step { State.reset with pc := 0x13FFF8 })) = (2, 3, 0x140000, 0, 0x340000, 0x13FFF8) := by decide

/-! ## Witnesses: for each statement with hypotheses, a state and operands that meet them -/

/-- Reset with the given table word at pc. -/
def program (nbits w : Nat) : State := State.reset.withFetchWord nbits w

theorem witness_DecodeOfEncodeIsTheInstruction :
    (Instr.imm 0xFFFFFFFFFFFFFFFF).wf .x64 = true ∧ (Instr.lea 0xFFFFFFFF).wf .x32 = true ∧ Instr.exit.wf .x32 = true := by
  decide

theorem witness_DecodedBytesAreTheEncoding :
    decode .x32 [0x07, 0, 0, 0, 0xFF, 0xFF, 0xFF, 0xFF, 9] = .ok (.adj 0xFFFFFFFF, [9]) ∧
    decode .x64 [0x25, 0, 0, 0, 0, 0, 0, 0] = .ok (.exit, []) := by decide

theorem witness_OpcodeWordsAbove37AreIllegal :
    (program 64 38).Running ∧ (program 64 38).TextWord (program 64 38).pc ∧
      37 < ((program 64 38).word (program 64 38).pc).toNat := by decide

/-- PUSH as the last word of the instruction arena. -/
def lastWord : State := { State.reset with pc := 0x13FFF8 }.withFetchWord 64 0x0D

theorem witness_StepRunsTheDecodedInstruction :
    lastWord.cfg.wf ∧ lastWord.Running ∧ lastWord.pc.toNat % lastWord.cfg.xlen.bytes = 0 ∧
    lastWord.cfg.textBase ≤ lastWord.pc.toNat ∧
    lastWord.pc.toNat + 8 ≤ lastWord.cfg.textBase + lastWord.cfg.poolBytes ∧
    decode .x64 (lastWord.mem.readBytes lastWord.pc.toNat 8) = .ok (.push, []) ∧
    decode .x64 ((program 128 0x00000000000000050000000000000001).mem.readBytes 0x100000 16) = .ok (.imm 5, []) := by
  decide

theorem witness_BadProgramCounterFaultsAtFetch :
    State.reset.Running ∧ { State.reset with pc := 0x100004 }.pc.toNat % 8 ≠ 0 ∧
    ¬ State.reset.TextWord 0x140000 ∧ ¬ State.reset.TextWord 0xFFFF8 ∧
    State.reset.TextWord 0x13FFF8 ∧ ¬ State.reset.TextWord (State.reset.slot 0x13FFF8 1) := by decide

theorem witness_BadProgramCounterFaultsAtFetch_format :
    formatOf (State.reset.word 0x13FFF8) = some (.f1 .lea) := by rfl

theorem witness_ZeroFilledTextRunsLea :
    State.reset.cfg.wf ∧ State.reset.WordsFit ∧ State.reset.Running ∧ State.reset.TextWord 0x100000 ∧
    State.reset.word 0x100000 = 0 ∧ State.reset.TextWord (State.reset.slot 0x100000 1) ∧
    State.reset.word (State.reset.slot 0x100000 1) = 0 ∧ State.reset.TextWord 0x13FFF8 ∧
    0x13FFF8 + State.reset.cfg.xlen.bytes = State.reset.cfg.textBase + State.reset.cfg.poolBytes := by decide

theorem witness_StepAnswersNextExactlyWhenRunning :
    State.reset.Running ∧ ¬ { State.reset with runstate := 1 }.Running ∧ ¬ { State.reset with runstate := 2 }.Running := by
  decide

/-- A Running state and the step it takes. -/
abbrev Steps (s : State) : Prop := s.Running ∧ step s = .next (after (step s))

theorem witness_FaultsArePrecise : Steps (program 64 38) ∧ (after (step (program 64 38))).Faulted := ⟨⟨rfl, rfl⟩, rfl⟩

theorem witness_OnlyExitAndFaultsEndTheRun :
    Steps (program 64 0x0D) ∧ Steps ((stacked [7]).withFetchWord 64 0x25) ∧ Steps (program 64 38) :=
  ⟨⟨rfl, rfl⟩, ⟨rfl, rfl⟩, ⟨rfl, rfl⟩⟩

theorem witness_RegisterWritesFollowTheMatrix :
    exec .push State.reset = .next (after (exec .push State.reset)) ∧ (2 : Fin 4) ∉ Instr.push.writes ∧
    exec .exit State.reset = .next (after (exec .exit State.reset)) ∧ (0 : Fin 4) ∉ Instr.exit.writes :=
  ⟨rfl, by decide, rfl, by decide⟩

theorem witness_UnreadRegistersHaveNoInfluence :
    State.reset.Running ∧ (3 : Fin 4) ∉ (Instr.imm 5).reads ∧
    exec (.imm 5) State.reset = .next (after (exec (.imm 5) State.reset)) ∧ (2 : Fin 4) ∉ Instr.add.reads ∧
    exec .add State.reset = .next (after (exec .add State.reset)) :=
  ⟨rfl, by decide, rfl, by decide, rfl⟩

theorem witness_HostBlocksOnlyGrow :
    step (({ stacked [16] with answers := [answer 0x1000000] } : State).withFetchWord 64 0x22) =
      .next (after (step (({ stacked [16] with answers := [answer 0x1000000] } : State).withFetchWord 64 0x22))) := by rfl

theorem witness_HostCallsAreRecorded :
    exec .clos { stacked [3] with answers := [answer 0] } =
      .next (after (exec .clos { stacked [3] with answers := [answer 0] })) ∧
    ¬ (after (exec .clos { stacked [3] with answers := [answer 0] })).Faulted ∧ Instr.clos.hostOp = some .clos ∧
    exec (.imm 5) State.reset = .next (after (exec (.imm 5) State.reset)) ∧ (Instr.imm 5).hostOp = none ∧
    exec .clos State.reset = .next (after (exec .clos State.reset)) ∧ (after (exec .clos State.reset)).Faulted :=
  ⟨rfl, by decide, rfl, rfl, rfl, rfl, by decide⟩

/-- "%s" at 0x200000; an argument whose string runs off the data arena, and a host that fails on it. -/
def percentState : State :=
  { placed (placed (stacked [0x23FFFE, 0x200000]) 0x200000 [0x25, 0x73, 0]) 0x23FFFE [0x61, 0x62] with
    answers := [{ result := 1, bytes := [], reads := [], stringFault := some 0 }] }

theorem witness_HostCallsAreRecorded_prtf :
    percentState.Running ∧ exec (.prtf 2) percentState = .next (after (exec (.prtf 2) percentState)) ∧
    (after (exec (.prtf 2) percentState)).Faulted ∧ (after (exec (.prtf 2) percentState)).events ≠ percentState.events :=
  ⟨rfl, rfl, by decide, by decide⟩

theorem witness_ChangedBytesLieInWritableRegions :
    step (({ State.reset with ax := 5 } : State).withFetchWord 64 0x0D) =
      .next (after (step (({ State.reset with ax := 5 } : State).withFetchWord 64 0x0D))) ∧
    (after (step (({ State.reset with ax := 5 } : State).withFetchWord 64 0x0D))).byte 0x33FFF8 ≠
      (({ State.reset with ax := 5 } : State).withFetchWord 64 0x0D).byte 0x33FFF8 := ⟨rfl, by decide⟩

/-- REF with three words of program, two bytes of data and the last word of TEXT as its entry. -/
def launched : Launch := { Launch.ref with textInit := [1, 10, 13], dataInit := [1, 2], entryPc := 0x13FFF8 }

theorem witness_InvariantHoldsAtEveryLaunch : launched.wf ∧ ({ Launch.ref with cfg := config32 } : Launch).wf := by
  constructor <;> simp [Launch.wf, Config.wf, Config.baseOk, Config.apart, launched, config32, Launch.ref, Config.ref,
    Xlen.bits, Xlen.bytes]

/-- A state with words on the stack, a program, data and a live host block. -/
def busy : State :=
  { (placed (stacked [16, 0x200000]) 0x1000000 [1, 2]).withFetchWord 64 0x0D with
    ax := 5, blocks := [{ base := 0x1000000, size := 16 }] }

theorem busy_inv : busy.Inv :=
  ⟨by decide, by decide, by decide, by decide, by decide, by decide⟩

theorem witness_StepKeepsTheInvariant : busy.Inv ∧ step busy = .next (after (step busy)) := ⟨busy_inv, rfl⟩

theorem witness_InstructionArenaNeverChanges :
    busy.Inv ∧ busy.Reaches (after (step busy)) ∧ busy.cfg.textBase ≤ 0x13FFFF ∧
      0x13FFFF < busy.cfg.textBase + busy.cfg.poolBytes :=
  ⟨busy_inv, .tail .refl rfl, by decide, by decide⟩

theorem witness_ResetLeavesTheLaunchState :
    launched.wf ∧ 0x7FFF * Config.ref.xlen.bytes < Config.ref.poolBytes ∧
    (0x13FFF8 : Word).toNat = Config.ref.textBase + 0x7FFF * Config.ref.xlen.bytes ∧ 0x3FFFF < Config.ref.poolBytes :=
  ⟨witness_InvariantHoldsAtEveryLaunch.1, by decide, by decide, by decide⟩

theorem witness_WordsAreLittleEndian :
    Config.ref.xlen.Fits 0x1122334455667788 ∧
    memWrite State.reset 0x200010 .word 0x1122334455667788 = .ok (storeAt State.reset 0x200010 .word 0x1122334455667788) ∧
    memWrite State.reset 0x200017 .byte 0x1FF = .ok (storeAt State.reset 0x200017 .byte 0x1FF) ∧
    (0x200017 : Word).toNat = (0x200010 : Word).toNat + 7 := ⟨by decide, rfl, rfl, by decide⟩

theorem witness_RangesLieInOneRegion :
    busy.Inv ∧ busy.cfg.dataBase ≤ (0x23FFFF : Word).toNat ∧ (0x23FFFF : Word).toNat < busy.cfg.dataBase + busy.cfg.poolBytes ∧
    busy.cfg.textBase ≤ (0x100000 : Word).toNat ∧ (0x100000 : Word).toNat < busy.cfg.textBase + busy.cfg.poolBytes ∧
    busy.cfg.stackBase ≤ (0x33FFFF : Word).toNat ∧ (0x33FFFF : Word).toNat < busy.cfg.stackBase + busy.cfg.poolBytes ∧
    (∃ b ∈ busy.blocks, b.base ≤ (0x100000F : Word).toNat ∧ (0x100000F : Word).toNat < b.base + b.size) ∧
    ¬ busy.Readable (0 : Word).toNat 1 ∧ ¬ busy.Readable (0x1000010 : Word).toNat 1 := ⟨busy_inv, by decide⟩

/-- "ab" as the last bytes of DATA (F20), "a.c" at its first. -/
def strings : State := placed (placed State.reset 0x200000 [0x61, 0x2E, 0x63]) 0x23FFFE [0x61, 0x62]

theorem witness_StringsEndAtTheFirstZeroByte :
    strings.cfg.xlen.Fits 0x23FFFE ∧ strings.IsString 0x200000 [0x61, 0x2E, 0x63] ∧ strings.IsString 0x200003 [] ∧
    strings.BadString 0x23FFFE 0x240000 ∧ strings.BadString 0 0 :=
  ⟨by decide, by unfold State.IsString; decide, by unfold State.IsString; decide, ⟨2, by decide⟩, ⟨0, by decide⟩⟩

theorem witness_LcLoadsOneExtendedByte :
    { State.reset with ax := 0x23FFFF }.Readable (0x23FFFF : Word).toNat 1 ∧ State.reset.cfg.lcExt = .sign ∧
    { State.reset with cfg := { Config.ref with lcExt := .zero } }.Readable (0x23FFFF : Word).toNat 1 ∧
    ¬ { State.reset with ax := 0x240000 }.Readable (0x240000 : Word).toNat 1 := by decide

theorem witness_LiLoadsAnAlignedWord :
    (0x23FFF8 : Word).toNat % State.reset.cfg.xlen.bytes = 0 ∧ State.reset.Readable (0x23FFF8 : Word).toNat 8 ∧
    (0x200001 : Word).toNat % State.reset.cfg.xlen.bytes ≠ 0 ∧
    (0x240000 : Word).toNat % State.reset.cfg.xlen.bytes = 0 ∧ ¬ State.reset.Readable (0x240000 : Word).toNat 8 := by decide

/-- A stack fault of each kind at sp. -/
theorem witness_stack_faults :
    State.reset.StackFault State.reset.sp (.outOfBounds 0x340000) ∧
    { State.reset with sp := 0x33FFF9 }.StackFault 0x33FFF9 (.misaligned 0x33FFF9) := by
  unfold State.StackFault; decide

theorem witness_ScStoresTheLowByte :
    (stacked [0x23FFFF]).StackSlot (stacked [0x23FFFF]).sp ∧
    (stacked [0x23FFFF]).Writable ((stacked [0x23FFFF]).word (stacked [0x23FFFF]).sp).toNat 1 ∧
    (stacked [0x13FFFF]).StackSlot (stacked [0x13FFFF]).sp ∧
    ¬ (stacked [0x13FFFF]).Writable ((stacked [0x13FFFF]).word (stacked [0x13FFFF]).sp).toNat 1 := by decide

theorem witness_SiStoresTheWord :
    (stacked [0x23FFF8]).StackSlot 0x33FFF8 ∧ (stacked [0x23FFF8]).word 0x33FFF8 = 0x23FFF8 ∧
    (stacked [0x23FFF8]).Writable 0x23FFF8 8 ∧ (stacked [0x200001]).word 0x33FFF8 = 0x200001 ∧
    (stacked [0x100000]).word 0x33FFF8 = 0x100000 ∧ ¬ (stacked [0x100000]).Writable 0x100000 8 := by decide

/-- The push of PUSH, CALL and ENT, admitted at the lowest slot and not below it. -/
theorem witness_pushes :
    { State.reset with sp := 0x300008 }.StackSlot { State.reset with sp := 0x300008 }.pushSlot ∧
    { State.reset with sp := 0x300000 }.StackFault { State.reset with sp := 0x300000 }.pushSlot (.outOfBounds 0x2FFFF8) := by
  unfold State.StackFault; decide

theorem witness_JumpsWriteOnlyThePc : State.reset.ax = 0 ∧ { State.reset with ax := 0x8000000000000000 }.ax ≠ 0 := by
  decide

/-- The frame of B15. -/
def framed : State := { stacked [0x340000, 0x100030, 5, 6] with bp := 0x33FFE0 }

theorem witness_LevDropsTheFrameAndReturns :
    framed.StackSlot framed.bp ∧ framed.StackSlot (framed.slot framed.bp 1) ∧
    State.reset.StackFault State.reset.bp (.outOfBounds 0x340000) ∧
    { State.reset with bp := 0x33FFF8 }.StackSlot 0x33FFF8 ∧ ¬ State.reset.StackSlot (State.reset.slot 0x33FFF8 1) := by
  unfold State.StackFault; decide

/-- Reset after CALL 0x100018 and after ENT 3 (B12). -/
def called : State := after (exec (.call 0x100018) State.reset)

/-- See `called`. -/
def entered : State := after (exec (.ent 3) called)

theorem witness_CallEntLevRoundTrip :
    State.reset.cfg.wf ∧ State.reset.WordsFit ∧ State.reset.Running ∧
    exec (.call 0x100018) State.reset = .next called ∧ ¬ called.Faulted ∧
    exec (.ent 3) called = .next entered ∧ ¬ entered.Faulted ∧ exec .lev entered = .next (after (exec .lev entered)) :=
  ⟨by decide, by decide, rfl, rfl, by decide, rfl, by decide, rfl⟩

theorem witness_operators : (stacked [5]).StackSlot (stacked [5]).sp ∧
    State.reset.StackFault State.reset.sp (.outOfBounds 0x340000) := by
  unfold State.StackFault; decide

theorem witness_ShiftOperators :
    CountLegal { stacked [5] with ax := 63 } 5 ∧ CountLegal { stacked [5] with ax := 0 } 5 ∧
    ¬ CountLegal { stacked [5] with ax := 64 } 5 ∧ ¬ CountLegal { stacked [5] with ax := -1 } 5 := by
  unfold CountLegal; decide

theorem witness_DivisionOperators :
    QuotientExists { stacked [5] with ax := -1 } 0x8000000000000001 ∧ ¬ QuotientExists { stacked [5] with ax := 0 } 5 ∧
    ¬ QuotientExists { stacked [5] with ax := -1 } 0x8000000000000000 := by
  unfold QuotientExists; decide

theorem witness_QuotientAndRemainderRecombine :
    (stacked [-7]).Running ∧ (stacked [-7]).StackSlot (stacked [-7]).sp ∧
    exec .div { stacked [-7] with ax := 2 } = .next (after (exec .div { stacked [-7] with ax := 2 })) ∧
    exec .mod { stacked [-7] with ax := 2 } = .next (after (exec .mod { stacked [-7] with ax := 2 })) ∧
    ¬ (after (exec .div { stacked [-7] with ax := 2 })).Faulted :=
  ⟨rfl, by decide, rfl, rfl, by decide⟩

theorem witness_PushImmSubSubtractsInOrder :
    State.reset.WordsFit ∧ State.reset.Running ∧ State.reset.cfg.xlen.Fits 10 ∧ State.reset.StackSlot State.reset.pushSlot := by
  decide

theorem witness_ExitReportsTheStackTop : (stacked [-1]).StackSlot (stacked [-1]).sp := by decide

/-- The argument faults of OPEN, CLOS, READ, MALC, MSET and MCMP. -/
theorem witness_argument_faults :
    ArgFault State.reset 1 0 (.outOfBounds 0x340000) ∧ ArgFault (stacked [5]) 2 1 (.outOfBounds 0x340000) ∧
    ArgFault (stacked [5, 6]) 3 2 (.outOfBounds 0x340000) := by
  unfold ArgFault State.StackFault; decide

theorem witness_OpenAsksTheHost :
    ArgsOk (openState 3) 2 ∧ cStr (openState 3) (argWord (openState 3) 1) = .ok [0x61, 0x2E, 0x63] ∧
    ArgsOk (stacked [0, 0]) 2 ∧ cStr (stacked [0, 0]) (argWord (stacked [0, 0]) 1) = .error (.outOfBounds 0) :=
  ⟨by unfold ArgsOk; decide, by decide, by unfold ArgsOk; decide, by decide⟩

theorem witness_ClosAsksTheHost : ArgsOk (stacked [3]) 1 := by unfold ArgsOk; decide

theorem witness_ReadWritesWhatTheHostGives :
    ArgsOk (readState 0x23FFFC 2) 3 ∧ (readState 0x23FFFC 2).Writable 0x23FFFC 4 ∧
    ArgsOk (readState 0x23FFFD 2) 3 ∧ ¬ (readState 0x23FFFD 2).Writable 0x23FFFD 4 := by
  unfold ArgsOk; decide

theorem witness_ReadWritesWhatTheHostGives_invariant : (stacked [4, 0x23FFFC, 3]).Inv :=
  ⟨by decide, by decide, by decide, by decide, by decide, by decide⟩

theorem witness_PrtfWithoutPercentCountsItsBytes :
    printState.StackSlot (printState.prtfSlot 7 0) ∧
    (∀ k, 1 ≤ k → k ≤ printState.prtfCount 7 → printState.StackSlot (printState.prtfSlot 7 k)) ∧
    cStr printState (printState.word (printState.prtfSlot 7 0)) = .ok [0x78] ∧ (0x25 : Byte) ∉ ([0x78] : List Byte) := by
  refine ⟨by decide, fun k h₁ h₂ => ?_, by decide, by decide⟩
  have h₃ : printState.prtfCount 7 = 5 := by decide
  rw [h₃] at h₂
  interval_cases k <;> decide

theorem witness_PrtfWithPercentIsTheHosts :
    percentState.StackSlot (percentState.prtfSlot 2 0) ∧ percentState.prtfCount 2 = 1 ∧
    percentState.StackSlot (percentState.prtfSlot 2 1) ∧
    cStr percentState (percentState.word (percentState.prtfSlot 2 0)) = .ok [0x25, 0x73] ∧
    cStr percentState (percentState.word (percentState.prtfSlot 2 1)) = .error (.outOfBounds 0x240000) ∧
    percentState.prtfCount 1 = 0 := by decide

theorem witness_PrtfWithPercentIsTheHosts_invariant :
    percentState.cfg.stringFaultXval = .firstUnreadable ∧
    { Config.ref with stringFaultXval := .argument }.stringFaultXval = .argument ∧
    percentState.Inv ∧ percentState.BadString (percentState.word (percentState.prtfSlot 2 1)) 0x240000 :=
  ⟨rfl, rfl, ⟨by decide, by decide, by decide, by decide, by decide, by decide⟩, ⟨2, by decide⟩⟩

/-- F19 (N = 0); R177, U8, R201: the host's failed string read is a fault at the first unreadable byte (as in F20) or, where
the launch says so, at the argument's address, and the call is on record (R37, R206). -/
theorem test_prtf_faults : stepping State.reset 128 0x00000000000000000000000000000021 status =
      (2, 3, 0, 0, 0x340000, 0x100000) ∧
    stepping percentState 128 0x00000000000000020000000000000021 (fun t => (status t, t.events)) =
      ((2, 3, 0x240000, 0, 0x33FFF0, 0x100000),
        [HostEvent.mk .prtf [0x200000, 0x23FFFE] [0x25, 0x73] [(0x23FFFE, 0x61), (0x23FFFF, 0x62)] none []]) ∧
    stepping { percentState with cfg := { Config.ref with stringFaultXval := .argument } } 128
      0x00000000000000020000000000000021 State.xval = 0x23FFFE := by decide

theorem witness_PrtfFaultsInOrder :
    State.reset.StackFault (State.reset.prtfSlot 1 0) (.outOfBounds 0x340000) ∧
    { State.reset with sp := 0x2FFFF8 }.StackSlot ({ State.reset with sp := 0x2FFFF8 }.prtfSlot 2 0) ∧
    { State.reset with sp := 0x2FFFF8 }.prtfCount 2 = 1 ∧
    { State.reset with sp := 0x2FFFF8 }.StackFault ({ State.reset with sp := 0x2FFFF8 }.prtfSlot 2 1)
      (.outOfBounds 0x2FFFF8) ∧
    cStr (stacked [0]) ((stacked [0]).word ((stacked [0]).prtfSlot 1 0)) = .error (.outOfBounds 0) := by
  unfold State.StackFault; decide

theorem witness_MalcHandsOutAFreshBlock : ArgsOk (stacked [16]) 1 := by unfold ArgsOk; decide

theorem witness_MsetFillsTheRange :
    ArgsOk (stacked [16, 1, 0x23FFF0]) 3 ∧ (stacked [16, 1, 0x23FFF0]).Writable 0x23FFF0 16 ∧
    ArgsOk (stacked [16, 1, 0x23FFF8]) 3 ∧ ¬ (stacked [16, 1, 0x23FFF8]).Writable 0x23FFF8 16 ∧
    (stacked [0, 1, 0]).Writable 0 0 := by
  unfold ArgsOk; decide

theorem witness_McmpComparesUnsignedBytes :
    ArgsOk (compareState [4, 0x200008, 0x200000]) 3 ∧ (compareState []).Readable 0x200008 4 ∧
    (compareState []).byte 0x200003 ≠ (compareState []).byte 0x20000B ∧
    ¬ (compareState []).Readable 0x23FFFD 4 := by
  unfold ArgsOk; decide

theorem witness_MsetAndMcmpAreRecorded :
    ArgsOk (stacked [16, 1, 0x23FFF0]) 3 ∧ (stacked [16, 1, 0x23FFF0]).Writable 0x23FFF0 16 ∧
    ArgsOk (compareState [4, 0x200008, 0x200000]) 3 ∧ (compareState []).Readable 0x200008 4 ∧
    (compareState []).Readable 0x200000 4 := by
  unfold ArgsOk; decide

theorem witness_EveryAdmittedHostAnswerCanOccur :
    (readState 0x200100 2).answers = [{ result := 2, bytes := [0x68, 0x69], reads := [], stringFault := none }] ∧
    ArgsOk (readState 0x200100 2) 3 ∧ (readState 0x200100 2).cfg.xlen.Fits 2 ∧
    (readState 0x200100 2).Writable 0x200100 4 ∧ (readState 0x200100 2).cfg.xlen.sval 2 = 2 ∧
    (openState 3).answers = [answer 3] ∧ ArgsOk (openState 3) 2 ∧
    cStr (openState 3) (argWord (openState 3) 1) = .ok [0x61, 0x2E, 0x63] := by
  unfold ArgsOk; decide

/-- MALC of 16 bytes and an address it may be answered with. -/
theorem witness_EveryAdmittedHostAnswerCanOccur_malc :
    ArgsOk (stacked [16]) 1 ∧ (argWord (stacked [16]) 0).toNat = 16 ∧ (0x1000000 : Word).toNat % 8 = 0 ∧
    (0x1000000 : Word).toNat + 16 ≤ 2 ^ 64 ∧ ∀ c, 0x1000000 ≤ c → c < 0x1000000 + max 16 1 → ¬ (stacked [16]).Readable c 1 := by
  refine ⟨by unfold ArgsOk; decide, by decide, by decide, by decide, fun c h₁ h₂ h => ?_⟩
  rcases h with h | ⟨h, h'⟩ | ⟨h, h'⟩ | ⟨h, h'⟩ | ⟨b, hb, h⟩
  · omega
  · change c + 1 ≤ 0x100000 + 0x40000 at h'; omega
  · change c + 1 ≤ 0x200000 + 0x40000 at h'; omega
  · change c + 1 ≤ 0x300000 + 0x40000 at h'; omega
  · cases hb

theorem witness_EveryAdmittedResultOfPrtfAndMcmpCanOccur :
    printState.answers = [answer 1] ∧ (answer 1).stringFault = none ∧ printState.cfg.xlen.Fits 1 ∧
    (answer 1).result.toNat = ([0x78] : List Byte).length ∧
    ArgsOk (compareState [4, 0x200008, 0x200000]) 3 ∧ (compareState []).Readable 0x200000 4 ∧
    ((compareState []).byte 0x20000B).toNat < ((compareState []).byte 0x200003).toNat ∧
    0 < (compareState []).cfg.xlen.sval 7 := by
  unfold ArgsOk; decide

/-- With a `%`: a string fault that comes next, and read addresses that are all readable. -/
theorem witness_EveryAdmittedResultOfPrtfAndMcmpCanOccur_percent :
    percentState.answers = [{ result := 1, bytes := [], reads := [], stringFault := some 0 }] ∧
    percentState.cfg.xlen.Fits 1 ∧ 0 < percentState.prtfCount 2 ∧
    cStr percentState (percentState.word (percentState.prtfSlot 2 1)) = .error (.outOfBounds 0x240000) ∧
    (0x25 : Byte) ∈ ([0x25, 0x73] : List Byte) ∧
    ∀ w ∈ ([0x23FFFE, 0x23FFFF] : List Word), percentState.Readable w.toNat 1 :=
  ⟨rfl, by decide, by decide, by decide, by decide, by
    intro w hw; simp only [List.mem_cons, List.not_mem_nil, or_false] at hw; rcases hw with rfl | rfl <;> decide⟩

end Sys2Proof.Tests
end

section
/-! The launch state meets the invariant (spec 00_scope.md R6 to R9, 10_state.md R39). -/

namespace Sys2Proof.Machine

/-- TEXT_INIT fills WB bytes of the instruction arena per word (R8). -/
theorem length_flatMap_wordBytes (x : Xlen) (ws : List Word) :
    (ws.flatMap (wordBytes x)).length = ws.length * x.bytes := by
  simp [List.length_flatMap]

/-- A cell of the memory at launch holds a byte of TEXT_INIT or of DATA_INIT. -/
theorem State.mem_launch {l : Launch} {c : Host.Cell} (h : c ∈ (State.launch l).mem) :
    (l.cfg.textBase ≤ c.1 ∧ c.1 < l.cfg.textBase + l.textInit.length * l.cfg.xlen.bytes) ∨
    (l.cfg.dataBase ≤ c.1 ∧ c.1 < l.cfg.dataBase + l.dataInit.length) := by
  rcases Memory.mem_writeBytes h with h | ⟨hge, hlt, -⟩
  · rcases Memory.mem_writeBytes h with h | ⟨hge, hlt, -⟩
    · exact absurd h List.not_mem_nil
    · rw [length_flatMap_wordBytes] at hlt
      exact .inl ⟨hge, hlt⟩
  · exact .inr ⟨hge, hlt⟩

/-- What a launch loads lies inside the instruction and the data arena, so no cell stands outside the regions (R32). -/
theorem State.memInRegions_launch {l : Launch} (htext : l.textInit.length * l.cfg.xlen.bytes ≤ l.cfg.poolBytes)
    (hdata : l.dataInit.length ≤ l.cfg.poolBytes) : (State.launch l).MemInRegions := by
  intro c hc
  rcases State.mem_launch hc with ⟨hge, hlt⟩ | ⟨hge, hlt⟩
  · have hend : c.1 + 1 ≤ l.cfg.textBase + l.cfg.poolBytes := by omega
    exact .inr (.inl ⟨hge, hend⟩)
  · have hend : c.1 + 1 ≤ l.cfg.dataBase + l.cfg.poolBytes := by omega
    exact .inr (.inr (.inl ⟨hge, hend⟩))

/-- The registers at launch are words modulo 2^XLEN or zero, whatever ENTRY_PC and the arena bases are (R39). -/
theorem State.wordsFit_launch (l : Launch) : (State.launch l).WordsFit :=
  ⟨l.cfg.xlen.fits_word _, l.cfg.xlen.fits_word _, l.cfg.xlen.fits_word _, l.cfg.xlen.fits_zero, l.cfg.xlen.fits_zero⟩

/-- Settles O17: TEXT_INIT and DATA_INIT fit their arenas, the registers are XLEN-bit words, the core is Running and no
host block is live. -/
theorem invariantHoldsAtEveryLaunch : Obligations.InvariantHoldsAtEveryLaunch := by
  intro l ⟨hcfg, _, ⟨htext, _⟩, hdata⟩
  exact {
    cfg := hcfg
    words := State.wordsFit_launch l
    status := .inl ⟨rfl, rfl, rfl⟩
    memory := State.wf_launch l
    blocks := ⟨fun _ hb => absurd hb List.not_mem_nil, List.Pairwise.nil⟩
    regions := State.memInRegions_launch htext hdata }

end Sys2Proof.Machine
end

section
/-! Every step keeps the invariant, and what follows from it along a run (spec 10_state.md R20, R27 to R29, R32, R33,
R36; 20_memory.md R52, R53; 43_exit_and_host_bridge.md R180). One lemma per effect of `Effect` (Laws/Effects). -/

namespace Sys2Proof.Machine
variable {s t : State}

/-! ## Parts of the invariant after one effect -/

/-- Each byte of a writable range is writable. -/
theorem State.Writable.byte {a n c : Nat} (h : s.Writable a n) (hge : a ≤ c) (hlt : c < a + n) : s.Writable c 1 := by
  rcases h with h | h | h | ⟨b, hb, h⟩
  · omega
  · exact .inr (.inl (by omega))
  · exact .inr (.inr (.inl (by omega)))
  · exact .inr (.inr (.inr ⟨b, hb, by omega⟩))

/-- A write of a readable range leaves no cell outside the regions. -/
theorem State.MemInRegions.writeBytes {a : Nat} {bs : List Byte} (h : s.MemInRegions)
    (hr : ∀ c, a ≤ c → c < a + bs.length → s.Readable c 1) : ∀ c ∈ s.mem.writeBytes a bs, s.Readable c.1 1 := by
  intro c hc
  rcases Memory.mem_writeBytes hc with hc | ⟨hge, hlt, -⟩
  · exact h c hc
  · exact hr c.1 hge hlt

/-- The run-status registers after a fault: the cause is one of four, and ArithmeticFault reports 0 (R201). -/
theorem State.statusLegal_afterFault (s : State) (e : Trap) : (s.afterFault e).StatusLegal := by
  refine .inr (.inr ⟨rfl, ?_⟩)
  cases e with
  | illegalOpcode op => exact .inl rfl
  | arithmetic => exact .inr (.inl ⟨rfl, rfl⟩)
  | outOfBounds a => exact .inr (.inr (.inl rfl))
  | misaligned a => exact .inr (.inr (.inr rfl))

/-- A Running core reports no cause. -/
theorem State.Inv.cause_eq_zero (h : s.Inv) (hr : s.Running) : s.cause = 0 := by
  rcases h.status with ⟨-, hc, -⟩ | ⟨-, hc⟩ | ⟨hf, -⟩
  · exact hc
  · exact hc
  · rw [hr] at hf
    exact absurd hf (by decide)

/-- The address MALC hands out makes a legal host block (R180). -/
theorem blockLegal_of_blockOk {a : Word} {n : Nat} (h : blockOk s a n = true) :
    s.BlockLegal { base := a.toNat, size := n } := by
  obtain ⟨⟨halign, hge, hend, hsize⟩, hregions⟩ := blockOk_iff.1 h
  have hapart (r : Region) (hr : r ∈ s.regions) : HostBlock.apart { base := a.toNat, size := n } r.base r.size := by
    rcases hregions r hr with h | h | h
    · exact .inr (.inl h)
    · exact .inr (.inr (.inl (by dsimp only; omega)))
    · exact .inr (.inr (.inr h))
  exact ⟨halign, hge, hend, hsize, hapart s.textRegion (by simp [State.regions]),
    hapart s.dataRegion (by simp [State.regions]), hapart s.stackRegion (by simp [State.regions])⟩

/-- It shares no byte with a block that is already live (R36, R180). -/
theorem apart_of_blockOk {a : Word} {n : Nat} (h : blockOk s a n = true) {b : HostBlock} (hb : b ∈ s.blocks) :
    HostBlock.apart { base := a.toNat, size := n } b.base b.size := by
  have hregion : b.region ∈ s.regions := by
    simp only [State.regions, List.mem_cons]
    exact .inr (.inr (.inr (List.mem_map_of_mem hb)))
  rcases (blockOk_iff.1 h).2 b.region hregion with h | h | h
  · exact .inr (.inl h)
  · exact .inr (.inr (.inl (by simp only [HostBlock.region] at h; dsimp only; omega)))
  · exact .inr (.inr (.inr h))

/-- A further host block takes no readable byte away. -/
theorem State.Readable.withBlock {a n : Nat} (h : s.Readable a n) (b : HostBlock) :
    ({ s with blocks := b :: s.blocks } : State).Readable a n := by
  rcases h with h | h | h | h | ⟨c, hc, h⟩
  · exact .inl h
  · exact .inr (.inl h)
  · exact .inr (.inr (.inl h))
  · exact .inr (.inr (.inr (.inl h)))
  · exact .inr (.inr (.inr (.inr ⟨c, List.mem_cons_of_mem _ hc, h⟩)))

/-! ## The invariant after one effect -/

/-- The record of host calls and the answers to come are free. -/
theorem State.Inv.setHost (h : s.Inv) (es : List HostEvent) (as : List HostAnswer) : (s.setHost es as).Inv :=
  ⟨h.cfg, h.words, h.status, h.memory, h.blocks, h.regions⟩

theorem State.Inv.afterFault {e : Trap} (h : s.Inv) (he : s.cfg.xlen.Fits e.info) : (s.afterFault e).Inv := by
  obtain ⟨hpc, hsp, hbp, hax, -⟩ := h.words
  exact ⟨h.cfg, ⟨hpc, hsp, hbp, hax, he⟩, s.statusLegal_afterFault e, h.memory, h.blocks, h.regions⟩

theorem State.Inv.exited {v : Word} (h : s.Inv) (hr : s.Running) (hv : s.cfg.xlen.Fits v) :
    ({ s with runstate := 1, xval := v } : State).Inv := by
  obtain ⟨hpc, hsp, hbp, hax, -⟩ := h.words
  exact ⟨h.cfg, ⟨hpc, hsp, hbp, hax, hv⟩, .inr (.inl ⟨rfl, h.cause_eq_zero hr⟩), h.memory, h.blocks, h.regions⟩

theorem State.Inv.setRegs {pc sp bp ax : Word} (h : s.Inv)
    (hw : s.cfg.xlen.Fits pc ∧ s.cfg.xlen.Fits sp ∧ s.cfg.xlen.Fits bp ∧ s.cfg.xlen.Fits ax) :
    ({ s with pc := pc, sp := sp, bp := bp, ax := ax } : State).Inv := by
  obtain ⟨-, -, -, -, hxval⟩ := h.words
  obtain ⟨hpc, hsp, hbp, hax⟩ := hw
  exact ⟨h.cfg, ⟨hpc, hsp, hbp, hax, hxval⟩, h.status, h.memory, h.blocks, h.regions⟩

theorem State.Inv.writeBytes {a : Nat} {bs : List Byte} (h : s.Inv)
    (hr : ∀ c, a ≤ c → c < a + bs.length → s.Readable c 1) : (s.setMem (s.mem.writeBytes a bs)).Inv :=
  ⟨h.cfg, h.words, h.status, Memory.wf_writeBytes a bs h.memory, h.blocks, State.MemInRegions.writeBytes h.regions hr⟩

theorem State.Inv.withBlock {a : Word} {n : Nat} (h : s.Inv) (hb : blockOk s a n = true) :
    ({ s with blocks := { base := a.toNat, size := n } :: s.blocks } : State).Inv where
  cfg := h.cfg
  words := h.words
  status := h.status
  memory := h.memory
  blocks := by
    refine ⟨fun c hc => ?_, List.pairwise_cons.2 ⟨fun c hc => apart_of_blockOk hb hc, h.blocks.2⟩⟩
    rcases List.mem_cons.1 hc with rfl | hc
    · exact (blockLegal_of_blockOk hb :)
    · exact h.blocks.1 c hc
  regions c hc := (h.regions c hc).withBlock _

/-- Every effect of a well-formed instruction on a Running core keeps the invariant. -/
theorem Effect.inv {i : Instr} (he : Effect i s t) (h : s.Inv) (hr : s.Running) (hi : i.wf s.cfg.xlen = true) :
    t.Inv := by
  cases he with
  | fault e _ info => exact h.afterFault (info h.words)
  | hostFault b e answers _ info _ => exact (h.afterFault (e := .outOfBounds b) info).setHost _ answers
  | exit => exact h.exited hr (s.fits_word _)
  | done pc sp bp ax events answers a bs writable words =>
    have hwrite := h.writeBytes fun c hge hlt => (writable.byte hge hlt).readable
    exact (hwrite.setRegs (words h.words hi)).setHost events answers
  | block pc ax e answers size bs _ fits ok words =>
    obtain ⟨hpc, hax⟩ := words
    obtain ⟨-, hsp, hbp, -, -⟩ := h.words
    have hwrite := (h.withBlock ok).writeBytes (a := ax.toNat) (bs := bs) fun c hge hlt =>
      .inr (.inr (.inr (.inr ⟨_, List.mem_cons_self, hge, by dsimp only; omega⟩)))
    exact (hwrite.setRegs ⟨hpc, hsp, hbp, hax⟩).setHost _ answers

/-- A fault of fetch or decode reports a word of XLEN bits. -/
theorem fetchInstr_error_fits {e : Trap} (h : fetchInstr s = .error e) (hpc : s.cfg.xlen.Fits s.pc) :
    s.cfg.xlen.Fits e.info := by
  rcases fetchInstr_error h with ⟨-, -, rfl⟩ | ⟨a, ha, he⟩
  · exact s.fits_word _
  · have hinfo : e.info = a := by rcases he with rfl | rfl <;> rfl
    rw [hinfo]
    rcases ha with rfl | rfl
    · exact hpc
    · exact s.fits_slot _ _

/-- Settles O18: a step takes a fault of its fetch or has one of the five effects, and each keeps the invariant. -/
theorem stepKeepsTheInvariant : Obligations.StepKeepsTheInvariant := by
  intro s t hinv hstep
  obtain ⟨hr, ⟨e, he, rfl⟩ | ⟨i, -, hwf, -, heffect⟩⟩ := step_cases hstep
  · exact hinv.afterFault (fetchInstr_error_fits he hinv.words.1)
  · exact heffect.inv hinv hr hwf

/-! ## Steps and runs -/

/-- No step changes the launch parameters, and the live host blocks stay or gain one (R36, R38). -/
theorem step_cfg_blocks (h : step s = .next t) :
    t.cfg = s.cfg ∧ (t.blocks = s.blocks ∨ ∃ b, t.blocks = b :: s.blocks) := by
  obtain ⟨-, ⟨e, -, rfl⟩ | ⟨i, -, -, -, heffect⟩⟩ := step_cases h
  · exact ⟨rfl, .inl rfl⟩
  · cases heffect with
    | fault | hostFault | exit | done => exact ⟨rfl, .inl rfl⟩
    | block => exact ⟨rfl, .inr ⟨_, rfl⟩⟩

/-- Settles O13: only MALC's effect writes the host blocks, and no effect writes the parameters. -/
theorem hostBlocksOnlyGrow : Obligations.HostBlocksOnlyGrow := fun _ _ h => step_cfg_blocks h

/-- A byte that a write changes lies in the written range. -/
theorem Memory.mem_range_of_read_ne {m : Memory} {a c : Nat} {bs : List Byte}
    (h : (m.writeBytes a bs).read c ≠ m.read c) : a ≤ c ∧ c < a + bs.length := by
  by_contra hc
  exact h (m.read_writeBytes_outside a bs c (by omega))

/-- A byte that an effect changes is writable afterwards. -/
theorem Effect.writable_of_byte_ne {i : Instr} {c : Nat} (he : Effect i s t) (h : t.byte c ≠ s.byte c) :
    t.Writable c 1 := by
  cases he with
  | fault | hostFault | exit => exact absurd rfl h
  | done pc sp bp ax events answers a bs writable =>
    obtain ⟨hge, hlt⟩ := Memory.mem_range_of_read_ne h
    exact writable.byte hge hlt
  | block pc ax e answers size bs _ fits =>
    obtain ⟨hge, hlt⟩ := Memory.mem_range_of_read_ne h
    exact .inr (.inr (.inr ⟨_, List.mem_cons_self, hge, by dsimp only; omega⟩))

/-- A byte that a step changes is writable afterwards (R52, R59). -/
theorem step_writable_of_byte_ne {c : Nat} (h : step s = .next t) (hne : t.byte c ≠ s.byte c) : t.Writable c 1 := by
  obtain ⟨-, ⟨e, -, rfl⟩ | ⟨i, -, -, -, heffect⟩⟩ := step_cases h
  · exact absurd rfl hne
  · exact heffect.writable_of_byte_ne hne

/-- The instruction arena shares no byte with a writable region (R53). -/
theorem State.Inv.not_writable_text {a : Nat} (h : s.Inv) (hge : s.cfg.textBase ≤ a)
    (hlt : a < s.cfg.textBase + s.cfg.poolBytes) : ¬ s.Writable a 1 := by
  obtain ⟨-, -, hdata, hstack, -⟩ := h.cfg
  rintro (hw | hw | hw | ⟨b, hb, hw⟩)
  · omega
  · rcases hdata with hd | hd <;> omega
  · rcases hstack with hd | hd <;> omega
  · obtain ⟨-, -, -, -, htext, -⟩ := h.blocks.1 b hb
    rcases htext with hd | hd | hd | hd <;> omega

/-- One step leaves the instruction arena alone. -/
theorem State.Inv.step_byte_text {a : Nat} (h : s.Inv) (hstep : step s = .next t) (hge : s.cfg.textBase ≤ a)
    (hlt : a < s.cfg.textBase + s.cfg.poolBytes) : t.byte a = s.byte a := by
  have hcfg := (step_cfg_blocks hstep).1
  by_contra hne
  exact (stepKeepsTheInvariant s t h hstep).not_writable_text (by rwa [hcfg]) (by rwa [hcfg])
    (step_writable_of_byte_ne hstep hne)

/-- The invariant holds along every run. -/
theorem State.Inv.reaches (h : s.Inv) (hr : s.Reaches t) : t.Inv := by
  induction hr with
  | refl => exact h
  | tail _ hstep ih => exact stepKeepsTheInvariant _ _ ih hstep

/-- So do the launch parameters. -/
theorem State.Reaches.cfg_eq (hr : s.Reaches t) : t.cfg = s.cfg := by
  induction hr with
  | refl => rfl
  | tail _ hstep ih => exact (step_cfg_blocks hstep).1.trans ih

/-- Settles O19, by induction over the run: the invariant holds at every state of it, and from there a step leaves the
arena alone. -/
theorem instructionArenaNeverChanges : Obligations.InstructionArenaNeverChanges := by
  intro s t hinv hreach a hge hlt
  induction hreach with
  | refl => rfl
  | tail hprev hstep ih =>
    have hcfg := hprev.cfg_eq
    exact ((hinv.reaches hprev).step_byte_text hstep (by rwa [hcfg]) (by rwa [hcfg])).trans ih

end Sys2Proof.Machine
end

section
/-! What one instruction does to the registers it may not write and to the host's record (spec 10_state.md R25, R37;
60_exceptions.md R206). -/

namespace Sys2Proof.Machine
open Sys2Proof.Claims
variable {s t : State}

/-- The register matrix's "w" entries hold of every effect (R25). -/
theorem Effect.x_eq {i : Instr} {r : Fin 4} (he : Effect i s t) (hr : r ∉ i.writes) : t.x r = s.x r := by
  cases he with
  | fault | hostFault | exit => match r with | 0 | 1 | 2 | 3 => rfl
  | done pc sp bp ax events answers a bs _ _ kept =>
    obtain ⟨hpc, hsp, hbp, hax⟩ := kept
    match r, hr with
    | 0, hr => exact hpc hr
    | 1, hr => exact hsp hr
    | 2, hr => exact hbp hr
    | 3, hr => exact hax hr
  | block pc ax e answers size bs op =>
    subst op
    match r, hr with
    | 0, hr | 3, hr => exact absurd hr (by decide)
    | 1, _ | 2, _ => rfl

/-- Settles O11, effect by effect: a fault and EXIT write no register, MALC's block pc and ax, and the rest is what
`Effect.done` keeps. -/
theorem registerWritesFollowTheMatrix : Obligations.RegisterWritesFollowTheMatrix := fun _ _ _ _ h hr =>
  (exec_effect h).x_eq hr

/-- The record after an effect that ends in a fault (R206): a PRTF that faulted after its call is on it. -/
theorem Effect.host_of_faulted {i : Instr} (he : Effect i s t) (hr : s.Running) (hf : t.Faulted) :
    (t.events = s.events ∧ t.answers = s.answers) ∨
      (i.hostOp = some .prtf ∧ ∃ e : HostEvent, t.events = e :: s.events ∧ e.op = .prtf ∧ e.result = none) := by
  have hnot : s.runstate ≠ 2 := by rw [hr]; decide
  cases he with
  | fault => exact .inl ⟨rfl, rfl⟩
  | hostFault b e _ op _ record => exact .inr ⟨op, e, rfl, record⟩
  | exit => exact absurd hf (show (1 : BitVec 2) ≠ 2 by decide)
  | done | block => exact absurd hf hnot

/-- The record after an effect that ends without a fault (R37). -/
theorem Effect.host_of_not_faulted {i : Instr} (he : Effect i s t) (hf : ¬ t.Faulted) :
    (∀ op, i.hostOp = some op → ∃ e : HostEvent, t.events = e :: s.events ∧ e.op = op ∧ e.result = some t.ax) ∧
      (i.hostOp = none → t.events = s.events ∧ t.answers = s.answers) := by
  cases he with
  | fault | hostFault => exact absurd rfl hf
  | exit op => subst op; exact ⟨fun _ h => (nomatch h), fun _ => ⟨rfl, rfl⟩⟩
  | done pc sp bp ax events answers a bs _ _ _ host => exact ⟨host.2, host.1⟩
  | block pc ax e answers size bs op _ _ _ record =>
    subst op
    refine ⟨fun op hop => ?_, fun h => (nomatch h)⟩
    cases hop
    exact ⟨e, rfl, record⟩

/-- Settles O14, from the two halves above. -/
theorem hostCallsAreRecorded : Obligations.HostCallsAreRecorded := fun _ _ _ hr h =>
  ⟨(exec_effect h).host_of_faulted hr, (exec_effect h).host_of_not_faulted⟩

/-! ## MSET and MCMP -/

/-- Three argument reads whose slots are admitted hand on the words that stand there (R16, R61). -/
theorem three_args_bind (h : ArgsOk s 3) (f : Word → Word → Word → Except Trap State) :
    (arg s 0 >>= fun x => arg s 1 >>= fun y => arg s 2 >>= fun z => f x y z) =
      f (argWord s 0) (argWord s 1) (argWord s 2) := by
  have harg (k : Nat) (hk : k < 3) : arg s k = .ok (argWord s k) := stackRead_ok (h k hk)
  rw [harg 0 (by decide), harg 1 (by decide), harg 2 (by decide), ok_bind, ok_bind, ok_bind]

/-- The sign that R182 asks of MCMP's result is never zero's. -/
theorem mcmpResult_ne_zero (x : Xlen) (p q : Byte) (a : HostAnswer) : mcmpResult x p q a ≠ 0 := by
  have hzero : x.sval 0 = 0 := by cases x <;> decide
  suffices h : x.sval (mcmpResult x p q a) ≠ 0 from fun hc => h (by rw [hc, hzero])
  unfold mcmpResult negativeWord positiveWord
  split <;> split
  · next h => rw [x.sval_narrow]; exact h.ne
  · cases x <;> decide
  · next h => rw [x.sval_narrow]; exact h.ne'
  · cases x <;> decide

/-- What MSET is recorded with (R181). -/
def msetRequest (s : State) : HostRequest :=
  { op := .mset, args := [argWord s 0, argWord s 1, argWord s 2], sent := [], readable := [] }

/-- What MCMP is recorded with, and asks the host with where the ranges differ (R182). -/
def mcmpRequest (s : State) : HostRequest :=
  { op := .mcmp, args := [argWord s 0, argWord s 1, argWord s 2], sent := [], readable := s.mem }

/-- The first difference of the two ranges MCMP compares (R182). -/
def mcmpDiff (s : State) : Option (Byte × Byte) :=
  firstDiff (s.mem.readBytes (argWord s 2).toNat (argWord s 0).toNat)
    (s.mem.readBytes (argWord s 1).toNat (argWord s 0).toNat)

/-- MSET on a writable range (R181). -/
theorem exec_mset_ok (h : ArgsOk s 3) (hw : s.Writable (argWord s 2).toNat (argWord s 0).toNat) :
    exec .mset s = .next (bridgeEnd ((hostNote s (msetRequest s) (argWord s 2)).setMem (s.mem.writeBytes
      (argWord s 2).toNat (List.replicate (argWord s 0).toNat ((argWord s 1).setWidth 8)))) (argWord s 2) s.next1) := by
  have hrange := (rangeOk_write s _ _).2 hw
  refine (congrArg (finish s) (three_args_bind h _)).trans ?_
  rw [if_neg (by simp [hrange])]
  rfl

/-- MCMP on two readable ranges that agree (R182). -/
theorem exec_mcmp_same (h : ArgsOk s 3) (ha : s.Readable (argWord s 2).toNat (argWord s 0).toNat)
    (hb : s.Readable (argWord s 1).toNat (argWord s 0).toNat) (hd : mcmpDiff s = none) :
    exec .mcmp s = .next (bridgeEnd (hostNote s (mcmpRequest s) 0) 0 s.next1) := by
  have hrangeA := (rangeOk_read s _ _).2 ha
  have hrangeB := (rangeOk_read s _ _).2 hb
  refine (congrArg (finish s) (three_args_bind h _)).trans ?_
  rw [mcmpDiff] at hd
  rw [if_neg (by simp [hrangeA]), if_neg (by simp [hrangeB]), hd]
  rfl

/-- MCMP on two readable ranges that differ (R182). -/
theorem exec_mcmp_differ {p q : Byte} (h : ArgsOk s 3) (ha : s.Readable (argWord s 2).toNat (argWord s 0).toNat)
    (hb : s.Readable (argWord s 1).toNat (argWord s 0).toNat) (hd : mcmpDiff s = some (p, q)) :
    exec .mcmp s = .next (bridgeEnd
      (hostDone s (mcmpRequest s) [] (some (mcmpResult s.xlen p q (hostAsk s (mcmpRequest s)))) [])
      (mcmpResult s.xlen p q (hostAsk s (mcmpRequest s))) s.next1) := by
  have hrangeA := (rangeOk_read s _ _).2 ha
  have hrangeB := (rangeOk_read s _ _).2 hb
  refine (congrArg (finish s) (three_args_bind h _)).trans ?_
  rw [mcmpDiff] at hd
  rw [if_neg (by simp [hrangeA]), if_neg (by simp [hrangeB]), hd]
  rfl

/-- Settles O56: MSET notes its call and MCMP notes it where the ranges agree, with 0; where they differ MCMP uses an
answer, and its result is not 0. -/
theorem msetAndMcmpAreRecorded : Obligations.MsetAndMcmpAreRecorded := by
  intro s hargs
  refine ⟨fun hw => ⟨_, exec_mset_ok hargs hw, rfl, rfl⟩, fun ha hb => ?_⟩
  cases hd : mcmpDiff s with
  | none => exact ⟨_, exec_mcmp_same hargs ha hb hd, rfl, rfl⟩
  | some d => exact ⟨_, exec_mcmp_differ hargs ha hb hd, (if_neg (mcmpResult_ne_zero _ _ _ _)).symm, rfl⟩

end Sys2Proof.Machine
end

section
/-! What reset leaves, and a step that lifts sp above bp (spec 00_scope.md R6 to R9; 10_state.md R26, R39). -/

namespace Sys2Proof.Machine

/-! ## The launch state -/

/-- The byte at an offset after a write: the written one, or the one that stood there. -/
theorem Memory.read_writeBytes_getD (m : Memory) (a : Nat) (bs : List Byte) (k : Nat) :
    (m.writeBytes a bs).read (a + k) = bs.getD k (m.read (a + k)) := by
  by_cases hk : k < bs.length
  · rw [Memory.read_writeBytes_inside m a bs k hk, List.getD_eq_getElem _ _ hk]
  · rw [Memory.read_writeBytes_outside m a bs _ (by omega), List.getD_eq_default _ _ (by omega)]

theorem getD_wordBytes_zero (x : Xlen) (j : Nat) : (wordBytes x 0).getD j 0 = 0 := by
  have hzero : wordBytes x 0 = List.replicate x.bytes 0 := by cases x <;> decide
  rw [hzero, List.getD_eq_getElem?_getD, List.getElem?_replicate]
  split <;> rfl

/-- Byte j of word k, in the bytes of a list of words that zero words follow. -/
theorem getD_flatMap_wordBytes (x : Xlen) (ws : List Word) (k j : Nat) (hj : j < x.bytes) :
    (ws.flatMap (wordBytes x)).getD (k * x.bytes + j) 0 = (wordBytes x (ws.getD k 0)).getD j 0 := by
  induction ws generalizing k with
  | nil => exact (getD_wordBytes_zero x j).symm
  | cons w ws ih =>
    cases k with
    | zero =>
      rw [List.flatMap_cons, Nat.zero_mul, Nat.zero_add, List.getD_cons_zero, List.getD_append _ _ _ _ (by simpa using hj)]
    | succ k =>
      have hskip : (k + 1) * x.bytes + j - (wordBytes x w).length = k * x.bytes + j := by
        rw [length_wordBytes, Nat.add_mul]; omega
      have hge : (wordBytes x w).length ≤ (k + 1) * x.bytes + j := by rw [length_wordBytes, Nat.add_mul]; omega
      rw [List.flatMap_cons, List.getD_append_right _ _ _ _ hge, hskip, ih k, List.getD_cons_succ]

/-- Outside DATA_INIT's range the memory at launch is what TEXT_INIT made of it. -/
theorem State.launch_byte_outside_data {l : Launch} {c : Nat}
    (h : c < l.cfg.dataBase ∨ l.cfg.dataBase + l.dataInit.length ≤ c) :
    (State.launch l).byte c =
      (Memory.writeBytes [] l.cfg.textBase (l.textInit.flatMap (wordBytes l.cfg.xlen))).read c :=
  Memory.read_writeBytes_outside _ _ _ _ h

/-- TEXT_INIT is read back word by word, and zero words follow it (R8, R39). -/
theorem State.launch_word_text {l : Launch} (hl : l.wf) {k : Nat} (hk : k * l.cfg.xlen.bytes < l.cfg.poolBytes)
    {a : Word} (ha : a.toNat = l.cfg.textBase + k * l.cfg.xlen.bytes) :
    (State.launch l).word a = l.textInit.getD k 0 := by
  obtain ⟨⟨⟨hdvd, -⟩, -, hapart, -⟩, -, ⟨-, hfits⟩, hdata⟩ := hl
  have hend : k * l.cfg.xlen.bytes + l.cfg.xlen.bytes ≤ l.cfg.poolBytes := by
    obtain ⟨n, hn⟩ := Nat.dvd_of_mod_eq_zero hdvd
    rw [hn, Nat.mul_comm l.cfg.xlen.bytes n] at hk ⊢
    rw [← Nat.succ_mul]
    exact Nat.mul_le_mul_right _ (Nat.lt_of_mul_lt_mul_right hk)
  have hbytes : (State.launch l).mem.readBytes a.toNat l.cfg.xlen.bytes =
      wordBytes l.cfg.xlen (l.textInit.getD k 0) := by
    refine List.ext_getElem (by simp) fun j hj _ => ?_
    have hj : j < l.cfg.xlen.bytes := by simpa using hj
    have hbyte := State.launch_byte_outside_data (l := l) (c := a.toNat + j) (by omega)
    rw [ha, Nat.add_assoc, Memory.read_writeBytes_getD] at hbyte
    rw [Memory.getElem_readBytes, ha, Nat.add_assoc]
    exact hbyte.trans ((getD_flatMap_wordBytes _ _ _ _ hj).trans (List.getD_eq_getElem _ _ (by simpa using hj)))
  have hword : l.cfg.xlen.Fits (l.textInit.getD k 0) := by
    by_cases hlt : k < l.textInit.length
    · rw [List.getD_eq_getElem _ _ hlt]
      exact hfits _ (List.getElem_mem hlt)
    · rw [List.getD_eq_default _ _ (by omega)]
      exact l.cfg.xlen.fits_zero
  have hback := bytesWord_wordBytes l.cfg.xlen hword
  rwa [← hbytes] at hback

/-- A byte that neither TEXT_INIT nor DATA_INIT reaches is zero. -/
theorem State.launch_byte_of_outside {l : Launch} {c : Nat}
    (htext : c < l.cfg.textBase ∨ l.cfg.textBase + l.textInit.length * l.cfg.xlen.bytes ≤ c)
    (hdata : c < l.cfg.dataBase ∨ l.cfg.dataBase + l.dataInit.length ≤ c) : (State.launch l).byte c = 0 := by
  rw [State.launch_byte_outside_data hdata]
  exact Memory.read_writeBytes_outside _ _ _ _ (by rwa [length_flatMap_wordBytes])

/-- DATA_INIT is read back byte by byte, and zero bytes follow it (R9, R39). -/
theorem State.launch_byte_data {l : Launch} (hl : l.wf) {k : Nat} (hk : k < l.cfg.poolBytes) :
    (State.launch l).byte (l.cfg.dataBase + k) = l.dataInit.getD k 0 := by
  obtain ⟨⟨-, -, hapart, -⟩, -, ⟨htext, -⟩, -⟩ := hl
  by_cases hlt : k < l.dataInit.length
  · rw [List.getD_eq_getElem _ _ hlt]
    exact Memory.read_writeBytes_inside _ _ _ _ hlt
  · rw [List.getD_eq_default _ _ (by omega)]
    exact State.launch_byte_of_outside (by omega) (by omega)

/-- The stack arena is zero-filled (R39). -/
theorem State.launch_byte_stack {l : Launch} (hl : l.wf) {k : Nat} (hk : k < l.cfg.poolBytes) :
    (State.launch l).byte (l.cfg.stackBase + k) = 0 := by
  obtain ⟨⟨-, -, -, htextStack, hdataStack⟩, -, ⟨htext, -⟩, hdata⟩ := hl
  exact State.launch_byte_of_outside (by omega) (by omega)

/-- Settles O20: the addresses lie below 2^XLEN by R7, so no register is cut, and the arenas lie apart. -/
theorem resetLeavesTheLaunchState : Obligations.ResetLeavesTheLaunchState := by
  intro l hl
  have ⟨⟨_, ⟨⟨_, _, htop⟩, _, ⟨_, _, hstack⟩⟩, _⟩, ⟨_, _, hentry⟩, _, _⟩ := hl
  have hbytes := l.cfg.xlen.bytes_pos
  have hpc : l.entryPc < 2 ^ l.cfg.xlen.bits := by omega
  have hsp : l.cfg.stackTop < 2 ^ l.cfg.xlen.bits := by rw [Config.stackTop]; omega
  exact ⟨Xlen.toNat_word_of_lt _ hpc, Xlen.toNat_word_of_lt _ hsp, Xlen.toNat_word_of_lt _ hsp, rfl, rfl, rfl, rfl,
    fun _ hk _ ha => State.launch_word_text hl hk ha, fun _ hk => State.launch_byte_data hl hk,
    fun _ hk => State.launch_byte_stack hl hk, rfl⟩

/-- REF with nothing loaded is a legal launch (R6 to R10). -/
theorem launchRef_wf : Launch.ref.wf := 
  ⟨by decide, by decide, ⟨by decide, fun _ hw => absurd hw List.not_mem_nil⟩, by decide⟩

/-- Settles O16: reset is the launch of REF, and every legal launch meets the invariant. -/
theorem invariantHoldsAtReset : Obligations.InvariantHoldsAtReset := invariantHoldsAtEveryLaunch _ launchRef_wf

/-! ## The stack order -/

/-- Reset, where sp = bp = STACK_TOP, with ADJ 1 at pc. -/
def State.adjAtStackTop : State := State.reset.withFetchWord 128 0x00000000000000010000000000000007

theorem State.adjAtStackTop_inv : State.adjAtStackTop.Inv :=
  ⟨by decide, by decide, by decide, by decide, by decide, by decide⟩

/-- ADJ 1 frees a word that no frame holds. -/
theorem State.step_adjAtStackTop :
    step State.adjAtStackTop = .next ((State.adjAtStackTop.setSp 0x340008).setPc 0x100010) := rfl

/-- Settles O21: ADJ 1 on an empty stack lifts sp one word above bp, and no check stops it. -/
theorem stackOrderIsNotEnforced : Obligations.StackOrderIsNotEnforced :=
  ⟨State.adjAtStackTop, _, State.adjAtStackTop_inv, rfl, by decide, by decide, State.step_adjAtStackTop, rfl, by decide⟩

end Sys2Proof.Machine
end

section
/-! A register that an instruction does not read has no influence on it (spec 10_state.md R25). Each instruction is run
twice, on `s` and on `s` with another value in the register, and the two computations go side by side, bind by bind. -/

namespace Sys2Proof.Machine
variable {s t : State} {i : Instr} {r : Fin 4} {v : Word}

/-! ## Two runs side by side -/

/-- What a run that began with `v` in register `r` ends in, where the other run ended in `t`: `v` still stands there,
unless the instruction wrote `r` and did not fault. -/
def overwritten (i : Instr) (r : Fin 4) (v : Word) (t : State) : State :=
  if r ∈ i.writes ∧ ¬ t.Faulted then t else t.setX r v

theorem setX_afterFault (s : State) (r : Fin 4) (v : Word) (e : Trap) :
    (s.setX r v).afterFault e = (s.afterFault e).setX r v := by
  match r with | 0 | 1 | 2 | 3 => rfl

theorem overwritten_of_faulted (i : Instr) (r : Fin 4) (v : Word) (h : t.Faulted) :
    overwritten i r v t = t.setX r v := if_neg fun hc => hc.2 h

/-- Two computations that agree but for the overwritten register end the instruction in the two states. -/
theorem finish_overwritten {m m' : Except Trap State} (h : finish s m = .next t)
    (hm : m' = m.map (overwritten i r v)) : finish (s.setX r v) m' = .next (overwritten i r v t) := by
  subst hm
  rcases finish_cases h with rfl | ⟨e, rfl, rfl⟩
  · rfl
  · rw [overwritten_of_faulted i r v rfl, ← setX_afterFault]
    rfl

/-- After a check or a read that does not see the register, the two runs agree if their rests do. -/
theorem bind_eq_map {α : Type} {m m' : Except Trap α} {f g : α → Except Trap State} {F : State → State} (hm : m' = m)
    (h : ∀ a, g a = (f a).map F) : m' >>= g = (m >>= f).map F := by
  subst hm
  cases m' with
  | ok a => exact h a
  | error e => rfl

/-- The same after an operation whose results differ in the register. -/
theorem map_bind_eq_map {α : Type} {m m' : Except Trap α} {f g : α → Except Trap State} {F : State → State} {k : α → α}
    (hm : m' = m.map k) (h : ∀ a, g (k a) = (f a).map F) : m' >>= g = (m >>= f).map F := by
  subst hm
  cases m with
  | ok a => exact h a
  | error e => rfl

/-- A range check that does not see the register. -/
theorem ite_eq_map {c : Prop} [Decidable c] {e : Trap} {m m' : Except Trap State} {F : State → State}
    (h : m' = m.map F) : (if c then .error e else m') = (if c then .error e else m : Except Trap State).map F := by
  split
  · rfl
  · exact h

/-- The last state of a run that keeps the register. -/
theorem ok_eq_map_of_kept {u u' : State} (hw : r ∉ i.writes) (h : u' = u.setX r v) :
    (.ok u' : Except Trap State) = (Except.ok u).map (overwritten i r v) :=
  congrArg Except.ok (h.trans (if_neg fun hc => hw hc.1).symm)

/-- The last state of a run that writes the register. -/
theorem ok_eq_map_of_written {u u' : State} (hw : r ∈ i.writes) (hr : u.Running) (h : u' = u) :
    (.ok u' : Except Trap State) = (Except.ok u).map (overwritten i r v) := by
  have hf : ¬ u.Faulted := fun hc => absurd (hr.symm.trans hc) (by decide)
  exact congrArg Except.ok (h.trans (if_pos ⟨hw, hf⟩).symm)

/-- The last state of a run that faults after its host call. -/
theorem ok_eq_map_of_faulted {u u' : State} (hf : u.Faulted) (h : u' = u.setX r v) :
    (.ok u' : Except Trap State) = (Except.ok u).map (overwritten i r v) :=
  congrArg Except.ok (h.trans (overwritten_of_faulted i r v hf).symm)

/-- The last state of a host-bridge instruction, which writes ax and keeps bp. -/
theorem bridgeEnd_eq_map {u u' : State} (res next : Word) (hw : i.writes = [0, 3]) (hr : r = 2 ∨ r = 3)
    (hrun : u.Running) (hu : u' = u.setX r v) :
    (.ok (bridgeEnd u' res next) : Except Trap State) = (Except.ok (bridgeEnd u res next)).map (overwritten i r v) := by
  subst hu
  rcases hr with rfl | rfl
  · exact ok_eq_map_of_kept (by simp [hw]) rfl
  · exact ok_eq_map_of_written (by simp [hw]) hrun rfl

/-! ## The operations that do not see the register -/

/-- A string is read from the regions and their bytes alone. -/
theorem cStrFrom_setX (s : State) (r : Fin 4) (v a : Word) (n : Nat) :
    cStrFrom (s.setX r v) a n = cStrFrom s a n := by
  induction n generalizing a with
  | zero => rfl
  | succ n ih =>
    rw [cStrFrom_succ, cStrFrom_succ, ← ih]
    match r with | 0 | 1 | 2 | 3 => rfl

/-- So is CStr. -/
theorem cStr_setX (s : State) (r : Fin 4) (v a : Word) : cStr (s.setX r v) a = cStr s a := by
  rw [cStr, cStrFrom_setX]
  match r with | 0 | 1 | 2 | 3 => rfl

/-- PRTF's argument slots lie where `top` and `imm` say. -/
theorem prtfArgs_setX (s : State) (r : Fin 4) (v top imm : Word) (n k : Nat) :
    prtfArgs (s.setX r v) top imm n k = prtfArgs s top imm n k := by
  induction n generalizing k with
  | zero => rfl
  | succ n ih =>
    simp only [prtfArgs, ih]
    match r with | 0 | 1 | 2 | 3 => rfl

theorem prtfStringFault_setX (s : State) (r : Fin 4) (v : Word) (fmt : List Byte) (args : List Word) (a : HostAnswer) :
    prtfStringFault (s.setX r v) fmt args a = prtfStringFault s fmt args a := by
  simp only [prtfStringFault, cStr_setX]

/-- A pop sees no register but sp, and hands the others on. -/
theorem pop_setX (s : State) (v : Word) (hr : r ≠ 1) :
    pop (s.setX r v) = (pop s).map fun p => (p.1, p.2.setX r v) := by
  match r, hr with
  | 1, hr => exact absurd rfl hr
  | 0, _ | 2, _ | 3, _ =>
    rcases pop_cases s with ⟨h, hp⟩ | ⟨e, h, hp⟩
    · rw [hp]; exact pop_ok h
    · rw [hp]; exact pop_error h

/-- So does a push. -/
theorem push_setX (s : State) (v w : Word) (hr : r ≠ 1) :
    push (s.setX r v) w = (push s w).map (·.setX r v) := by
  match r, hr with
  | 1, hr => exact absurd rfl hr
  | 0, _ | 2, _ | 3, _ =>
    rcases push_cases s w with ⟨h, hp⟩ | ⟨e, h, hp⟩
    · rw [hp]; exact push_ok w h
    · rw [hp]; exact push_error w h

@[simp] theorem setX_mem (s : State) (r : Fin 4) (v : Word) : (s.setX r v).mem = s.mem := by
  match r with | 0 | 1 | 2 | 3 => rfl

theorem hostAsk_setX (s : State) (r : Fin 4) (v : Word) (q : HostRequest) : hostAsk (s.setX r v) q = hostAsk s q := by
  match r with | 0 | 1 | 2 | 3 => rfl

/-! ## Shapes of instructions -/

/-- Register `r` has no influence on the instruction: another value there beforehand changes nothing but `r` itself. -/
def NoInfluence (i : Instr) (r : Fin 4) : Prop :=
  ∀ (s t : State) (v : Word), s.Running → exec i s = .next t → exec i (s.setX r v) = .next (overwritten i r v t)

/-- It is enough that the computations go side by side. -/
theorem NoInfluence.of_finish {m : State → Except Trap State} (hexec : ∀ s, exec i s = finish s (m s))
    (h : ∀ (s : State) (v : Word), s.Running → m (s.setX r v) = (m s).map (overwritten i r v)) : NoInfluence i r := by
  intro s t v hr ht
  rw [hexec] at ht ⊢
  exact finish_overwritten ht (h s v hr)

/-- An instruction that cannot fault and keeps the register. -/
theorem NoInfluence.of_kept {u : State → State} (hexec : ∀ s, exec i s = .next (u s)) (hw : r ∉ i.writes)
    (h : ∀ (s : State) (v : Word), u (s.setX r v) = (u s).setX r v) : NoInfluence i r :=
  .of_finish (m := fun s => .ok (u s)) hexec fun s v _ => ok_eq_map_of_kept hw (h s v)

/-- An instruction that cannot fault and writes the register. -/
theorem NoInfluence.of_written {u : State → State} (hexec : ∀ s, exec i s = .next (u s)) (hw : r ∈ i.writes)
    (hr : ∀ s : State, s.Running → (u s).Running) (h : ∀ (s : State) (v : Word), u (s.setX r v) = u s) :
    NoInfluence i r :=
  .of_finish (m := fun s => .ok (u s)) hexec fun s v hrun => ok_eq_map_of_written hw (hr s hrun) (h s v)

/-- An operator does not see bp. -/
theorem NoInfluence.of_binary {f : Xlen → Word → Word → Except Trap Word} (hexec : ∀ s, exec i s = finish s (binary s f))
    (hw : i.writes = [0, 1, 3]) : NoInfluence i 2 :=
  .of_finish hexec fun s v _ => map_bind_eq_map (pop_setX s v (by decide)) fun _ => bind_eq_map rfl fun _ =>
    ok_eq_map_of_kept (by simp [hw]) rfl

/-- Nor do SC and SI. -/
theorem NoInfluence.of_popStore {n : Width} (hexec : ∀ s, exec i s = finish s (popStore s n))
    (hw : i.writes = [0, 1]) : NoInfluence i 2 :=
  .of_finish hexec fun s v _ => map_bind_eq_map (pop_setX s v (by decide)) fun _ =>
    map_bind_eq_map (k := (·.setX 2 v)) (bind_eq_map rfl fun _ => rfl) fun _ => ok_eq_map_of_kept (by simp [hw]) rfl

/-- A load sees neither sp nor bp. -/
theorem NoInfluence.of_memRead {n : Width} {f : State → Word → Word}
    (hexec : ∀ s, exec i s = finish s (memRead s s.ax n >>= fun w => .ok ((s.setAx (f s w)).setPc s.next1)))
    (hw : i.writes = [0, 3]) (hr : r = 1 ∨ r = 2) (hf : ∀ s v w, f (s.setX r v) w = f s w) : NoInfluence i r := by
  refine .of_finish hexec fun s v _ => ?_
  simp only [hf]
  rcases hr with rfl | rfl <;> exact bind_eq_map rfl fun _ => ok_eq_map_of_kept (by simp [hw]) rfl

/-! ## The host bridge, which sees neither bp nor ax -/

theorem ite_setX {c : Prop} [Decidable c] (a b : State) (r : Fin 4) (v : Word) :
    (if c then a.setX r v else b.setX r v) = (if c then a else b).setX r v := (apply_ite (State.setX · r v) c a b).symm

theorem noInfluence_opn (hr : r = 2 ∨ r = 3) : NoInfluence .opn r := by
  rcases id hr with rfl | rfl <;>
    exact .of_finish (fun _ => rfl) fun _ _ hrun => bind_eq_map rfl fun _ => bind_eq_map rfl fun _ =>
      bind_eq_map (cStr_setX ..) fun _ => bridgeEnd_eq_map _ _ rfl hr hrun rfl

theorem noInfluence_clos (hr : r = 2 ∨ r = 3) : NoInfluence .clos r := by
  rcases id hr with rfl | rfl <;>
    exact .of_finish (fun _ => rfl) fun _ _ hrun => bind_eq_map rfl fun _ => bridgeEnd_eq_map _ _ rfl hr hrun rfl

theorem noInfluence_read (hr : r = 2 ∨ r = 3) : NoInfluence .read r := by
  rcases id hr with rfl | rfl <;>
    exact .of_finish (fun _ => rfl) fun _ _ hrun => bind_eq_map rfl fun _ => bind_eq_map rfl fun _ =>
      bind_eq_map rfl fun _ => ite_eq_map (bridgeEnd_eq_map _ _ rfl hr hrun rfl)

theorem noInfluence_malc (hr : r = 2 ∨ r = 3) : NoInfluence .malc r := by
  rcases id hr with rfl | rfl <;>
    exact .of_finish (fun _ => rfl) fun _ _ hrun => bind_eq_map rfl fun _ =>
      bridgeEnd_eq_map _ _ rfl hr (by split <;> exact hrun) (by rw [← ite_setX]; rfl)

theorem noInfluence_mset (hr : r = 2 ∨ r = 3) : NoInfluence .mset r := by
  rcases id hr with rfl | rfl <;>
    exact .of_finish (fun _ => rfl) fun _ _ hrun => bind_eq_map rfl fun _ => bind_eq_map rfl fun _ =>
      bind_eq_map rfl fun _ => ite_eq_map (bridgeEnd_eq_map _ _ rfl hr hrun rfl)

theorem noInfluence_mcmp (hr : r = 2 ∨ r = 3) : NoInfluence .mcmp r := by
  rcases id hr with rfl | rfl <;>
  · refine .of_finish (fun _ => rfl) fun s v hrun => bind_eq_map rfl fun len => bind_eq_map rfl fun b =>
      bind_eq_map rfl fun a => ite_eq_map (ite_eq_map ?_)
    simp only [setX_mem]
    split <;> exact bridgeEnd_eq_map _ _ rfl hr hrun rfl

theorem noInfluence_prtf (w : Word) (hr : r = 2 ∨ r = 3) : NoInfluence (.prtf w) r := by
  rcases id hr with rfl | rfl <;>
  · refine .of_finish (fun _ => rfl) fun s v hrun => bind_eq_map rfl fun _ => bind_eq_map (prtfArgs_setX ..) fun _ =>
      bind_eq_map (cStr_setX ..) fun _ => ?_
    simp only [setX_mem, hostAsk_setX, prtfStringFault_setX]
    split
    · exact ok_eq_map_of_faulted rfl rfl
    · exact bridgeEnd_eq_map _ _ rfl hr hrun rfl

/-! ## Every instruction -/

/-- The registers that instructions which read pc and sp do not read (R25). -/
theorem eq_two_or_three (hr : r ∉ ([0, 1] : List (Fin 4))) : r = 2 ∨ r = 3 := by decide +revert

/-- The same for pc and ax. -/
theorem eq_one_or_two (hr : r ∉ ([0, 3] : List (Fin 4))) : r = 1 ∨ r = 2 := by decide +revert

/-- The same for pc, sp and ax. -/
theorem eq_two (hr : r ∉ ([0, 1, 3] : List (Fin 4))) : r = 2 := by decide +revert

/-- The register matrix's "r" entries hold of every instruction (R25). -/
theorem noInfluence_of_not_mem_reads (hr : r ∉ i.reads) : NoInfluence i r := by
  cases i with
  | imm w =>
    match r, hr with
    | 0, hr => exact absurd List.mem_cons_self hr
    | 1, _ | 2, _ => exact .of_kept (fun _ => rfl) (by simp [Instr.writes]) fun _ _ => rfl
    | 3, _ => exact .of_written (fun _ => rfl) (by simp [Instr.writes]) (fun _ h => h) fun _ _ => rfl
  | lea w =>
    match r, hr with
    | 0, hr | 2, hr => exact absurd (by simp [Instr.reads]) hr
    | 1, _ => exact .of_kept (fun _ => rfl) (by simp [Instr.writes]) fun _ _ => rfl
    | 3, _ => exact .of_written (fun _ => rfl) (by simp [Instr.writes]) (fun _ h => h) fun _ _ => rfl
  | jmp w =>
    match r, hr with
    | 0, hr => exact absurd List.mem_cons_self hr
    | 1, _ | 2, _ | 3, _ => exact .of_kept (fun _ => rfl) (by simp [Instr.writes]) fun _ _ => rfl
  | jz w | jnz w =>
    rcases eq_one_or_two hr with rfl | rfl <;>
      exact .of_kept (fun _ => rfl) (by simp [Instr.writes]) fun _ _ => rfl
  | adj w =>
    rcases eq_two_or_three hr with rfl | rfl <;>
      exact .of_kept (fun _ => rfl) (by simp [Instr.writes]) fun _ _ => rfl
  | call w =>
    rcases eq_two_or_three hr with rfl | rfl <;>
      exact .of_finish (fun _ => rfl) fun s v _ => map_bind_eq_map (push_setX s v _ (by decide)) fun _ =>
        ok_eq_map_of_kept (by simp [Instr.writes]) rfl
  | ent w =>
    match r, hr with
    | 0, hr | 1, hr | 2, hr => exact absurd (by simp [Instr.reads]) hr
    | 3, _ =>
      exact .of_finish (fun _ => rfl) fun s v _ => map_bind_eq_map (push_setX s v _ (by decide)) fun _ =>
        ok_eq_map_of_kept (by simp [Instr.writes]) rfl
  | lev =>
    match r, hr with
    | 0, hr | 2, hr => exact absurd (by decide) hr
    | 1, _ =>
      exact .of_finish (fun _ => rfl) fun _ _ hrun => bind_eq_map rfl fun _ => bind_eq_map rfl fun _ =>
        ok_eq_map_of_written (by decide) hrun rfl
    | 3, _ =>
      exact .of_finish (fun _ => rfl) fun _ _ _ => bind_eq_map rfl fun _ => bind_eq_map rfl fun _ =>
        ok_eq_map_of_kept (by decide) rfl
  | li => exact .of_memRead (fun _ => rfl) rfl (eq_one_or_two hr) fun _ _ _ => rfl
  | lc =>
    have hr := eq_one_or_two hr
    exact .of_memRead (f := fun s b => extendByte s (b.setWidth 8)) (fun _ => rfl) rfl hr fun _ _ _ => by
      rcases hr with rfl | rfl <;> rfl
  | si | sc =>
    obtain rfl := eq_two hr
    exact .of_popStore (fun _ => rfl) rfl
  | push =>
    obtain rfl := eq_two hr
    exact .of_finish (fun _ => rfl) fun s v _ => map_bind_eq_map (push_setX s v _ (by decide)) fun _ =>
      ok_eq_map_of_kept (by decide) rfl
  | or | xor | and | eq | ne | lt | gt | le | ge | shl | shr | add | sub | mul | div | mod =>
    obtain rfl := eq_two hr
    exact .of_binary (fun _ => rfl) rfl
  | exit =>
    rcases eq_two_or_three hr with rfl | rfl <;>
      exact .of_finish (fun _ => rfl) fun _ _ _ => bind_eq_map rfl fun _ => ok_eq_map_of_kept (by decide) rfl
  | opn => exact noInfluence_opn (eq_two_or_three hr)
  | read => exact noInfluence_read (eq_two_or_three hr)
  | clos => exact noInfluence_clos (eq_two_or_three hr)
  | prtf w => exact noInfluence_prtf w (eq_two_or_three hr)
  | malc => exact noInfluence_malc (eq_two_or_three hr)
  | mset => exact noInfluence_mset (eq_two_or_three hr)
  | mcmp => exact noInfluence_mcmp (eq_two_or_three hr)

/-- Settles O12: the two computations go side by side, and at their end the register is kept, written or, after a fault,
kept again. -/
theorem unreadRegistersHaveNoInfluence : Obligations.UnreadRegistersHaveNoInfluence := fun _ s t _ v hrun hr h =>
  noInfluence_of_not_mem_reads hr s t v hrun h

end Sys2Proof.Machine
end

section
/-! Memory: the faults of a failed fetch, where a step may write, little-endian words and range checks (spec
20_memory.md R52 to R64, 30_encoding.md R83, 60_exceptions.md R207). -/

namespace Sys2Proof.Machine
variable {s t : State}

/-! ## A step whose fetch fails -/

/-- A Running core takes the fault of its fetch (R83, R206). -/
theorem step_of_fetchInstr_error {e : Trap} (hr : s.Running) (h : fetchInstr s = .error e) :
    step s = .next (s.afterFault e) := by
  have hrun : s.runstate = running := hr
  simp only [step, if_pos hrun, h, takeTrap_eq]

/-- A failed fetch of the opcode word decides alone (R207). -/
theorem fetchInstr_opcode_error {e : Trap} (h : fetch s s.pc = .error e) : fetchInstr s = .error e := by
  rw [fetchInstr, h, error_bind]

/-- A failed fetch of the operand word decides behind an F1 opcode (R83). -/
theorem fetchInstr_operand_error {mk : Word → Instr} {e : Trap} (h : s.TextWord s.pc)
    (hf : formatOf (s.word s.pc) = some (.f1 mk)) (he : fetch s (s.slot s.pc 1) = .error e) :
    fetchInstr s = .error e := by
  simp [fetchInstr, fetch_ok h, hf, State.next1, he]

/-- Slots reckoned from an aligned word are aligned, past 2^XLEN too, since WB divides 2^XLEN (R57). -/
theorem State.slot_aligned {a : Word} (k : Nat) (h : a.toNat % s.cfg.xlen.bytes = 0) :
    (s.slot a k).toNat % s.cfg.xlen.bytes = 0 := by
  have hdvd : s.cfg.xlen.bytes ∣ 2 ^ s.cfg.xlen.bits := by cases s.cfg.xlen <;> decide
  rw [State.toNat_slot, Nat.mod_mod_of_dvd _ hdvd, Nat.add_mul_mod_self_right, h]

/-- Settles O6: the opcode word's fetch fails by alignment or by bounds; the operand word behind an aligned opcode word
is aligned, so its fetch fails by bounds alone. -/
theorem badProgramCounterFaultsAtFetch : Obligations.BadProgramCounterFaultsAtFetch := by
  intro s hr
  refine ⟨fun ha => ?_, fun ha hb => ?_, fun mk ht hf hb => ?_⟩
  · exact step_of_fetchInstr_error hr (fetchInstr_opcode_error (fetch_misaligned ha))
  · exact step_of_fetchInstr_error hr (fetchInstr_opcode_error (fetch_outside ha hb))
  · exact step_of_fetchInstr_error hr (fetchInstr_operand_error ht hf (fetch_outside (State.slot_aligned 1 ht.1) hb))

/-! ## Where a step may write -/

/-- Settles O15, from what the effects of a step may write. -/
theorem changedBytesLieInWritableRegions : Obligations.ChangedBytesLieInWritableRegions := fun _ _ _ =>
  step_writable_of_byte_ne

/-! ## Little-endian words -/

/-- Byte k of a word in memory is its bits [8k+7:8k] (R56). -/
theorem getElem_wordBytes (x : Xlen) (w : Word) (k : Nat) (h : k < (wordBytes x w).length) :
    (wordBytes x w)[k] = w.extractLsb' (8 * k) 8 := by
  simp [wordBytes]

/-- Bits [8j+7:8j] of the word at `a` are the byte at a + j (R56). -/
theorem State.extractLsb'_word (s : State) (a : Word) {j : Nat} (hj : j < s.cfg.xlen.bytes) :
    (s.word a).extractLsb' (8 * j) 8 = s.byte (a.toNat + j) := by
  have hbytes : wordBytes s.cfg.xlen (s.word a) = s.mem.readBytes a.toNat s.cfg.xlen.bytes :=
    wordBytes_bytesWord _ (by simp)
  rw [← getElem_wordBytes s.cfg.xlen _ j (by simpa using hj)]
  simp only [hbytes, Memory.getElem_readBytes]

/-- The memory a byte store leaves (R59). -/
theorem storeAt_byte (s : State) (a v : Word) :
    storeAt s a .byte v = s.setMem (s.mem.writeBytes a.toNat [v.extractLsb' 0 8]) := by
  have htake : (wordBytes s.cfg.xlen v).take 1 = [v.extractLsb' 0 8] := by cases s.cfg.xlen <;> rfl
  rw [storeAt_eq, Width.bytes, htake]

/-- Byte k of a word just stored (R56). -/
theorem byte_storeAt_word (s : State) (a w : Word) {k : Nat} (hk : k < s.cfg.xlen.bytes) :
    (storeAt s a .word w).byte (a.toNat + k) = w.extractLsb' (8 * k) 8 := by
  have hlen : k < (wordBytes s.cfg.xlen w).length := by simpa using hk
  rw [storeAt_word, ← getElem_wordBytes s.cfg.xlen w k hlen]
  exact Memory.read_writeBytes_inside _ _ _ k hlen

/-- A word just stored is read back (R56). -/
theorem word_storeAt_word (s : State) (a : Word) {w : Word} (hw : s.cfg.xlen.Fits w) :
    (storeAt s a .word w).word a = w := by
  have hread := Memory.readBytes_writeBytes s.mem a.toNat (wordBytes s.cfg.xlen w)
  rw [length_wordBytes] at hread
  simp only [storeAt_word, State.word, State.setMem_mem, State.setMem_cfg, hread, bytesWord_wordBytes _ hw]

/-- A byte store changes the byte it names and no other (R59). -/
theorem byte_storeAt_byte (s : State) (a v : Word) (c : Nat) :
    (storeAt s a .byte v).byte c = if c = a.toNat then v.extractLsb' 0 8 else s.byte c := by
  rw [storeAt_byte]
  split
  · next h => subst h; exact Memory.read_writeBytes_inside s.mem a.toNat [v.extractLsb' 0 8] 0 (by simp)
  · next h =>
    have hout : c < a.toNat ∨ a.toNat + [v.extractLsb' 0 8].length ≤ c := by rw [List.length_singleton]; omega
    exact Memory.read_writeBytes_outside s.mem _ _ c hout

/-- Settles O22: stored words by their bytes; the bytes of a word after a byte store one by one. -/
theorem wordsAreLittleEndian : Obligations.WordsAreLittleEndian := by
  refine ⟨fun s t a w hw h => ?_, fun s t a c b k hk hc h j hj => ?_⟩
  · obtain ⟨-, rfl⟩ := memWrite_inv h
    exact ⟨fun k hk => byte_storeAt_word s a w hk, word_storeAt_word s a hw⟩
  · obtain ⟨-, rfl⟩ := memWrite_inv h
    have hiff : a.toNat + j = c.toNat ↔ j = k := by omega
    rw [State.extractLsb'_word (storeAt s c .byte b) a hj, State.extractLsb'_word s a hj, byte_storeAt_byte]
    simp only [hiff]

/-! ## Regions -/

theorem State.textRegion_mem (s : State) : s.textRegion ∈ s.regions := by simp [State.regions]

theorem State.dataRegion_mem (s : State) : s.dataRegion ∈ s.regions := by simp [State.regions]

theorem State.stackRegion_mem (s : State) : s.stackRegion ∈ s.regions := by simp [State.regions]

theorem HostBlock.region_mem {b : HostBlock} (hb : b ∈ s.blocks) : b.region ∈ s.regions := by
  simp only [State.regions, List.mem_cons]
  exact .inr (.inr (.inr (List.mem_map_of_mem hb)))

/-- Two regions share no byte. -/
abbrev Region.Apart (r r' : Region) : Prop :=
  r.size = 0 ∨ r'.size = 0 ∨ r.base + r.size ≤ r'.base ∨ r'.base + r'.size ≤ r.base

theorem Region.Apart.symm {r r' : Region} (h : r.Apart r') : r'.Apart r := by
  rcases h with h | h | h | h
  · exact .inr (.inl h)
  · exact .inl h
  · exact .inr (.inr (.inr h))
  · exact .inr (.inr (.inl h))

/-- The invariant keeps the arenas and the live host blocks apart (R7, R52, R180). -/
theorem State.Inv.regions_apart (h : s.Inv) : s.regions.Pairwise Region.Apart := by
  obtain ⟨-, -, htd, hts, hds⟩ := h.cfg
  obtain ⟨hlegal, hblocks⟩ := h.blocks
  have htext : ∀ b ∈ s.blocks, s.textRegion.Apart b.region := fun b hb => by
    obtain ⟨-, -, -, -, ht, -, -⟩ := hlegal b hb
    exact Region.Apart.symm ht
  have hdata : ∀ b ∈ s.blocks, s.dataRegion.Apart b.region := fun b hb => by
    obtain ⟨-, -, -, -, -, hd, -⟩ := hlegal b hb
    exact Region.Apart.symm hd
  have hstack : ∀ b ∈ s.blocks, s.stackRegion.Apart b.region := fun b hb => by
    obtain ⟨-, -, -, -, -, -, hk⟩ := hlegal b hb
    exact Region.Apart.symm hk
  simp only [State.regions, List.pairwise_cons, List.forall_mem_cons, List.forall_mem_map, List.pairwise_map]
  exact ⟨⟨.inr (.inr htd), .inr (.inr hts), htext⟩, ⟨.inr (.inr hds), hdata⟩, hstack, hblocks⟩

/-- Under the invariant no byte lies in two regions. -/
theorem State.Inv.region_unique {r r' : Region} {c : Nat} (h : s.Inv) (hr : r ∈ s.regions) (hr' : r' ∈ s.regions)
    (hc : r.base ≤ c ∧ c < r.base + r.size) (hc' : r'.base ≤ c ∧ c < r'.base + r'.size) : r = r' := by
  by_contra hne
  have hsymm : Std.Symm Region.Apart := ⟨fun _ _ => Region.Apart.symm⟩
  have hapart : r.Apart r' := h.regions_apart.forall hr hr' hne
  omega

/-! ## Range checks -/

/-- A range that is not empty is admitted where one region with the right holds all of it (R54, R55). -/
theorem rangeOk_iff_of_pos {a : Word} {n : Nat} {kind : Access} (hn : 0 < n) :
    rangeOk s a n kind = true ↔
      ∃ r ∈ s.regions, r.allows kind = true ∧ r.base ≤ a.toNat ∧ a.toNat + n ≤ r.base + r.size := by
  simp [rangeOk, Region.contains, hn.ne']

theorem rangeOk_fetch (s : State) (a : Word) (n : Nat) :
    rangeOk s a n .fetch = true ↔
      n = 0 ∨ (s.cfg.textBase ≤ a.toNat ∧ a.toNat + n ≤ s.cfg.textBase + s.cfg.poolBytes) := by
  simp [rangeOk, State.regions, Region.contains, Region.allows, State.textRegion, State.dataRegion, State.stackRegion,
    HostBlock.region]

/-- Under the invariant the region a range begins in decides: it must have the right and hold the range to its end. -/
theorem State.Inv.rangeOk_iff {r : Region} {a : Word} {n : Nat} (h : s.Inv) (hn : 0 < n) (hr : r ∈ s.regions)
    (hge : r.base ≤ a.toNat) (hlt : a.toNat < r.base + r.size) (kind : Access) :
    rangeOk s a n kind = true ↔ r.allows kind = true ∧ a.toNat + n ≤ r.base + r.size := by
  rw [rangeOk_iff_of_pos hn]
  constructor
  · rintro ⟨r', hr', hallows, hge', hend⟩
    obtain rfl := h.region_unique hr hr' ⟨hge, hlt⟩ ⟨hge', by omega⟩
    exact ⟨hallows, hend⟩
  · exact fun ⟨hallows, hend⟩ => ⟨r, hr, hallows, hge, hend⟩

/-- It is admitted for a right the region has exactly when it does not run past the region's end. -/
theorem State.Inv.rangeOk_of_allows {r : Region} {a : Word} {n : Nat} {kind : Access} (h : s.Inv) (hn : 0 < n)
    (hr : r ∈ s.regions) (hge : r.base ≤ a.toNat) (hlt : a.toNat < r.base + r.size) (hk : r.allows kind = true) :
    rangeOk s a n kind = true ↔ a.toNat + n ≤ r.base + r.size := by
  simp only [h.rangeOk_iff hn hr hge hlt, hk, true_and]

/-- It is never admitted for a right the region has not. -/
theorem State.Inv.rangeOk_of_not_allows {r : Region} {a : Word} {n : Nat} {kind : Access} (h : s.Inv) (hn : 0 < n)
    (hr : r ∈ s.regions) (hge : r.base ≤ a.toNat) (hlt : a.toNat < r.base + r.size) (hk : r.allows kind = false) :
    rangeOk s a n kind = false := by
  simp only [← Bool.not_eq_true, h.rangeOk_iff hn hr hge hlt, hk, Bool.false_eq_true, false_and, not_false_eq_true]

/-- What R52 gives DATA, STACK and HOSTBLK: reads and writes up to the region's end, no fetch. -/
theorem State.Inv.rangeOk_of_data_rights {r : Region} {a : Word} {n : Nat} (h : s.Inv) (hn : 0 < n)
    (hr : r ∈ s.regions) (hge : r.base ≤ a.toNat) (hlt : a.toNat < r.base + r.size) (hfetch : r.allows .fetch = false)
    (hread : r.allows .read = true) (hwrite : r.allows .write = true) :
    rangeOk s a n .fetch = false ∧ (rangeOk s a n .read = true ↔ a.toNat + n ≤ r.base + r.size) ∧
      (rangeOk s a n .write = true ↔ a.toNat + n ≤ r.base + r.size) :=
  ⟨h.rangeOk_of_not_allows hn hr hge hlt hfetch, h.rangeOk_of_allows hn hr hge hlt hread,
    h.rangeOk_of_allows hn hr hge hlt hwrite⟩

/-- A range that is not empty and begins in no region is admitted for nothing (R54). -/
theorem rangeOk_of_not_readable {a : Word} {n : Nat} (hn : 0 < n) (h : ¬ s.Readable a.toNat 1) (kind : Access) :
    rangeOk s a n kind = false := by
  by_contra hc
  obtain ⟨r, hr, -, hge, hend⟩ := (rangeOk_iff_of_pos hn).1 (by simpa using hc)
  exact h (readable_one.2 ⟨r, hr, hge, by omega⟩)

/-- Every region lies above address 0, by a word at least (R7, R64, R180). -/
theorem State.Inv.not_readable_zero (h : s.Inv) : ¬ s.Readable 0 1 := by
  obtain ⟨-, ⟨⟨-, htext, -⟩, ⟨-, hdata, -⟩, ⟨-, hstack, -⟩⟩, -⟩ := h.cfg
  have hpos := s.cfg.xlen.bytes_pos
  rintro (hc | ⟨hc, -⟩ | ⟨hc, -⟩ | ⟨hc, -⟩ | ⟨b, hb, hc, -⟩)
  · omega
  · omega
  · omega
  · omega
  · obtain ⟨-, hblock, -⟩ := h.blocks.1 b hb
    omega

/-- Settles O23: the three rights range by range; under the invariant, region by region from what the region a range
begins in allows. -/
theorem rangesLieInOneRegion : Obligations.RangesLieInOneRegion := by
  refine ⟨fun s a n => ⟨rangeOk_read s a n, rangeOk_write s a n, rangeOk_fetch s a n⟩, fun s a n h hn => ?_⟩
  refine ⟨fun ⟨hge, hlt⟩ => ?text, fun ⟨hge, hlt⟩ => ?data, fun ⟨hge, hlt⟩ => ?stack,
    fun b hb hge hlt => ?block, rangeOk_of_not_readable hn, h.not_readable_zero⟩
  case text =>
    have hmem := s.textRegion_mem
    exact ⟨h.rangeOk_of_not_allows hn hmem hge hlt rfl, h.rangeOk_of_allows hn hmem hge hlt rfl,
      h.rangeOk_of_allows hn hmem hge hlt rfl⟩
  case data => exact h.rangeOk_of_data_rights hn s.dataRegion_mem hge hlt rfl rfl rfl
  case stack => exact h.rangeOk_of_data_rights hn s.stackRegion_mem hge hlt rfl rfl rfl
  case block => exact h.rangeOk_of_data_rights hn (HostBlock.region_mem hb) hge hlt rfl rfl rfl

end Sys2Proof.Machine
end

section
/-! The encoding (spec 30_encoding.md R80 to R90): the opcode map covers 0 to 37, decode undoes encode and nothing else
decodes, and a step runs what the bytes at pc decode to. -/

namespace Sys2Proof.Machine
open Sys2Proof.Laws
variable {s : State} {x : Xlen} {i : Instr}

/-! ## The opcode map -/

/-- The opcode table holds every instruction's row (R86). -/
theorem tableRow : ∀ i : Instr, TableRow.Statement i
  | .lea v => TableRow.lea v
  | .imm v => TableRow.imm v
  | .jmp v => TableRow.jmp v
  | .call v => TableRow.call v
  | .jz v => TableRow.jz v
  | .jnz v => TableRow.jnz v
  | .ent v => TableRow.ent v
  | .adj v => TableRow.adj v
  | .lev => TableRow.lev
  | .li => TableRow.li
  | .lc => TableRow.lc
  | .si => TableRow.si
  | .sc => TableRow.sc
  | .push => TableRow.push
  | .or => TableRow.or
  | .xor => TableRow.xor
  | .and => TableRow.and
  | .eq => TableRow.eq
  | .ne => TableRow.ne
  | .lt => TableRow.lt
  | .gt => TableRow.gt
  | .le => TableRow.le
  | .ge => TableRow.ge
  | .shl => TableRow.shl
  | .shr => TableRow.shr
  | .add => TableRow.add
  | .sub => TableRow.sub
  | .mul => TableRow.mul
  | .div => TableRow.div
  | .mod => TableRow.mod
  | .opn => TableRow.opn
  | .read => TableRow.read
  | .clos => TableRow.clos
  | .prtf v => TableRow.prtf v
  | .malc => TableRow.malc
  | .mset => TableRow.mset
  | .mcmp => TableRow.mcmp
  | .exit => TableRow.exit

/-- The table's numbers are 0 to 37, without a gap (R86). -/
theorem opcodeTable_keys : opcodeTable.map Prod.fst = List.range 38 := rfl

/-- A word selects no row exactly when it is above the last number (R87, R88). -/
theorem formatOf_eq_none_iff (op : Word) : formatOf op = none ↔ 37 < op.toNat := by
  have hkeys : formatOf op = none ↔ op.toNat ∉ opcodeTable.map Prod.fst := by
    rw [formatOf, List.lookup_eq_none_iff, List.mem_map, not_exists]
    refine forall_congr' fun p => ?_
    rw [not_and, bne_iff_ne, ne_comm]
  rw [hkeys, opcodeTable_keys, List.mem_range]
  omega

theorem number_lt (i : Instr) : i.number < 38 := by cases i <;> simp [Instr.number]

/-- An opcode number is a word at either XLEN (R81). -/
theorem fits_number (x : Xlen) (i : Instr) : x.Fits (BitVec.ofNat 64 i.number) := by
  have hlt := number_lt i
  cases x <;> simp only [Xlen.Fits, Xlen.bits, BitVec.toNat_ofNat] <;> omega

/-- The opcode word of an instruction is looked up under its number (R87). -/
theorem formatOf_number (i : Instr) : formatOf (BitVec.ofNat 64 i.number) = opcodeTable.lookup i.number := by
  have hlt := number_lt i
  rw [formatOf, BitVec.toNat_ofNat, Nat.mod_eq_of_lt (by omega)]

theorem formatOf_number_f0 (h : i.operand = none) : formatOf (BitVec.ofNat 64 i.number) = some (.f0 i) := by
  have hrow := tableRow i
  rw [TableRow.Statement, h] at hrow
  rw [formatOf_number, hrow]

theorem formatOf_number_f1 {v : Word} (h : i.operand = some v) :
    ∃ mk, formatOf (BitVec.ofNat 64 i.number) = some (.f1 mk) ∧ mk v = i := by
  have hrow := tableRow i
  rw [TableRow.Statement, h] at hrow
  rw [formatOf_number]
  exact hrow

/-! ## What encode writes and decode reads -/

/-- An F0 instruction is its opcode word (R81). -/
theorem encode_f0 {op : Word} (h : formatOf op = some (.f0 i)) : encode x i = wordBytes x op := by
  obtain ⟨hoperand, rfl⟩ := formatOf_f0 h
  simp [encode, Instr.words, hoperand]

/-- An F1 instruction is its opcode word and its operand word (R82). -/
theorem encode_f1 {op : Word} {mk : Word → Instr} (h : formatOf op = some (.f1 mk)) (v : Word) :
    encode x (mk v) = wordBytes x op ++ wordBytes x v := by
  obtain ⟨hoperand, hop⟩ := formatOf_f1 h v
  simp [encode, Instr.words, hoperand, ← hop]

/-- At least one word of bytes is a word's bytes and the rest. -/
theorem wordBytes_append_drop {bs : List Byte} (h : x.bytes ≤ bs.length) :
    wordBytes x (bytesWord (bs.take x.bytes)) ++ bs.drop x.bytes = bs := by
  rw [wordBytes_bytesWord x (List.length_take_of_le h), List.take_append_drop]

/-- Everything decode answers: an F0 row's instruction, read from its opcode word, or an F1 row's, read from its opcode
word and the operand word behind it (R81, R82, R85). -/
theorem decode_eq_ok_iff {bs rest : List Byte} :
    decode x bs = .ok (i, rest) ↔ ∃ op, x.Fits op ∧
      ((formatOf op = some (.f0 i) ∧ bs = wordBytes x op ++ rest) ∨
        ∃ mk v, x.Fits v ∧ formatOf op = some (.f1 mk) ∧ i = mk v ∧ bs = wordBytes x op ++ (wordBytes x v ++ rest)) := by
  constructor
  · intro h
    unfold decode at h
    split at h
    · cases h
    next hlen =>
    have hop : wordBytes x (bytesWord (bs.take x.bytes)) ++ bs.drop x.bytes = bs := wordBytes_append_drop (by omega)
    refine ⟨bytesWord (bs.take x.bytes), fits_bytesWord x (by simp), ?_⟩
    split at h
    · cases h
    · next i' hf =>
      cases h
      exact .inl ⟨hf, hop.symm⟩
    · next mk hf =>
      split at h
      · cases h
      next hlen' =>
      cases h
      have hv := wordBytes_append_drop (x := x) (bs := bs.drop x.bytes) (by rw [List.length_drop]; omega)
      rw [List.drop_drop, ← Nat.two_mul] at hv
      exact .inr ⟨mk, _, fits_bytesWord x (by simp), hf, rfl, by rw [hv, hop]⟩
  · rintro ⟨op, hop, ⟨hf, rfl⟩ | ⟨mk, v, hv, hf, rfl, rfl⟩⟩
    · simp [decode, bytesWord_wordBytes x hop, hf]
    · have hdrop : (wordBytes x op ++ (wordBytes x v ++ rest)).drop (x.bytes + x.bytes) = rest := by
        rw [← List.append_assoc, List.drop_left' (by simp)]
      simp [decode, bytesWord_wordBytes x hop, bytesWord_wordBytes x hv, hf, Nat.two_mul, hdrop]

/-- Settles O2: by format, from the row the instruction's number selects. -/
theorem decodeOfEncodeIsTheInstruction : Obligations.DecodeOfEncodeIsTheInstruction := by
  intro x i rest hwf
  refine decode_eq_ok_iff.2 ⟨BitVec.ofNat 64 i.number, fits_number x i, ?_⟩
  cases hoperand : i.operand with
  | none =>
    have hf := formatOf_number_f0 hoperand
    exact .inl ⟨hf, by rw [encode_f0 hf]⟩
  | some v =>
    obtain ⟨mk, hf, rfl⟩ := formatOf_number_f1 hoperand
    exact .inr ⟨mk, v, imm_fits hwf hoperand, hf, rfl, by rw [encode_f1 hf, List.append_assoc]⟩

/-- Settles O3: by the format of the row that was selected. -/
theorem decodedBytesAreTheEncoding : Obligations.DecodedBytesAreTheEncoding := by
  intro x bs rest i h
  obtain ⟨op, -, ⟨hf, rfl⟩ | ⟨mk, v, hv, hf, rfl, rfl⟩⟩ := decode_eq_ok_iff.1 h
  · obtain ⟨hoperand, -⟩ := formatOf_f0 hf
    exact ⟨by simp [Instr.wf, hoperand], by rw [encode_f0 hf]⟩
  · obtain ⟨hoperand, -⟩ := formatOf_f1 hf v
    exact ⟨by simpa [Instr.wf, hoperand] using hv, by rw [encode_f1 hf, List.append_assoc]⟩

/-- Settles O1: the spec's encoding examples, evaluated. -/
theorem specWordsDecode : Obligations.SpecWordsDecode := by
  unfold Obligations.SpecWordsDecode
  decide

/-! ## A step at an opcode word -/

/-- A Running core executes what it fetched (R83). -/
theorem step_of_fetchInstr_ok (hr : s.Running) (h : fetchInstr s = .ok i) : step s = exec i s := by
  have hrun : s.runstate = running := hr
  simp only [step, if_pos hrun, h]

/-- Settles O4: the opcode map's end, and the fault of a fetch that selects no opcode. -/
theorem opcodeWordsAbove37AreIllegal : Obligations.OpcodeWordsAbove37AreIllegal :=
  ⟨formatOf_eq_none_iff, fun _ hr ht h =>
    step_of_fetchInstr_error hr (fetchInstr_illegal ht ((formatOf_eq_none_iff _).2 h))⟩

/-- Behind a word of the instruction arena the next address does not wrap: no arena reaches 2^XLEN (R7). -/
theorem State.TextWord.toNat_slot_one {a : Word} (h : s.TextWord a) (hcfg : s.cfg.wf) :
    (s.slot a 1).toNat = a.toNat + s.cfg.xlen.bytes := by
  obtain ⟨-, ⟨⟨-, -, htop⟩, -, -⟩, -⟩ := hcfg
  obtain ⟨-, -, hend⟩ := h
  have hpos := s.cfg.xlen.bytes_pos
  rw [State.toNat_slot, Nat.one_mul, Nat.mod_eq_of_lt (by omega)]

/-- Where some bytes of memory begin with a word's, that word stands there and the rest behind it. -/
theorem State.word_of_readBytes {a op : Word} {n : Nat} {rest : List Byte} (hop : s.cfg.xlen.Fits op)
    (h : s.mem.readBytes a.toNat n = wordBytes s.cfg.xlen op ++ rest) :
    s.word a = op ∧ n = s.cfg.xlen.bytes + rest.length ∧
      s.mem.readBytes (a.toNat + s.cfg.xlen.bytes) rest.length = rest := by
  have hn : n = s.cfg.xlen.bytes + rest.length := by simpa using congrArg List.length h
  subst hn
  have hsplit : s.mem.readBytes a.toNat (s.cfg.xlen.bytes + rest.length) = s.mem.readBytes a.toNat s.cfg.xlen.bytes ++
      s.mem.readBytes (a.toNat + s.cfg.xlen.bytes) rest.length := by
    simp [Memory.readBytes, List.range_add, Nat.add_assoc]
  obtain ⟨hword, hrest⟩ := List.append_inj (hsplit.symm.trans h) (by simp)
  exact ⟨by rw [State.word, hword, bytesWord_wordBytes _ hop], rfl, hrest⟩

/-- The bytes at pc decode to the instruction that is fetched (R83, R85). -/
theorem fetchInstr_of_decode {n : Nat} {rest : List Byte} (hcfg : s.cfg.wf) (ha : s.pc.toNat % s.cfg.xlen.bytes = 0)
    (hge : s.cfg.textBase ≤ s.pc.toNat) (hend : s.pc.toNat + n ≤ s.cfg.textBase + s.cfg.poolBytes)
    (h : decode s.cfg.xlen (s.mem.readBytes s.pc.toNat n) = .ok (i, rest)) : fetchInstr s = .ok i := by
  obtain ⟨op, hop, ⟨hf, hbytes⟩ | ⟨mk, v, hv, hf, rfl, hbytes⟩⟩ := decode_eq_ok_iff.1 h
  · obtain ⟨rfl, hn, -⟩ := State.word_of_readBytes hop hbytes
    exact fetchInstr_f0 ⟨ha, hge, by omega⟩ hf
  · obtain ⟨rfl, hn, hrest⟩ := State.word_of_readBytes hop hbytes
    have ht : s.TextWord s.pc := ⟨ha, hge, by omega⟩
    have hslot := State.TextWord.toNat_slot_one ht hcfg
    rw [← hslot] at hrest
    obtain ⟨rfl, hm, -⟩ := State.word_of_readBytes hv hrest
    exact fetchInstr_f1 ht hf ⟨State.slot_aligned 1 ha, by omega, by omega⟩

/-- Settles O5. -/
theorem stepRunsTheDecodedInstruction : Obligations.StepRunsTheDecodedInstruction :=
  fun _ _ _ _ hcfg hr ha hge hend h => step_of_fetchInstr_ok hr (fetchInstr_of_decode hcfg ha hge hend h)

/-! ## Zero-filled text -/

/-- The word 0 is LEA's opcode (R86, R90). -/
theorem formatOf_zero : formatOf 0 = some (.f1 .lea) := rfl

/-- LEA 0 copies bp to ax (R101). -/
theorem exec_lea_zero (hbp : s.cfg.xlen.Fits s.bp) : exec (.lea 0) s = .next ((s.setAx s.bp).setPc s.next2) := by
  have haddr : s.xlen.add s.bp (s.scaled 0) = s.bp := by
    apply BitVec.eq_of_toNat_eq
    simpa [State.xlen] using Nat.mod_eq_of_lt hbp
  rw [exec, execLea, finish_ok, haddr]

/-- Settles O7: the zero word selects LEA, whose operand word is zero, or past the arena's end. -/
theorem zeroFilledTextRunsLea : Obligations.ZeroFilledTextRunsLea := by
  rintro s hcfg ⟨-, -, hbp, -⟩ hr ht hzero
  have hf : formatOf (s.word s.pc) = some (.f1 .lea) := by rw [hzero, formatOf_zero]
  have hslot := State.TextWord.toNat_slot_one ht hcfg
  refine ⟨fun ht' hzero' => ?inside, fun hlast => ?last⟩
  case inside =>
    have hfetch := fetchInstr_f1 ht hf ht'
    rw [hzero'] at hfetch
    refine ⟨_, (step_of_fetchInstr_ok hr hfetch).trans (exec_lea_zero hbp), rfl, ?_⟩
    have hslot' := State.TextWord.toNat_slot_one ht' hcfg
    rw [State.toNat_slot, hslot, Nat.one_mul, Nat.add_assoc, ← Nat.two_mul] at hslot'
    rw [State.setPc_pc, State.next2, State.toNat_slot, hslot']
  case last =>
    have hout : ¬ s.TextWord (s.slot s.pc 1) := by
      rintro ⟨-, -, hend⟩
      have hpos := s.cfg.xlen.bytes_pos
      omega
    exact ⟨s.slot s.pc 1, hslot.trans hlast, step_of_fetchInstr_error hr
      (fetchInstr_operand_error ht hf (fetch_outside (State.slot_aligned 1 ht.1) hout))⟩

end Sys2Proof.Machine
end

section
/-! Data movement (spec 40_data_movement.md R100 to R107): what a load puts in ax, what a store leaves in memory, and
the faults of both in their order. -/

namespace Sys2Proof.Machine
variable {s : State}

/-! ## Where pc moves -/

/-- pc set to the word `k` words past P is pc moved past `k` words (R18). -/
theorem State.pcPast_setPc_slot (s u : State) (k : Nat) : s.PcPast (u.setPc (s.slot s.pc k)) k := s.toNat_slot s.pc k

/-! ## IMM and LEA -/

/-- Settles O25: IMM cannot fault, and writes ax and pc (R100). -/
theorem immLoadsTheImmediate : Obligations.ImmLoadsTheImmediate :=
  ⟨⟨.imm, rfl, fun _ => rfl⟩, fun v s => ⟨(s.setAx v).setPc s.next2, rfl, rfl, s.pcPast_setPc_slot _ 2⟩⟩

/-- LEA's address, modulo 2^XLEN once over the whole sum (R84, R101). -/
theorem State.toNat_add_scaled (s : State) (a v : Word) :
    (s.xlen.add a (s.scaled v)).toNat = (a.toNat + v.toNat * s.cfg.xlen.bytes) % 2 ^ s.cfg.xlen.bits := by
  rw [Xlen.toNat_add, State.toNat_scaled, State.xlen, Nat.add_mod_mod]

/-- Settles O26: LEA cannot fault, and its two reductions modulo 2^XLEN are one. -/
theorem leaFormsAFrameAddress : Obligations.LeaFormsAFrameAddress :=
  ⟨⟨.lea, rfl, fun _ => rfl⟩, fun v s => ⟨(s.setAx (s.xlen.add s.bp (s.scaled v))).setPc s.next2, rfl, rfl,
    s.pcPast_setPc_slot _ 2, s.toNat_add_scaled s.bp v⟩⟩

/-! ## LC and LI -/

/-- A load whose check passes puts what it makes of the loaded value in ax (R102, R103). -/
theorem finish_load_ok {n : Width} (f : Word → Word) (h : accessCheck s s.ax n .read = .ok ()) :
    finish s (memRead s s.ax n >>= fun w => .ok ((s.setAx (f w)).setPc s.next1)) =
      .next ((s.setAx (f (loadAt s s.ax n))).setPc s.next1) := by
  rw [memRead_of_check h, ok_bind, finish_ok]

/-- A load whose check fails takes the check's fault (R58, R206). -/
theorem finish_load_error {a : Word} {n : Width} {e : Trap} (f : Word → Except Trap State)
    (h : accessCheck s a n .read = .error e) : finish s (memRead s a n >>= f) = .next (s.afterFault e) := by
  rw [memRead_error_of_check h, error_bind, finish_error]

/-- The s-value of a sign-extended byte is the byte's (R12). -/
theorem sval_sextByte (x : Xlen) (b : Byte) : x.sval (x.sextByte b) = b.toInt := by
  have hbits : 8 ≤ x.bits := by cases x <;> decide
  rw [Xlen.sextByte, Xlen.sval_put, BitVec.toInt_signExtend_of_le hbits]

/-- The u-value of a zero-extended byte is the byte's (R12). -/
theorem toNat_zextByte (x : Xlen) (b : Byte) : (x.zextByte b).toNat = b.toNat := by
  have hbits : 8 ≤ x.bits := by cases x <;> decide
  rw [Xlen.zextByte, Xlen.toNat_put, BitVec.toNat_setWidth_of_le hbits]

theorem fits_extendByte (s : State) (b : Byte) : s.cfg.xlen.Fits (extendByte s b) := by
  cases h : s.cfg.lcExt <;> simp only [extendByte, h] <;> exact Xlen.fits_put ..

theorem extendByte_sign (h : s.cfg.lcExt = .sign) (b : Byte) : extendByte s b = s.cfg.xlen.sextByte b := by
  simp only [extendByte, h, State.xlen]

theorem extendByte_zero (h : s.cfg.lcExt = .zero) (b : Byte) : extendByte s b = s.cfg.xlen.zextByte b := by
  simp only [extendByte, h, State.xlen]

/-- LC extends the very byte that stands at the address (R102). -/
theorem setWidth_loadAt_byte (s : State) (a : Word) : (loadAt s a .byte).setWidth 8 = s.byte a.toNat := by
  rw [loadAt_byte, BitVec.setWidth_setWidth_of_le _ (by decide), BitVec.setWidth_eq]

/-- LC on a readable byte (R102). -/
theorem exec_lc_ok (h : s.Readable s.ax.toNat 1) :
    exec .lc s = .next ((s.setAx (extendByte s (s.byte s.ax.toNat))).setPc s.next1) := by
  rw [← setWidth_loadAt_byte]
  exact finish_load_ok (fun w => extendByte s (w.setWidth 8)) (accessCheck_read_ok nofun h)

/-- Settles O27: the byte at ax, extended as the launch says; a byte access has no fault but that of bounds. -/
theorem lcLoadsOneExtendedByte : Obligations.LcLoadsOneExtendedByte := by
  refine ⟨rfl, fun s => ⟨fun h => ?ok, fun h => ?outside⟩⟩
  case ok =>
    refine ⟨_, exec_lc_ok h, rfl, s.pcPast_setPc_slot _ 1, fits_extendByte s _, fun hsign => ?_, fun hzero => ?_⟩
    · rw [State.setPc_ax, State.setAx_ax, extendByte_sign hsign, sval_sextByte]
    · rw [State.setPc_ax, State.setAx_ax, extendByte_zero hzero, toNat_zextByte]
  case outside => exact finish_load_error _ (accessCheck_read_outside nofun h)

/-- LI on an aligned readable word (R103). -/
theorem exec_li_ok (ha : s.ax.toNat % s.cfg.xlen.bytes = 0) (h : s.Readable s.ax.toNat s.cfg.xlen.bytes) :
    exec .li s = .next ((s.setAx (s.word s.ax)).setPc s.next1) :=
  finish_load_ok (fun w => w) (accessCheck_read_ok (fun _ => ha) h)

/-- Settles O28: the word at ax byte by byte; alignment is checked before bounds. -/
theorem liLoadsAnAlignedWord : Obligations.LiLoadsAnAlignedWord := by
  refine ⟨rfl, fun s => ⟨fun ha h => ?ok, fun ha => ?misaligned, fun ha h => ?outside⟩⟩
  case ok =>
    exact ⟨_, exec_li_ok ha h, rfl, s.pcPast_setPc_slot _ 1, s.fits_word s.ax, fun _ hk => s.extractLsb'_word s.ax hk⟩
  case misaligned => exact finish_load_error _ (accessCheck_misaligned ha)
  case outside => exact finish_load_error _ (accessCheck_read_outside (fun _ => ha) h)

/-! ## SC and SI -/

/-- A store of the bytes of a word does not see bits above XLEN (R56). -/
theorem wordBytes_narrow (x : Xlen) (w : Word) : wordBytes x (x.narrow w) = wordBytes x w := by
  refine List.map_congr_left fun k hk => BitVec.eq_of_getLsbD_eq fun i hi => ?_
  have hbit : 8 * k + i < x.bits := by
    have hk := List.mem_range.1 hk
    have hbits := x.bits_eq
    omega
  have hle := x.bits_le
  simp [Xlen.narrow, Xlen.put, Xlen.get, hbit, show 8 * k + i < 64 by omega]

/-- A word store leaves the low XLEN bits of its value at the address and every byte outside as it was (R59, R61). -/
theorem State.stored_storeAt_word (s : State) (a v : Word) :
    s.Stored (storeAt s a .word v) a (s.cfg.xlen.narrow v) := by
  refine ⟨?_, fun c hc => ?_⟩
  · rw [storeAt_word, ← wordBytes_narrow, ← storeAt_word]
    exact word_storeAt_word s a (s.cfg.xlen.fits_narrow v)
  · rw [storeAt_word]
    exact Memory.read_writeBytes_outside s.mem _ _ c (by rwa [length_wordBytes])

/-- The state SC and SI leave when they complete: ax stored at the popped address, sp and pc one word on
(R104, R105). -/
def popStored (s : State) (n : Width) : State :=
  (storeAt (s.setSp (s.slot s.sp 1)) (s.word s.sp) n s.ax).setPc s.next1

/-- What SC and SI share of a completed store: memory, sp and pc are written, and nothing else (R104, R105). -/
theorem popStored_frame (s : State) (n : Width) :
    (popStored s n = { s with sp := (popStored s n).sp, pc := (popStored s n).pc, mem := (popStored s n).mem }) ∧
      s.SpUp (popStored s n) 1 ∧ s.PcPast (popStored s n) 1 :=
  ⟨rfl, s.toNat_slot s.sp 1, s.toNat_slot s.pc 1⟩

theorem finish_popStore_ok {n : Width} (h : s.StackSlot s.sp)
    (ha : n = .word → (s.word s.sp).toNat % s.cfg.xlen.bytes = 0)
    (hw : s.Writable (s.word s.sp).toNat (n.bytes s.cfg.xlen)) :
    finish s (popStore s n) = .next (popStored s n) := by
  rw [popStore_ok h ha hw, finish_ok, popStored]

/-- A fault of the pop comes first (R104, R105). -/
theorem finish_popStore_error {e : Trap} (n : Width) (h : s.StackFault s.sp e) :
    finish s (popStore s n) = .next (s.afterFault e) := by
  rw [popStore_error n h, finish_error]

/-- A fault of the store undoes the pop (R104, R105, R206). -/
theorem finish_popStore_fault {n : Width} {e : Trap} (h : s.StackSlot s.sp)
    (hc : accessCheck s (s.word s.sp) n .write = .error e) : finish s (popStore s n) = .next (s.afterFault e) := by
  rw [popStore_fault h hc, finish_error]

/-- Settles O29: one byte at the popped address; the pop's faults first, then that of bounds. -/
theorem scStoresTheLowByte : Obligations.ScStoresTheLowByte := by
  refine ⟨rfl, fun s => ⟨fun h hw => ?ok, fun e h => ?pop, fun h hw => ?outside⟩⟩
  case ok =>
    obtain ⟨hframe, hsp, hpc⟩ := popStored_frame s .byte
    have hbyte := byte_storeAt_byte (s.setSp (s.slot s.sp 1)) (s.word s.sp) s.ax
    refine ⟨_, finish_popStore_ok h nofun hw, hframe, hsp, hpc, ?_, fun c hc => ?_⟩
    · exact (hbyte _).trans (if_pos rfl)
    · exact (hbyte c).trans (if_neg hc)
  case pop => exact finish_popStore_error .byte h
  case outside => exact finish_popStore_fault h (accessCheck_write_outside nofun hw)

/-- Settles O30: one word at the popped address; the pop's faults first, then alignment, then bounds. -/
theorem siStoresTheWord : Obligations.SiStoresTheWord := by
  refine ⟨rfl, fun s => ⟨fun h ha hw => ?ok, fun e h => ?pop, fun h ha => ?misaligned, fun h ha hw => ?outside⟩⟩
  case ok =>
    obtain ⟨hframe, hsp, hpc⟩ := popStored_frame s .word
    exact ⟨_, finish_popStore_ok h (fun _ => ha) hw, hframe, hsp, hpc,
      (s.setSp (s.slot s.sp 1)).stored_storeAt_word (s.word s.sp) s.ax⟩
  case pop => exact finish_popStore_error .word h
  case misaligned => exact finish_popStore_fault h (accessCheck_misaligned ha)
  case outside => exact finish_popStore_fault h (accessCheck_write_outside (fun _ => ha) hw)

/-! ## PUSH -/

theorem exec_push_eq (s : State) :
    exec .push s = finish s (push s s.ax >>= fun t => .ok (t.setPc s.next1)) := rfl

/-- PUSH on an admitted slot (R106). -/
theorem exec_push_ok (h : s.StackSlot s.pushSlot) :
    exec .push s = .next (((storeAt s s.pushSlot .word s.ax).setSp s.pushSlot).setPc s.next1) := by
  rw [exec_push_eq, push_ok s.ax h, ok_bind, finish_ok, storeAt_word]

/-- PUSH takes the fault of its slot (R106, R206). -/
theorem exec_push_error {e : Trap} (h : s.StackFault s.pushSlot e) : exec .push s = .next (s.afterFault e) := by
  rw [exec_push_eq, push_error s.ax h, error_bind, finish_error]

/-- Settles O31: ax stands in the slot below the old stack top, where sp now points. -/
theorem pushStoresAxBelowTheStackTop : Obligations.PushStoresAxBelowTheStackTop :=
  ⟨rfl, fun s => ⟨fun h => ⟨_, exec_push_ok h, rfl, s.toNat_pushSlot, s.pcPast_setPc_slot _ 1,
    s.stored_storeAt_word s.pushSlot s.ax⟩, fun _ => exec_push_error⟩⟩

end Sys2Proof.Machine
end

section
/-! Control flow (spec 41_control_flow.md R120 to R132): the jumps, what CALL and ENT push, ADJ, what LEV reads back, and
the frame that CALL and ENT build and LEV drops. -/

namespace Sys2Proof.Machine
variable {s t : State}

/-! ## Jumps -/

/-- The test of JZ and JNZ is on the whole word (R121, R122). -/
theorem axIsZero_iff (s : State) : axIsZero s = true ↔ s.ax = 0 := beq_iff_eq

/-- Settles O32: none of the three jumps can fault; JZ and JNZ choose between the same two addresses by one test. -/
theorem jumpsWriteOnlyThePc : Obligations.JumpsWriteOnlyThePc := by
  refine ⟨⟨⟨.jmp, rfl, fun _ => rfl⟩, ⟨.jz, rfl, fun _ => rfl⟩, .jnz, rfl, fun _ => rfl⟩, fun v s =>
    ⟨⟨s.setPc v, rfl, rfl⟩, ⟨s.setPc (if axIsZero s then v else s.next2), rfl, rfl, fun h => ?jzTaken, fun h => ?jzNext⟩,
      ⟨s.setPc (if axIsZero s then s.next2 else v), rfl, rfl, fun h => ?jnzTaken, fun h => ?jnzNext⟩⟩⟩
  case jzTaken => rw [if_pos ((axIsZero_iff s).2 h), State.setPc_pc]
  case jzNext =>
    rw [if_neg (mt (axIsZero_iff s).1 h)]
    exact s.pcPast_setPc_slot s 2
  case jnzTaken => rw [if_neg (mt (axIsZero_iff s).1 h), State.setPc_pc]
  case jnzNext =>
    rw [if_pos ((axIsZero_iff s).2 h)]
    exact s.pcPast_setPc_slot s 2

/-! ## ADJ -/

/-- Settles O35: ADJ cannot fault, and writes sp and pc. -/
theorem adjMovesTheStackPointer : Obligations.AdjMovesTheStackPointer :=
  ⟨⟨.adj, rfl, fun _ => rfl⟩, fun n s => ⟨(s.setSp (s.xlen.add s.sp (s.scaled n))).setPc s.next2, rfl, rfl,
    s.pcPast_setPc_slot _ 2, s.toNat_add_scaled s.sp n⟩⟩

/-! ## What a push leaves -/

/-- The state after push(v) on an admitted slot (R16). -/
def pushed (s : State) (v : Word) : State := (storeAt s s.pushSlot .word v).setSp s.pushSlot

theorem push_eq_pushed (v : Word) (h : s.StackSlot s.pushSlot) : push s v = .ok (pushed s v) := by
  rw [push_ok v h, pushed, storeAt_word]

/-- The word a push leaves in its slot, and the bytes it leaves alone (R16, R61). -/
theorem State.stored_pushed (s : State) (v : Word) : s.Stored (pushed s v) s.pushSlot (s.cfg.xlen.narrow v) :=
  s.stored_storeAt_word s.pushSlot v

/-- An instruction whose one check is its push completes where the slot is admitted (R123, R124). -/
theorem finish_push_ok (v : Word) (f : State → State) (h : s.StackSlot s.pushSlot) :
    finish s (push s v >>= fun t => .ok (f t)) = .next (f (pushed s v)) := by
  rw [push_eq_pushed v h, ok_bind, finish_ok]

/-- It takes the push's fault elsewhere (R123, R124, R206). -/
theorem finish_push_error {e : Trap} (v : Word) (f : State → Except Trap State) (h : s.StackFault s.pushSlot e) :
    finish s (push s v >>= f) = .next (s.afterFault e) := by
  rw [push_error v h, error_bind, finish_error]

/-- Where it did not fault, its slot was admitted. -/
theorem finish_push_inv {v : Word} {f : State → State} (h : finish s (push s v >>= fun t => .ok (f t)) = .next t)
    (hf : ¬ t.Faulted) : s.StackSlot s.pushSlot ∧ t = f (pushed s v) := by
  rcases s.stackSlot_or_fault s.pushSlot with hslot | ⟨e, he⟩
  · rw [finish_push_ok v f hslot] at h
    cases h
    exact ⟨hslot, rfl⟩
  · rw [finish_push_error v _ he] at h
    cases h
    exact absurd rfl hf

/-! ## CALL -/

/-- The state CALL leaves when it completes (R123). -/
def callState (s : State) (v : Word) : State := (pushed s s.next2).setPc v

/-- CALL on an admitted slot (R123). -/
theorem exec_call_ok (v : Word) (h : s.StackSlot s.pushSlot) : exec (.call v) s = .next (callState s v) :=
  finish_push_ok s.next2 (·.setPc v) h

/-- CALL that did not fault (R123). -/
theorem exec_call_inv {v : Word} (h : exec (.call v) s = .next t) (hf : ¬ t.Faulted) :
    s.StackSlot s.pushSlot ∧ t = callState s v :=
  finish_push_inv (f := (·.setPc v)) h hf

/-- The return address is a word of XLEN bits, so the whole of it is pushed (R18, R20). -/
theorem State.fits_next2 (s : State) : s.cfg.xlen.Fits s.next2 := s.fits_slot s.pc 2

/-- Settles O33: the return address goes through a push; a fault is that push's. -/
theorem callPushesTheReturnAddress : Obligations.CallPushesTheReturnAddress := by
  refine ⟨⟨.call, rfl, fun _ => rfl⟩, fun v s => ⟨fun h => ?ok, fun e => finish_push_error s.next2 _⟩⟩
  case ok =>
    have hstored := s.stored_pushed s.next2
    rw [Xlen.narrow_of_fits _ s.fits_next2] at hstored
    exact ⟨callState s v, s.next2, exec_call_ok v h, rfl, s.toNat_pushSlot, s.toNat_slot s.pc 2, hstored⟩

/-! ## ENT -/

/-- What ENT makes of the state its push left: bp points at the saved bp, `n` slots are reserved below it (R124). -/
def reserveFrame (s : State) (n : Word) (t : State) : State :=
  ((t.setBp t.sp).setSp (t.xlen.sub t.sp (t.scaled n))).setPc s.next2

/-- The state ENT leaves when it completes (R124). -/
def entState (s : State) (n : Word) : State := reserveFrame s n (pushed s s.bp)

/-- ENT on an admitted slot (R124). -/
theorem exec_ent_ok (n : Word) (h : s.StackSlot s.pushSlot) : exec (.ent n) s = .next (entState s n) :=
  finish_push_ok s.bp (reserveFrame s n) h

/-- ENT that did not fault (R124). -/
theorem exec_ent_inv {n : Word} (h : exec (.ent n) s = .next t) (hf : ¬ t.Faulted) :
    s.StackSlot s.pushSlot ∧ t = entState s n :=
  finish_push_inv (f := reserveFrame s n) h hf

/-- An address less a scaled operand, modulo 2^XLEN once over the whole difference (R84, R124). -/
theorem State.toNat_sub_scaled (s : State) (a n : Word) :
    ((s.xlen.sub a (s.scaled n)).toNat : Int) =
      ((a.toNat : Int) - n.toNat * s.cfg.xlen.bytes) % (2 ^ s.cfg.xlen.bits : Nat) := by
  rw [Xlen.toNat_sub, State.toNat_scaled, State.xlen, Int.natCast_emod, Int.sub_emod_emod, Nat.cast_mul]

/-- sp after ENT: `n` slots below the new bp (R124). -/
theorem toNat_sp_entState (s : State) (n : Word) :
    ((entState s n).sp.toNat : Int) =
      (((entState s n).bp.toNat : Int) - n.toNat * s.cfg.xlen.bytes) % (2 ^ s.cfg.xlen.bits : Nat) :=
  s.toNat_sub_scaled s.pushSlot n

/-- Settles O34: the old bp goes through a push; a fault is that push's. -/
theorem entMakesAFrame : Obligations.EntMakesAFrame :=
  ⟨⟨.ent, rfl, fun _ => rfl⟩, fun n s => ⟨fun h => ⟨entState s n, exec_ent_ok n h, rfl, s.toNat_pushSlot,
    toNat_sp_entState s n, s.pcPast_setPc_slot _ 2, s.stored_pushed s.bp⟩, fun _ => finish_push_error s.bp _⟩⟩

/-! ## LEV -/

/-- The state LEV leaves when it completes (R126). -/
def levState (s : State) : State := ((s.setSp (s.slot s.bp 2)).setBp (s.word s.bp)).setPc (s.word (s.slot s.bp 1))

theorem exec_lev_eq (s : State) :
    exec .lev s = finish s (stackRead s s.bp >>= fun newbp => stackRead s (s.slot s.bp 1) >>= fun ret =>
      .ok (((s.setSp (s.slot s.bp 2)).setBp newbp).setPc ret)) := rfl

/-- LEV on two admitted words (R126). -/
theorem exec_lev_ok (h : s.StackSlot s.bp) (h' : s.StackSlot (s.slot s.bp 1)) : exec .lev s = .next (levState s) := by
  rw [exec_lev_eq, stackRead_ok h, ok_bind, stackRead_ok h', ok_bind, finish_ok, levState]

/-- The fault of LEV's first read decides alone (R126, R206). -/
theorem exec_lev_first_error {e : Trap} (h : s.StackFault s.bp e) : exec .lev s = .next (s.afterFault e) := by
  rw [exec_lev_eq, stackRead_error h, error_bind, finish_error]

/-- The fault of LEV's second read undoes the first (R126, R206). -/
theorem exec_lev_second_error {e : Trap} (h : s.StackSlot s.bp) (he : s.StackFault (s.slot s.bp 1) e) :
    exec .lev s = .next (s.afterFault e) := by
  rw [exec_lev_eq, stackRead_ok h, ok_bind, stackRead_error he, error_bind, finish_error]

/-- Settles O36: both reads in order; behind an aligned word the next one is aligned, so its fault is that of bounds. -/
theorem levDropsTheFrameAndReturns : Obligations.LevDropsTheFrameAndReturns :=
  ⟨rfl, fun s => ⟨fun h h' => ⟨levState s, exec_lev_ok h h', rfl, s.toNat_slot s.bp 2⟩, fun _ => exec_lev_first_error,
    fun h h' => exec_lev_second_error h (.inr ⟨State.slot_aligned 1 h.1, h', rfl⟩)⟩⟩

/-! ## Slots above and below each other -/

/-- Slots reckoned from a slot: the numbers add up (R13, R16). -/
theorem State.slot_slot (s : State) (a : Word) (j k : Nat) : s.slot (s.slot a j) k = s.slot a (j + k) := by
  apply BitVec.eq_of_toNat_eq
  rw [State.toNat_slot, State.toNat_slot, State.toNat_slot, Nat.mod_add_mod, Nat.add_assoc, Nat.add_mul]

/-- The slot above the one a push writes is the old stack top, where the push wraps around 2^XLEN too (R13, R16). -/
theorem State.slot_pushSlot (hsp : s.cfg.xlen.Fits s.sp) : s.slot s.pushSlot 1 = s.sp := by
  have hwb : s.xlen.word (1 * s.xlen.bytes) = s.xlen.wb := by rw [Nat.one_mul, Xlen.wb]
  rw [State.slot, hwb, State.pushSlot, Xlen.add, Xlen.sub, Xlen.get_put, BitVec.sub_add_cancel]
  exact Xlen.put_get _ hsp

/-- Two aligned words at different addresses share no byte (R57). -/
theorem aligned_words_apart {a b w : Nat} (ha : a % w = 0) (hb : b % w = 0) (hne : a ≠ b) :
    a + w ≤ b ∨ b + w ≤ a := by
  obtain ⟨i, rfl⟩ := Nat.dvd_of_mod_eq_zero ha
  obtain ⟨j, rfl⟩ := Nat.dvd_of_mod_eq_zero hb
  rcases Nat.lt_or_gt_of_ne fun hij : i = j => hne (by rw [hij]) with hlt | hlt
  · exact .inl (Nat.mul_le_mul_left w hlt)
  · exact .inr (Nat.mul_le_mul_left w hlt)

/-- A word store leaves every word that it shares no byte with (R59). -/
theorem word_storeAt_word_apart (s : State) {a b : Word} (v : Word)
    (h : b.toNat + s.cfg.xlen.bytes ≤ a.toNat ∨ a.toNat + s.cfg.xlen.bytes ≤ b.toNat) :
    (storeAt s a .word v).word b = s.word b := by
  have hread := Memory.readBytes_writeBytes_outside s.mem a.toNat (wordBytes s.cfg.xlen v) b.toNat s.cfg.xlen.bytes
  rw [length_wordBytes] at hread
  simp only [storeAt_word, State.word, State.setMem_mem, State.setMem_cfg, hread h]

/-- The slot above a slot is another one: 2^XLEN is more than WB. -/
theorem State.toNat_slot_one_ne (s : State) (a : Word) : (s.slot a 1).toNat ≠ a.toNat := by
  rw [State.toNat_slot]
  cases s.cfg.xlen <;> simp only [Xlen.bits, Xlen.bytes] <;> omega

/-- Behind a word of the stack arena the next address does not wrap: no arena reaches 2^XLEN (R7). -/
theorem State.StackSlot.toNat_slot_one {a : Word} (h : s.StackSlot a) (hcfg : s.cfg.wf) :
    (s.slot a 1).toNat = a.toNat + s.cfg.xlen.bytes := by
  obtain ⟨-, ⟨-, -, ⟨-, -, htop⟩⟩, -⟩ := hcfg
  obtain ⟨-, -, hend⟩ := h
  have hpos := s.cfg.xlen.bytes_pos
  rw [State.toNat_slot, Nat.one_mul, Nat.mod_eq_of_lt (by omega)]

/-! ## The frame of CALL and ENT -/

/-- The state CALL `f` and ENT `n` leave when neither faults (R130). -/
def frameState (s : State) (f n : Word) : State := entState (callState s f) n

/-- CALL and ENT that did not fault had both slots admitted. -/
theorem exec_call_ent_inv {f n : Word} {s₁ s₂ : State} (hcall : exec (.call f) s = .next s₁) (h₁ : ¬ s₁.Faulted)
    (hent : exec (.ent n) s₁ = .next s₂) (h₂ : ¬ s₂.Faulted) :
    s.StackSlot s.pushSlot ∧ s.StackSlot (callState s f).pushSlot ∧ s₂ = frameState s f n := by
  obtain ⟨hret, rfl⟩ := exec_call_inv hcall h₁
  obtain ⟨hbp, rfl⟩ := exec_ent_inv hent h₂
  exact ⟨hret, hbp, rfl⟩

/-- bp points at ENT's slot (R130). -/
theorem frameState_bp (s : State) (f n : Word) : (frameState s f n).bp = (callState s f).pushSlot := rfl

/-- CALL's slot is the word above the one pushed next (R123). -/
theorem slot_pushSlot_callState (s : State) (f : Word) : s.slot (callState s f).pushSlot 1 = s.pushSlot :=
  (callState s f).slot_pushSlot s.fits_pushSlot

/-- CALL's slot is the word above bp (R130). -/
theorem slot_one_frameState (s : State) (f n : Word) :
    (frameState s f n).slot (frameState s f n).bp 1 = s.pushSlot :=
  slot_pushSlot_callState s f

/-- The caller's stack top is two words above bp (R130). -/
theorem slot_two_frameState (f n : Word) (hsp : s.cfg.xlen.Fits s.sp) :
    (frameState s f n).slot (frameState s f n).bp 2 = s.sp := by
  rw [← State.slot_slot _ _ 1 1, slot_one_frameState]
  exact s.slot_pushSlot hsp

/-- The caller's bp stands at bp (R130). -/
theorem word_bp_frameState (f n : Word) (hbp : s.cfg.xlen.Fits s.bp) :
    (frameState s f n).word (frameState s f n).bp = s.bp :=
  ((callState s f).stored_pushed s.bp).1.trans (Xlen.narrow_of_fits _ hbp)

/-- The return address stands in CALL's slot, since ENT's shares no byte with it (R130). -/
theorem word_return_frameState (n : Word) {f : Word} (hret : s.StackSlot s.pushSlot)
    (hbp : s.StackSlot (callState s f).pushSlot) : (frameState s f n).word s.pushSlot = s.next2 := by
  have hne := s.toNat_slot_one_ne (callState s f).pushSlot
  rw [slot_pushSlot_callState] at hne
  calc (frameState s f n).word s.pushSlot
      = (callState s f).word s.pushSlot :=
        word_storeAt_word_apart (callState s f) s.bp (aligned_words_apart hret.1 hbp.1 hne)
    _ = s.cfg.xlen.narrow s.next2 := (s.stored_pushed s.next2).1
    _ = s.next2 := Xlen.narrow_of_fits _ s.fits_next2

/-- Every byte outside the two words is the caller's (R130). -/
theorem byte_frameState (n : Word) {f : Word} {c : Nat} (hcfg : s.cfg.wf) (hbp : s.StackSlot (callState s f).pushSlot)
    (hc : c < (frameState s f n).bp.toNat ∨ (frameState s f n).bp.toNat + 2 * s.cfg.xlen.bytes ≤ c) :
    (frameState s f n).byte c = s.byte c := by
  have habove := hbp.toNat_slot_one hcfg
  rw [slot_pushSlot_callState] at habove
  rw [frameState_bp] at hc
  have hcall : c < s.pushSlot.toNat ∨ s.pushSlot.toNat + s.cfg.xlen.bytes ≤ c := by omega
  have hent : c < (callState s f).pushSlot.toNat ∨ (callState s f).pushSlot.toNat + s.cfg.xlen.bytes ≤ c := by omega
  calc (frameState s f n).byte c
      = (callState s f).byte c := ((callState s f).stored_pushed s.bp).2 c hent
    _ = s.byte c := (s.stored_pushed s.next2).2 c hcall

/-- Settles O37: LEV's two reads are of the words CALL and ENT wrote, so it cannot fault and undoes both. -/
theorem callEntLevRoundTrip : Obligations.CallEntLevRoundTrip := by
  rintro f n s s₁ s₂ s₃ ⟨-, hsp, hbp, -, -⟩ - hcall h₁ hent h₂ hlev
  obtain ⟨hretSlot, hbpSlot, rfl⟩ := exec_call_ent_inv hcall h₁ hent h₂
  have hslot := slot_one_frameState s f n
  rw [exec_lev_ok hbpSlot (by rw [hslot]; exact hretSlot)] at hlev
  cases hlev
  have hpc : (levState (frameState s f n)).pc = s.next2 := by
    rw [levState, State.setPc_pc, hslot, word_return_frameState n hretSlot hbpSlot]
  refine ⟨slot_two_frameState f n hsp, word_bp_frameState f n hbp, rfl, ?_⟩
  rw [State.PcPast, hpc]
  exact s.toNat_slot s.pc 2

/-- Settles O38: the two words and the bytes around them, one by one. -/
theorem callAndEntBuildTheFrame : Obligations.CallAndEntBuildTheFrame := by
  rintro f n s s₁ s₂ hcfg ⟨-, hsp, hbp, -, -⟩ - hcall h₁ hent h₂
  obtain ⟨hretSlot, hbpSlot, rfl⟩ := exec_call_ent_inv hcall h₁ hent h₂
  refine ⟨word_bp_frameState f n hbp, ?_, slot_two_frameState f n hsp, toNat_sp_entState (callState s f) n,
    fun c => byte_frameState n hcfg hbpSlot⟩
  rw [slot_one_frameState, word_return_frameState n hretSlot hbpSlot]
  exact s.toNat_slot s.pc 2

end Sys2Proof.Machine
end

section
/-! The sixteen operators (spec 42_alu.md R140 to R163): the shape they share, what each one's result function computes,
and how the operands of DIV, MOD and SUB come together. -/

namespace Sys2Proof

/-! ## Bits and edges of words -/

theorem Xlen.getLsbD_get (x : Xlen) (w : Word) {k : Nat} (hk : k < x.bits) : (x.get w).getLsbD k = w.getLsbD k := by
  rw [Xlen.get, BitVec.getLsbD_setWidth, decide_eq_true hk, Bool.true_and]

theorem Xlen.getLsbD_put (x : Xlen) (v : BitVec x.bits) {k : Nat} (hk : k < x.bits) :
    (x.put v).getLsbD k = v.getLsbD k := by
  rw [← x.getLsbD_get _ hk, Xlen.get_put]

theorem Xlen.get_eq_zero_iff (x : Xlen) (w : Word) : x.get w = 0 ↔ x.sval w = 0 := by
  rw [Xlen.sval, ← BitVec.toInt_inj, BitVec.ofNat_eq_ofNat, BitVec.toInt_zero]

/-- MIN is the least vector of XLEN bits (R12). -/
theorem Xlen.get_minWord (x : Xlen) : x.get x.minWord = BitVec.intMin x.bits := by
  cases x <;> decide

theorem Xlen.get_eq_intMin_iff (x : Xlen) (w : Word) :
    x.get w = BitVec.intMin x.bits ↔ x.sval w = -(2 : Int) ^ (x.bits - 1) := by
  rw [← BitVec.toInt_inj, BitVec.toInt_intMin_of_pos x.bits_pos, Xlen.sval]

/-! ## Shifts, quotients and remainders of words -/

/-- A vector shifted left is multiplied by a power of two modulo 2^XLEN (R150). -/
theorem Xlen.toNat_put_shiftLeft (x : Xlen) (l : Word) (n : Nat) :
    (x.put (x.get l <<< n)).toNat = l.toNat * 2 ^ n % 2 ^ x.bits := by
  rw [Xlen.toNat_put, BitVec.toNat_shiftLeft, Nat.shiftLeft_eq, Xlen.toNat_get, Nat.mod_mul_mod]

/-- The word made of the s-value of a vector has that s-value. -/
theorem Xlen.sval_wordInt_toInt (x : Xlen) (v : BitVec x.bits) : x.sval (x.wordInt v.toInt) = v.toInt := by
  rw [Xlen.wordInt, BitVec.ofInt_toInt, Xlen.sval_put]

/-- An s-value divided by a power of two and rounded down is an s-value: that of the arithmetic shift (R151). -/
theorem Xlen.sval_wordInt_div_pow (x : Xlen) (l : Word) (n : Nat) :
    x.sval (x.wordInt (x.sval l / 2 ^ n)) = (x.sval l).fdiv (2 ^ n) := by
  have hshift : x.sval l / 2 ^ n = ((x.get l).sshiftRight n).toInt := by
    rw [BitVec.toInt_sshiftRight, Int.shiftRight_eq_div_pow, Nat.cast_pow, Nat.cast_ofNat, Xlen.sval]
  rw [Int.fdiv_eq_ediv_of_nonneg _ (by positivity), hshift, Xlen.sval_wordInt_toInt]

/-- Where it is not MIN by -1, the truncated quotient of two s-values is an s-value (R155). -/
theorem Xlen.sval_wordInt_tdiv (x : Xlen) {l r : Word}
    (h : ¬ (x.sval l = -(2 : Int) ^ (x.bits - 1) ∧ x.sval r = -1)) :
    x.sval (x.wordInt ((x.sval l).tdiv (x.sval r))) = (x.sval l).tdiv (x.sval r) := by
  have hne : x.get l ≠ BitVec.intMin x.bits ∨ x.get r ≠ -1#x.bits := by
    rw [ne_eq, ne_eq, Xlen.get_eq_intMin_iff, ← not_and_or]
    refine fun ⟨hmin, hneg⟩ => h ⟨hmin, ?_⟩
    rw [Xlen.sval, hneg, BitVec.neg_one_eq_allOnes, BitVec.toInt_allOnes, if_pos x.bits_pos]
  have hquot : (x.sval l).tdiv (x.sval r) = ((x.get l).sdiv (x.get r)).toInt :=
    (BitVec.toInt_sdiv_of_ne_or_ne _ _ hne).symm
  rw [hquot, Xlen.sval_wordInt_toInt]

/-- R156's remainder is the truncating one. -/
theorem sub_tdiv_mul_eq_tmod (a b : Int) : a - a.tdiv b * b = a.tmod b := by
  rw [Int.tmod_def, Int.mul_comm]

/-- A truncating remainder is zero or has the sign of the dividend (R156). -/
theorem tmod_eq_zero_or_pos_iff (a b : Int) : a.tmod b = 0 ∨ (0 < a.tmod b ↔ 0 < a) := by
  by_cases hdvd : b ∣ a
  · exact .inl (Int.tmod_eq_zero_of_dvd hdvd)
  · right
    rw [← Int.sign_eq_one_iff_pos, Int.sign_tmod, if_neg hdvd, Int.sign_eq_one_iff_pos]

/-- The remainder of two s-values is an s-value (R156). -/
theorem Xlen.sval_wordInt_mod (x : Xlen) (l r : Word) :
    x.sval (x.wordInt (x.sval l - (x.sval l).tdiv (x.sval r) * x.sval r)) =
      x.sval l - (x.sval l).tdiv (x.sval r) * x.sval r := by
  have hrem : (x.sval l).tmod (x.sval r) = ((x.get l).srem (x.get r)).toInt := (BitVec.toInt_srem _ _).symm
  rw [sub_tdiv_mul_eq_tmod, hrem, Xlen.sval_wordInt_toInt]

end Sys2Proof

namespace Sys2Proof.Machine
open Sys2Proof.Claims
variable {s : State}

/-! ## The shape of an operator -/

/-- The state an operator whose result is `v` leaves when it completes (R140). -/
def operated (s : State) (v : Word) : State := ((s.setSp (s.slot s.sp 1)).setAx v).setPc s.next1

/-- The registers such an operator writes, and nothing else (R140). -/
theorem afterOperator_operated (s : State) (v : Word) : s.AfterOperator (operated s v) :=
  ⟨rfl, s.toNat_slot s.sp 1, s.toNat_slot s.pc 1⟩

section
variable {i : Instr} {f : Xlen → Word → Word → Except Trap Word} (hexec : ∀ s, exec i s = finish s (binary s f))
include hexec

/-- An operator whose pop is admitted and whose operands have a result (R140). -/
theorem exec_operator_ok {v : Word} (h : s.StackSlot s.sp) (hf : f s.cfg.xlen (s.word s.sp) s.ax = .ok v) :
    exec i s = .next (operated s v) := by
  rw [hexec, binary_ok h hf, finish_ok, operated]

/-- An operator whose pop is admitted and whose operands fault: the pop is undone (R140, R206). -/
theorem exec_operator_fault {e : Trap} (h : s.StackSlot s.sp) (hf : f s.cfg.xlen (s.word s.sp) s.ax = .error e) :
    exec i s = .next (s.afterFault e) := by
  rw [hexec, binary_fault h hf, finish_error]

/-- An operator whose pop faults (R140). -/
theorem exec_operator_popFault {e : Trap} (h : s.StackFault s.sp e) : exec i s = .next (s.afterFault e) := by
  rw [hexec, binary_error f h, finish_error]

/-- The rule of an operator whose result function answers on all operands (R140). -/
theorem operatorRule_of_result {number : Word} {value : State → Word → Word → Prop}
    (hrow : formatOf number = some (.f0 i))
    (hvalue : ∀ s l, ∃ v, f s.cfg.xlen l s.ax = .ok v ∧ value s l v) : OperatorRule i number value := by
  refine ⟨hrow, fun s => ⟨fun h => ?_, fun e => exec_operator_popFault hexec⟩⟩
  obtain ⟨v, hf, hv⟩ := hvalue s (s.word s.sp)
  exact ⟨operated s v, exec_operator_ok hexec h hf, afterOperator_operated s v, hv⟩

/-- The rule of an operator whose result function raises ArithmeticFault on the operands `ok` leaves out (R140). -/
theorem faultingOperatorRule_of_result {number : Word} {ok : State → Word → Prop} {value : State → Word → Word → Prop}
    (hrow : formatOf number = some (.f0 i))
    (hvalue : ∀ s l, ok s l → ∃ v, f s.cfg.xlen l s.ax = .ok v ∧ value s l v)
    (hfault : ∀ s l, ¬ ok s l → f s.cfg.xlen l s.ax = .error .arithmetic) :
    FaultingOperatorRule i number ok value := by
  refine ⟨hrow, fun s => ⟨fun h hok => ?_, fun h hok => exec_operator_fault hexec h (hfault s _ hok),
    fun e => exec_operator_popFault hexec⟩⟩
  obtain ⟨v, hf, hv⟩ := hvalue s (s.word s.sp) hok
  exact ⟨operated s v, exec_operator_ok hexec h hf, afterOperator_operated s v, hv⟩

end

/-! ## OR, XOR and AND -/

/-- A vector operation that works bit by bit works so on words (R141 to R143). -/
theorem bitwise_put {f : Bool → Bool → Bool} (s : State) (l : Word)
    {op : BitVec s.cfg.xlen.bits → BitVec s.cfg.xlen.bits → BitVec s.cfg.xlen.bits}
    (hop : ∀ u v k, (op u v).getLsbD k = f (u.getLsbD k) (v.getLsbD k)) :
    Bitwise f s l (s.cfg.xlen.put (op (s.cfg.xlen.get l) (s.cfg.xlen.get s.ax))) :=
  ⟨Xlen.fits_put _ _, fun k hk => by
    rw [Xlen.getLsbD_put _ _ hk, hop, Xlen.getLsbD_get _ _ hk, Xlen.getLsbD_get _ _ hk]⟩

/-- Settles O39: each of the three is one vector operation, bit by bit. -/
theorem bitwiseOperators : Obligations.BitwiseOperators :=
  ⟨operatorRule_of_result (fun _ => rfl) rfl fun s l =>
      ⟨_, rfl, bitwise_put s l fun _ _ _ => BitVec.getLsbD_or⟩,
    operatorRule_of_result (fun _ => rfl) rfl fun s l =>
      ⟨_, rfl, bitwise_put s l fun _ _ _ => BitVec.getLsbD_xor⟩,
    operatorRule_of_result (fun _ => rfl) rfl fun s l =>
      ⟨_, rfl, bitwise_put s l fun _ _ _ => BitVec.getLsbD_and⟩⟩

/-! ## Comparisons -/

/-- The word 1 or 0 by a test that decides the relation (R163). -/
theorem truth_truthWord {p : State → Word → Prop} {b : Bool} {l : Word} (h : b = true ↔ p s l) :
    Truth p s l (truthWord b) :=
  ⟨fun hp => by rw [h.2 hp]; rfl, fun hp => by rw [Bool.eq_false_iff.2 (mt h.1 hp)]; rfl⟩

/-- The XLEN-bit values of two words are equal exactly where their XLEN bits are (R144). -/
theorem get_eq_get_iff_sameBits (s : State) (l : Word) : s.cfg.xlen.get l = s.cfg.xlen.get s.ax ↔ SameBits s l := by
  constructor
  · intro h k hk
    rw [← Xlen.getLsbD_get _ l hk, h, Xlen.getLsbD_get _ _ hk]
  · intro h
    refine BitVec.eq_of_getLsbD_eq fun k hk => ?_
    rw [Xlen.getLsbD_get _ _ hk, h k hk, Xlen.getLsbD_get _ _ hk]

/-- Settles O40: every comparison writes the truth word of its relation. -/
theorem comparisonOperators : Obligations.ComparisonOperators :=
  ⟨operatorRule_of_result (fun _ => rfl) rfl fun s l =>
      ⟨_, rfl, truth_truthWord (beq_iff_eq.trans (get_eq_get_iff_sameBits s l))⟩,
    operatorRule_of_result (fun _ => rfl) rfl fun s l =>
      ⟨_, rfl, truth_truthWord (bne_iff_ne.trans (get_eq_get_iff_sameBits s l).not)⟩,
    operatorRule_of_result (fun _ => rfl) rfl fun _ _ => ⟨_, rfl, truth_truthWord decide_eq_true_iff⟩,
    operatorRule_of_result (fun _ => rfl) rfl fun _ _ => ⟨_, rfl, truth_truthWord decide_eq_true_iff⟩,
    operatorRule_of_result (fun _ => rfl) rfl fun _ _ => ⟨_, rfl, truth_truthWord decide_eq_true_iff⟩,
    operatorRule_of_result (fun _ => rfl) rfl fun _ _ => ⟨_, rfl, truth_truthWord decide_eq_true_iff⟩⟩

/-! ## Shifts -/

theorem countOk_iff_countLegal (s : State) (l : Word) : countOk s.cfg.xlen s.ax = true ↔ CountLegal s l :=
  decide_eq_true_iff

/-- Settles O41: the count decides between the result and the fault, in both. -/
theorem shiftOperators : Obligations.ShiftOperators := by
  refine ⟨faultingOperatorRule_of_result (f := aluShl) (fun _ => rfl) rfl (fun s l h => ?shl) (fun s l h => ?shlFault),
    faultingOperatorRule_of_result (f := aluShr) (fun _ => rfl) rfl (fun s l h => ?shr) (fun s l h => ?shrFault)⟩
  case shl => exact ⟨_, if_pos ((countOk_iff_countLegal s l).2 h), Xlen.toNat_put_shiftLeft _ l _⟩
  case shr =>
    exact ⟨_, if_pos ((countOk_iff_countLegal s l).2 h), Xlen.fits_wordInt _ _, Xlen.sval_wordInt_div_pow _ l _⟩
  case shlFault | shrFault => exact if_neg (mt (countOk_iff_countLegal s l).1 h)

/-! ## ADD, SUB and MUL -/

/-- Settles O42: the three are the model's arithmetic modulo 2^XLEN. -/
theorem additiveAndMultiplicativeOperators : Obligations.AdditiveAndMultiplicativeOperators :=
  ⟨operatorRule_of_result (fun _ => rfl) rfl fun s l => ⟨_, rfl, Xlen.toNat_add _ l s.ax⟩,
    operatorRule_of_result (fun _ => rfl) rfl fun s l => ⟨_, rfl, Xlen.toNat_sub _ l s.ax⟩,
    operatorRule_of_result (fun _ => rfl) rfl fun s l => ⟨_, rfl, Xlen.toNat_mul _ l s.ax⟩⟩

/-! ## DIV and MOD -/

theorem divFaults_iff_not_quotientExists (s : State) (l : Word) :
    divFaults s.cfg.xlen l s.ax = true ↔ ¬ QuotientExists s l := by
  rw [divFaults, Bool.or_eq_true, Bool.and_eq_true, beq_iff_eq, beq_iff_eq, beq_iff_eq, Xlen.get_minWord,
    Xlen.get_eq_intMin_iff, Xlen.get_eq_zero_iff, QuotientExists, not_and_or, not_not, not_not]

/-- Settles O43: the operands decide between the result and the fault, alike in both. -/
theorem divisionOperators : Obligations.DivisionOperators := by
  refine ⟨faultingOperatorRule_of_result (f := aluDiv) (fun _ => rfl) rfl (fun s l h => ?div) (fun s l h => ?divFault),
    faultingOperatorRule_of_result (f := aluMod) (fun _ => rfl) rfl (fun s l h => ?mod) (fun s l h => ?modFault)⟩
  case div =>
    exact ⟨_, if_neg (fun hf => (divFaults_iff_not_quotientExists s l).1 hf h), Xlen.fits_wordInt _ _,
      Xlen.sval_wordInt_tdiv _ h.2⟩
  case mod =>
    exact ⟨_, if_neg (fun hf => (divFaults_iff_not_quotientExists s l).1 hf h), Xlen.fits_wordInt _ _,
      Xlen.sval_wordInt_mod _ l s.ax⟩
  case divFault | modFault => exact if_pos ((divFaults_iff_not_quotientExists s l).2 h)

/-- An operator that completes keeps the core Running (R140). -/
theorem State.AfterOperator.not_faulted {t : State} (h : s.AfterOperator t) (hr : s.Running) : ¬ t.Faulted := by
  obtain ⟨ht, -, -⟩ := h
  rw [ht, State.Faulted, hr]
  decide

/-- Settles O44: from the rules of DIV and MOD, which fault on the same operands and give a quotient and its
remainder on all others. -/
theorem quotientAndRemainderRecombine : Obligations.QuotientAndRemainderRecombine := by
  intro s t u hr hslot hdiv hmod
  obtain ⟨⟨-, divRule⟩, -, modRule⟩ := divisionOperators
  obtain ⟨divOk, divFault, -⟩ := divRule s
  obtain ⟨modOk, modFault, -⟩ := modRule s
  by_cases hq : QuotientExists s (s.word s.sp)
  case pos =>
    obtain ⟨t', ht, hafter, -, hquot⟩ := divOk hslot hq
    obtain ⟨u', hu, hafter', -, hrem⟩ := modOk hslot hq
    cases hdiv.symm.trans ht
    cases hmod.symm.trans hu
    refine ⟨iff_of_false (hafter.not_faulted hr) (hafter'.not_faulted hr), fun _ => ⟨?recombine, ?_⟩⟩
    case recombine => rw [hquot, hrem, add_sub_cancel]
    rw [hrem, sub_tdiv_mul_eq_tmod, Int.natAbs_tmod]
    exact ⟨Nat.mod_lt _ (Int.natAbs_pos.2 hq.1), tmod_eq_zero_or_pos_iff _ _⟩
  case neg =>
    cases hdiv.symm.trans (divFault hslot hq)
    cases hmod.symm.trans (modFault hslot hq)
    exact ⟨Iff.rfl, fun hf => absurd rfl hf⟩

/-! ## PUSH, IMM, SUB -/

theorem exec_imm_eq (s : State) (v : Word) : exec (.imm v) s = .next ((s.setAx v).setPc s.next2) := rfl

theorem exec_sub_ok (h : s.StackSlot s.sp) :
    exec .sub s = .next (operated s (s.cfg.xlen.sub (s.word s.sp) s.ax)) :=
  exec_operator_ok (fun _ => rfl) h rfl

/-- The state PUSH and IMM `b` leave when the push does not fault: the old ax on the stack, `b` in ax (R140, S7). -/
def pushImmState (s : State) (b : Word) : State := ((pushed s s.ax).setAx b).setPc (s.slot s.pc 3)

/-- Settles O45: SUB pops the old ax, in whose slot PUSH left it, and the three advances of pc add up. -/
theorem pushImmSubSubtractsInOrder : Obligations.PushImmSubSubtractsInOrder := by
  rintro b s ⟨-, hsp, -, hax, -⟩ - - hslot
  have himm : exec (.imm b) ((pushed s s.ax).setPc s.next1) = .next (pushImmState s b) := by
    rw [exec_imm_eq, pushImmState, ← s.slot_slot s.pc 1 2]
    rfl
  have hpopped : (pushImmState s b).word (pushImmState s b).sp = s.ax :=
    (s.stored_pushed s.ax).1.trans (Xlen.narrow_of_fits _ hax)
  have hsub : exec .sub (pushImmState s b) = .next (operated (pushImmState s b) (s.cfg.xlen.sub s.ax b)) := by
    rw [exec_sub_ok hslot, hpopped]
    rfl
  refine ⟨_, _, _, exec_push_ok hslot, himm, hsub, s.cfg.xlen.toNat_sub s.ax b, s.slot_pushSlot hsp, rfl, ?_⟩
  have hpc : (operated (pushImmState s b) (s.cfg.xlen.sub s.ax b)).pc = s.slot s.pc 4 := s.slot_slot s.pc 3 1
  rw [State.PcPast, hpc]
  exact s.toNat_slot s.pc 4

end Sys2Proof.Machine
end

section
/-! EXIT, strings, and the host-bridge opcodes other than PRTF (spec 43_exit_and_host_bridge.md R170 to R182): the
argument slots in their order, what a completed call leaves, and what each opcode makes of the host's answer. -/

namespace Sys2Proof.Machine
open Sys2Proof.Claims
variable {s : State}

/-! ## Strings and EXIT -/

/-- A string read in a state with the invariant ends: address 0 is never readable (R178). -/
theorem State.Inv.string_or_bad (h : s.Inv) (a : Word) : (∃ str, s.IsString a str) ∨ ∃ b, s.BadString a b :=
  Machine.string_or_bad s a 0 (Nat.two_pow_pos _) h.not_readable_zero

/-- Settles O24: what CStr gives on a string and on a bad string, and that there is no third case. -/
theorem stringsEndAtTheFirstZeroByte : Obligations.StringsEndAtTheFirstZeroByte := fun _ a ha =>
  ⟨fun _ => cStr_ok ha, fun _ => cStr_bad ha, fun h => h.string_or_bad a⟩

/-- EXIT on an admitted stack word (R170). -/
theorem exec_exit_ok (h : s.StackSlot s.sp) : exec .exit s = .next (s.setStatus exited s.cause (s.word s.sp)) :=
  congrArg (fun r => finish s (r >>= fun v => .ok (s.setStatus exited s.cause v))) (stackRead_ok h)

/-- EXIT takes the fault of its read (R170, R206). -/
theorem exec_exit_error {e : Trap} (h : s.StackFault s.sp e) : exec .exit s = .next (s.afterFault e) :=
  congrArg (fun r => finish s (r >>= fun v => .ok (s.setStatus exited s.cause v))) (stackRead_error h)

/-- Settles O46: the status is the word at sp, byte by byte. -/
theorem exitReportsTheStackTop : Obligations.ExitReportsTheStackTop :=
  ⟨rfl, fun s => ⟨fun h => ⟨_, exec_exit_ok h, rfl, s.fits_word s.sp, fun _ hk => s.extractLsb'_word s.sp hk⟩,
    fun _ => exec_exit_error⟩⟩

/-! ## Argument slots -/

theorem arg_ok {n k : Nat} (h : ArgsOk s n) (hk : k < n) : arg s k = .ok (argWord s k) := stackRead_ok (h k hk)

theorem one_arg_bind (h : ArgsOk s 1) (f : Word → Except Trap State) : (arg s 0 >>= f) = f (argWord s 0) := by
  rw [arg_ok h (by decide), ok_bind]

theorem two_args_bind (h : ArgsOk s 2) (f : Word → Word → Except Trap State) :
    (arg s 0 >>= fun x => arg s 1 >>= fun y => f x y) = f (argWord s 0) (argWord s 1) := by
  rw [arg_ok h (by decide), arg_ok h (by decide), ok_bind, ok_bind]

/-- Reading argument `i` either is the first fault or goes on to the slots above (R16, R171). -/
theorem arg_bind_fault {n k i : Nat} {e : Trap} {f : Word → Except Trap State} (h : ArgFault s n k e) (hi : i ≤ k)
    (hf : i < k → f (argWord s i) = .error e) : (arg s i >>= f) = .error e := by
  obtain ⟨-, hbelow, hfault⟩ := h
  rcases Nat.eq_or_lt_of_le hi with rfl | hlt
  · rw [arg_eq, stackRead_error hfault, error_bind]
  · rw [arg_eq, stackRead_ok (hbelow i hlt), ok_bind]
    exact hf hlt

section
variable {k : Nat} {e : Trap}

theorem one_arg_fault (f : Word → Except Trap State) (h : ArgFault s 1 k e) : (arg s 0 >>= f) = .error e :=
  arg_bind_fault h (Nat.zero_le k) fun h₀ => absurd h.1 (Nat.not_lt.2 h₀)

theorem two_args_fault (f : Word → Word → Except Trap State) (h : ArgFault s 2 k e) :
    (arg s 0 >>= fun x => arg s 1 >>= fun y => f x y) = .error e :=
  arg_bind_fault h (Nat.zero_le k) fun h₀ => arg_bind_fault h h₀ fun h₁ => absurd h.1 (Nat.not_lt.2 h₁)

theorem three_args_fault (f : Word → Word → Word → Except Trap State) (h : ArgFault s 3 k e) :
    (arg s 0 >>= fun x => arg s 1 >>= fun y => arg s 2 >>= fun z => f x y z) = .error e :=
  arg_bind_fault h (Nat.zero_le k) fun h₀ => arg_bind_fault h h₀ fun h₁ => arg_bind_fault h h₁ fun h₂ =>
    absurd h.1 (Nat.not_lt.2 h₂)

end

/-! ## Calls -/

/-- The state a one-word instruction leaves whose call was answered: result `r`, the bytes `written` by the host on the
record (R37, R171). -/
def answered (s : State) (q : HostRequest) (written : List Byte) (r : Word) : State :=
  bridgeEnd (hostDone s q [] (some r) written) r s.next1

theorem afterBridge_answered (s : State) (q : HostRequest) (written : List Byte) (r : Word) :
    AfterBridge s (answered s q written r) 1 := ⟨rfl, s.toNat_slot s.pc 1⟩

/-- The next known answer is the one taken (R172). -/
theorem hostAsk_of_answers {a : HostAnswer} {rest : List HostAnswer} (h : s.answers = a :: rest) (q : HostRequest) :
    hostAsk s q = a := by
  rw [hostAsk, h]

/-- It is used up. -/
theorem tail_answers {a : HostAnswer} {rest : List HostAnswer} (h : s.answers = a :: rest) : s.answers.tail = rest := by
  rw [h, List.tail_cons]

/-! ## OPEN and CLOS -/

/-- What OPEN asks the host when the path reads as `str` (R174). -/
def openRequest (s : State) (str : List Byte) : HostRequest :=
  { op := .opn, args := [argWord s 0, argWord s 1], sent := str, readable := [] }

/-- OPEN on a readable path (R174). -/
theorem exec_opn_ok {str : List Byte} (h : ArgsOk s 2) (hstr : cStr s (argWord s 1) = .ok str) :
    exec .opn s =
      .next (answered s (openRequest s str) [] (s.cfg.xlen.narrow (hostAsk s (openRequest s str)).result)) := by
  refine (congrArg (finish s) (two_args_bind h _)).trans ?_
  rw [hstr]
  rfl

/-- OPEN takes the fault of its path (R174, R206). -/
theorem exec_opn_path_error {e : Trap} (h : ArgsOk s 2) (he : cStr s (argWord s 1) = .error e) :
    exec .opn s = .next (s.afterFault e) := by
  refine (congrArg (finish s) (two_args_bind h _)).trans ?_
  rw [he]
  rfl

/-- Settles O47: the slots, then the path, then the call. -/
theorem openAsksTheHost : Obligations.OpenAsksTheHost :=
  ⟨rfl, fun s => ⟨fun h => ⟨fun _ hstr => ⟨_, exec_opn_ok h hstr, afterBridge_answered s _ _ _, rfl, rfl⟩,
    fun _ => exec_opn_path_error h⟩, fun _ _ h => congrArg (finish s) (two_args_fault _ h)⟩⟩

/-- What CLOS asks the host (R175). -/
def closRequest (s : State) : HostRequest := { op := .clos, args := [argWord s 0], sent := [], readable := [] }

/-- CLOS on an admitted slot (R175). -/
theorem exec_clos_ok (h : ArgsOk s 1) :
    exec .clos s = .next (answered s (closRequest s) [] (s.cfg.xlen.narrow (hostAsk s (closRequest s)).result)) :=
  congrArg (finish s) (one_arg_bind h _)

/-- Settles O48: the slot, then the call. -/
theorem closAsksTheHost : Obligations.ClosAsksTheHost :=
  ⟨rfl, fun s => ⟨fun h => ⟨_, exec_clos_ok h, afterBridge_answered s _ _ _, rfl, rfl⟩,
    fun _ _ h => congrArg (finish s) (one_arg_fault _ h)⟩⟩

/-! ## READ -/

theorem rangeOk_read_eq_false {a : Word} {n : Nat} (h : ¬ s.Readable a.toNat n) : rangeOk s a n .read = false :=
  Bool.eq_false_iff.2 (mt (rangeOk_read s a n).1 h)

theorem rangeOk_write_eq_false {a : Word} {n : Nat} (h : ¬ s.Writable a.toNat n) : rangeOk s a n .write = false :=
  Bool.eq_false_iff.2 (mt (rangeOk_write s a n).1 h)

/-- What READ asks the host (R176). -/
def readRequest (s : State) : HostRequest :=
  { op := .read, args := [argWord s 0, argWord s 1, argWord s 2], sent := [], readable := [] }

/-- The result word and the bytes READ takes from answer `a` (R176). -/
def readResult (s : State) (a : HostAnswer) : Word × List Byte := readAnswer s.cfg.xlen (argWord s 0).toNat a

/-- The state READ leaves when the host answers `a` (R176). -/
def readAnswered (s : State) (a : HostAnswer) : State :=
  (answered s (readRequest s) (readResult s a).2 (readResult s a).1).setMem
    (s.mem.writeBytes (argWord s 1).toNat (readResult s a).2)

/-- READ into a writable buffer (R176). -/
theorem exec_read_ok (h : ArgsOk s 3) (hw : s.Writable (argWord s 1).toNat (argWord s 0).toNat) :
    exec .read s = .next (readAnswered s (hostAsk s (readRequest s))) := by
  have hrange := (rangeOk_write s _ _).2 hw
  refine (congrArg (finish s) (three_args_bind h _)).trans ?_
  rw [if_neg (by simp [hrange])]
  rfl

/-- READ into a buffer that is not wholly writable (R176, R206). -/
theorem exec_read_outside (h : ArgsOk s 3) (hw : ¬ s.Writable (argWord s 1).toNat (argWord s 0).toNat) :
    exec .read s = .next (s.afterFault (.outOfBounds (argWord s 1))) := by
  refine (congrArg (finish s) (three_args_bind h _)).trans ?_
  rw [if_pos (rangeOk_write_eq_false hw)]
  rfl

theorem readAnswer_of_neg {x : Xlen} {a : HostAnswer} (n : Nat) (h : x.sval a.result < 0) :
    readAnswer x n a = (x.narrow a.result, []) := if_pos h

theorem readAnswer_of_nonneg {x : Xlen} {a : HostAnswer} (n : Nat) (h : ¬ x.sval a.result < 0) :
    readAnswer x n a = (x.word (a.bytes.take n).length, a.bytes.take n) := if_neg h

/-- A number below 2^(XLEN-1) is the s-value of its word (R12). -/
theorem sval_word_of_lt (x : Xlen) {n : Nat} (h : n < 2 ^ (x.bits - 1)) : x.sval (x.word n) = n := by
  have hpow := Nat.two_pow_pred_mul_two x.bits_pos
  rw [x.sval_eq (x.fits_word n), x.toNat_word_of_lt (by omega), if_pos (by omega)]

/-- No writable range is as long as 2^(XLEN-1) bytes (R6, R180). -/
theorem State.Inv.writable_lt {a n : Nat} (h : s.Inv) (hw : s.Writable a n) : n < 2 ^ (s.cfg.xlen.bits - 1) := by
  obtain ⟨⟨-, -, hpool⟩, -⟩ := h.cfg
  rcases hw with rfl | hw | hw | ⟨b, hb, hw⟩
  · exact Nat.two_pow_pos _
  · omega
  · omega
  · obtain ⟨-, -, -, hsize, -⟩ := h.blocks.1 b hb
    omega

/-- Settles O49: the two forms of READ's answer, a negative word or a count with its bytes. -/
theorem readWritesWhatTheHostGives : Obligations.ReadWritesWhatTheHostGives := by
  refine ⟨rfl, fun s => ⟨fun h => ⟨fun hw => ?_, exec_read_outside h⟩,
    fun _ _ h => congrArg (finish s) (three_args_fault _ h)⟩⟩
  generalize ha : hostAsk s (readRequest s) = a
  refine ⟨readAnswered s a, ha ▸ exec_read_ok h hw, afterBridge_answered s _ _ _, (readResult s a).2, rfl, ?_⟩
  by_cases hneg : s.cfg.xlen.sval a.result < 0
  · have hres : readResult s a = (s.cfg.xlen.narrow a.result, []) := readAnswer_of_neg _ hneg
    have hax : (readAnswered s a).ax = s.cfg.xlen.narrow a.result := congrArg Prod.fst hres
    refine .inl ⟨by rwa [hax, Xlen.sval_narrow], by rw [hres], ?_⟩
    rw [readAnswered, hres, State.setMem_mem, Memory.writeBytes_nil]
  · have hres : readResult s a = (s.cfg.xlen.word (readResult s a).2.length, (readResult s a).2) := by
      rw [readResult, readAnswer_of_nonneg _ hneg]
    have hax : (readAnswered s a).ax = s.cfg.xlen.word (readResult s a).2.length := congrArg Prod.fst hres
    have hlen : (readResult s a).2.length ≤ (argWord s 0).toNat := length_readAnswer _ _ _
    have hfits : (argWord s 0).toNat < 2 ^ s.cfg.xlen.bits := s.fits_word _
    refine .inr ⟨hlen, ?_, fun k hk => Memory.read_writeBytes_inside _ _ _ k hk,
      fun c hc => Memory.read_writeBytes_outside _ _ _ c hc, fun hinv => ?_⟩
    · rw [hax, Xlen.toNat_word_of_lt _ (hlen.trans_lt hfits)]
    · rw [hax, sval_word_of_lt _ (hlen.trans_lt (hinv.writable_lt hw))]

/-! ## MALC -/

/-- What MALC asks the host (R180). -/
def malcRequest (s : State) : HostRequest := { op := .malc, args := [argWord s 0], sent := [], readable := [] }

/-- The address MALC takes from answer `a`, 0 for none (R180). -/
def malcResult (s : State) (a : HostAnswer) : Word := malcAnswer s (argWord s 0).toNat a

/-- The state MALC leaves when it hands out the block at the address it takes from answer `a` (R180, R36). -/
def malcBlockState (s : State) (a : HostAnswer) : State :=
  addBlock (answered s (malcRequest s) [] (malcResult s a)) (malcResult s a) (argWord s 0).toNat a.bytes

theorem exec_malc_eq (h : ArgsOk s 1) {a : HostAnswer} (ha : hostAsk s (malcRequest s) = a) :
    exec .malc s = .next (bridgeEnd
      (if malcResult s a = 0 then hostDone s (malcRequest s) [] (some (malcResult s a)) []
        else addBlock (hostDone s (malcRequest s) [] (some (malcResult s a)) []) (malcResult s a) (argWord s 0).toNat
          a.bytes) (malcResult s a) s.next1) := by
  subst ha
  exact congrArg (finish s) (one_arg_bind h _)

/-- MALC whose answer is 0 (R180). -/
theorem exec_malc_zero (h : ArgsOk s 1) {a : HostAnswer} (ha : hostAsk s (malcRequest s) = a)
    (hz : malcResult s a = 0) : exec .malc s = .next (answered s (malcRequest s) [] (malcResult s a)) := by
  rw [exec_malc_eq h ha, if_pos hz, answered]

/-- MALC whose answer is a block's address (R180). -/
theorem exec_malc_block (h : ArgsOk s 1) {a : HostAnswer} (ha : hostAsk s (malcRequest s) = a)
    (hz : malcResult s a ≠ 0) : exec .malc s = .next (malcBlockState s a) := by
  rw [exec_malc_eq h ha, if_neg hz]
  rfl

/-- An answer other than 0 meets the constraints (R180). -/
theorem blockOk_of_malcAnswer_ne_zero {n : Nat} {a : HostAnswer} (h : malcAnswer s n a ≠ 0) :
    blockOk s (malcAnswer s n a) n = true := by
  unfold malcAnswer at h ⊢
  split at h
  · next hok => rwa [if_pos hok]
  · exact absurd rfl h

/-- An address that meets the constraints is the answer (R180). -/
theorem malcAnswer_of_blockOk {n : Nat} {a : HostAnswer} (hfits : s.cfg.xlen.Fits a.result)
    (h : blockOk s a.result n = true) : malcAnswer s n a = a.result := by
  have hn : s.xlen.narrow a.result = a.result := Xlen.narrow_of_fits _ hfits
  rw [malcAnswer, hn, if_pos h]

theorem malcAnswer_of_zero {n : Nat} {a : HostAnswer} (h : a.result = 0) : malcAnswer s n a = 0 := by
  have hn : s.xlen.narrow a.result = 0 := by rw [h]; exact Xlen.narrow_of_fits _ (Xlen.fits_zero _)
  rw [malcAnswer, hn, ite_self]

/-- Bytes outside the new block are kept (R180). -/
theorem byte_malcBlockState_outside (s : State) (a : HostAnswer) {c : Nat}
    (hc : c < (malcResult s a).toNat ∨ (malcResult s a).toNat + (argWord s 0).toNat ≤ c) :
    (malcBlockState s a).byte c = s.byte c := by
  have hlen : (a.bytes.take (argWord s 0).toNat).length ≤ (argWord s 0).toNat := List.length_take_le _ _
  exact Memory.read_writeBytes_outside s.mem _ _ c (by omega)

/-- The block's first contents are the host's bytes (R36; log 9). -/
theorem byte_malcBlockState_inside (s : State) (a : HostAnswer) {k : Nat} (hk : k < a.bytes.length)
    (hsize : k < (argWord s 0).toNat) : (malcBlockState s a).byte ((malcResult s a).toNat + k) = a.bytes[k] := by
  have hlen : k < (a.bytes.take (argWord s 0).toNat).length := by rw [List.length_take]; omega
  exact (Memory.read_writeBytes_inside s.mem _ _ k hlen).trans List.getElem_take

/-- Settles O53: MALC's answer is 0, or meets R180's constraints, which say byte by byte that the block is fresh. -/
theorem malcHandsOutAFreshBlock : Obligations.MalcHandsOutAFreshBlock := by
  refine ⟨rfl, fun s => ⟨fun h => ?_, fun _ _ h => congrArg (finish s) (one_arg_fault _ h)⟩⟩
  generalize ha : hostAsk s (malcRequest s) = a
  by_cases hz : malcResult s a = 0
  · exact ⟨_, exec_malc_zero h ha hz, afterBridge_answered s _ _ _, rfl, .inl ⟨hz, rfl, rfl⟩⟩
  · obtain ⟨⟨halign, hlow, hend, hsize⟩, hfresh⟩ := blockOk_bytes.1 (blockOk_of_malcAnswer_ne_zero hz)
    exact ⟨_, exec_malc_block h ha hz, afterBridge_answered s _ _ _, rfl,
      .inr ⟨hz, rfl, halign, hlow, hend, hsize, hfresh, fun _ => byte_malcBlockState_outside s a⟩⟩

/-! ## MSET -/

/-- MSET on a range that is not wholly writable (R181, R206). -/
theorem exec_mset_outside (h : ArgsOk s 3) (hw : ¬ s.Writable (argWord s 2).toNat (argWord s 0).toNat) :
    exec .mset s = .next (s.afterFault (.outOfBounds (argWord s 2))) := by
  refine (congrArg (finish s) (three_args_bind h _)).trans ?_
  rw [if_pos (rangeOk_write_eq_false hw)]
  rfl

/-- Settles O54: the range is written with copies of one byte, the low one of the fill word. -/
theorem msetFillsTheRange : Obligations.MsetFillsTheRange := by
  refine ⟨rfl, fun s => ⟨fun h => ⟨fun hw => ?_, exec_mset_outside h⟩,
    fun _ _ h => congrArg (finish s) (three_args_fault _ h)⟩⟩
  refine ⟨_, exec_mset_ok h hw, ⟨rfl, s.toNat_slot s.pc 1⟩, rfl, fun k hk => ?inside, fun c hc => ?outside⟩
  case inside =>
    refine (Memory.read_writeBytes_inside s.mem _ _ k (by rwa [List.length_replicate])).trans ?_
    rw [List.getElem_replicate, BitVec.setWidth_eq_extractLsb' (by decide)]
  case outside => exact Memory.read_writeBytes_outside s.mem _ _ c (by rwa [List.length_replicate])

/-! ## MCMP -/

/-- MCMP whose range A is not wholly readable (R182, R206). -/
theorem exec_mcmp_outside_a (h : ArgsOk s 3) (ha : ¬ s.Readable (argWord s 2).toNat (argWord s 0).toNat) :
    exec .mcmp s = .next (s.afterFault (.outOfBounds (argWord s 2))) := by
  refine (congrArg (finish s) (three_args_bind h _)).trans ?_
  rw [if_pos (rangeOk_read_eq_false ha)]
  rfl

/-- MCMP whose range B is not wholly readable (R182, R206). -/
theorem exec_mcmp_outside_b (h : ArgsOk s 3) (ha : s.Readable (argWord s 2).toNat (argWord s 0).toNat)
    (hb : ¬ s.Readable (argWord s 1).toNat (argWord s 0).toNat) :
    exec .mcmp s = .next (s.afterFault (.outOfBounds (argWord s 1))) := by
  have hrange := (rangeOk_read s _ _).2 ha
  refine (congrArg (finish s) (three_args_bind h _)).trans ?_
  rw [if_neg (by simp [hrange]), if_pos (rangeOk_read_eq_false hb)]
  rfl

/-- The two ranges MCMP compares hold the same bytes before place `k` (R182). -/
abbrev RangesAgree (s : State) (k : Nat) : Prop :=
  ∀ j < k, s.byte ((argWord s 2).toNat + j) = s.byte ((argWord s 1).toNat + j)

/-- Ranges that agree to their end have no first difference. -/
theorem mcmpDiff_eq_none (h : RangesAgree s (argWord s 0).toNat) : mcmpDiff s = none := by
  refine (firstDiff_none (by simp)).2 (List.ext_getElem (by simp) fun k hk _ => ?_)
  rw [Memory.getElem_readBytes, Memory.getElem_readBytes]
  exact h k (by simpa using hk)

/-- The first difference is where the ranges agree before and not at. -/
theorem mcmpDiff_eq_some {k : Nat} (hk : k < (argWord s 0).toNat) (h : RangesAgree s k)
    (hne : s.byte ((argWord s 2).toNat + k) ≠ s.byte ((argWord s 1).toNat + k)) :
    mcmpDiff s = some (s.byte ((argWord s 2).toNat + k), s.byte ((argWord s 1).toNat + k)) := by
  have hat := firstDiff_at (p := s.mem.readBytes (argWord s 2).toNat (argWord s 0).toNat)
    (q := s.mem.readBytes (argWord s 1).toNat (argWord s 0).toNat) k (by simpa using hk) (by simpa using hk)
  simp only [Memory.getElem_readBytes] at hat
  exact hat h hne

theorem ne_of_toNat_lt {p q : Byte} (h : p.toNat < q.toNat) : p ≠ q := fun he => h.ne (congrArg BitVec.toNat he)

theorem sval_negativeWord_neg (x : Xlen) (raw : Word) : x.sval (negativeWord x raw) < 0 := by
  unfold negativeWord
  split
  · next h => rwa [Xlen.sval_narrow]
  · cases x <;> decide

theorem sval_positiveWord_pos (x : Xlen) (raw : Word) : 0 < x.sval (positiveWord x raw) := by
  unfold positiveWord
  split
  · next h => rwa [Xlen.sval_narrow]
  · cases x <;> decide

theorem mcmpResult_of_lt (x : Xlen) {p q : Byte} (a : HostAnswer) (h : p.toNat < q.toNat) :
    mcmpResult x p q a = negativeWord x a.result := if_pos h

theorem mcmpResult_of_gt (x : Xlen) {p q : Byte} (a : HostAnswer) (h : q.toNat < p.toNat) :
    mcmpResult x p q a = positiveWord x a.result := if_neg h.asymm

/-- MCMP on two readable ranges completes, with 0 or the word its first difference asks for (R182). -/
theorem exec_mcmp_ok (h : ArgsOk s 3) (ha : s.Readable (argWord s 2).toNat (argWord s 0).toNat)
    (hb : s.Readable (argWord s 1).toNat (argWord s 0).toNat) :
    ∃ t, exec .mcmp s = .next t ∧ AfterBridge s t 1 ∧ (mcmpDiff s = none → t.ax = 0) ∧
      ∀ p q, mcmpDiff s = some (p, q) → t.ax = mcmpResult s.cfg.xlen p q (hostAsk s (mcmpRequest s)) := by
  cases hd : mcmpDiff s with
  | none => exact ⟨_, exec_mcmp_same h ha hb hd, ⟨rfl, s.toNat_slot s.pc 1⟩, fun _ => rfl, nofun⟩
  | some d =>
    refine ⟨_, exec_mcmp_differ h ha hb hd, afterBridge_answered s _ _ _, nofun, ?_⟩
    rintro p q ⟨⟩
    rfl

/-- Settles O55: no difference gives 0; the first difference, one way or the other, gives the sign. -/
theorem mcmpComparesUnsignedBytes : Obligations.McmpComparesUnsignedBytes := by
  refine ⟨rfl, fun s => ⟨fun h => ⟨fun ha hb => ?_, exec_mcmp_outside_a h, exec_mcmp_outside_b h⟩,
    fun _ _ h => congrArg (finish s) (three_args_fault _ h)⟩⟩
  obtain ⟨t, ht, hafter, hsame, hdiffer⟩ := exec_mcmp_ok h ha hb
  refine ⟨t, ht, hafter, fun hall => hsame (mcmpDiff_eq_none hall), fun k hk hbefore => ⟨fun hlt => ?_, fun hgt => ?_⟩⟩
  · rw [hdiffer _ _ (mcmpDiff_eq_some hk hbefore (ne_of_toNat_lt hlt)), mcmpResult_of_lt _ _ hlt]
    exact sval_negativeWord_neg _ _
  · rw [hdiffer _ _ (mcmpDiff_eq_some hk hbefore (ne_of_toNat_lt hgt).symm), mcmpResult_of_gt _ _ hgt]
    exact sval_positiveWord_pos _ _

end Sys2Proof.Machine
end

section
/-! PRTF (spec 43_exit_and_host_bridge.md R177, R178): its slots and its format in their order, the call that completes,
and the call whose host could not read a string argument. -/

namespace Sys2Proof.Machine
open Sys2Proof.Claims
variable {s : State} {n : Word} {fmt : List Byte}

/-! ## Slots and format -/

/-- The slots of the format and of the forwarded arguments are admitted (R177). -/
structure PrtfSlots (s : State) (n : Word) : Prop where
  format : s.StackSlot (s.prtfSlot n 0)
  arguments : ∀ k, 1 ≤ k → k ≤ s.prtfCount n → s.StackSlot (s.prtfSlot n k)

/-- The forwarded argument words, the nearest the format first (R177). -/
def prtfWords (s : State) (n : Word) : List Word :=
  (List.range (s.prtfCount n)).map fun k => s.word (s.prtfSlot n (k + 1))

theorem prtfWords_getElem?_eq_some {k : Nat} {w : Word} :
    (prtfWords s n)[k]? = some w ↔ k < s.prtfCount n ∧ s.word (s.prtfSlot n (k + 1)) = w := by
  simp [prtfWords, List.getElem?_eq_some_iff]

/-- Slot `k` is forwarded where k <= N - 1 and k <= 5 (R177). -/
theorem le_prtfCount_iff {k : Nat} (hk : 1 ≤ k) :
    k ≤ s.prtfCount n ↔ k < 1 + 5 ∧ (k : Int) ≤ s.cfg.xlen.sval n - 1 := by
  simp only [State.prtfCount, State.xlen]
  omega

/-- What PRTF does before its call: the format slot, the argument slots, the format are read; `f` is the rest (R177). -/
def prtfPrelude (s : State) (n : Word) (f : Word → List Word → List Byte → Except Trap State) : Except Trap State :=
  stackRead s (s.xlen.sub (s.xlen.add s.sp (s.scaled n)) s.xlen.wb) >>= fun fmtaddr =>
    prtfArgs s (s.xlen.add s.sp (s.scaled n)) n 5 1 >>= fun args => cStr s fmtaddr >>= fun fmt => f fmtaddr args fmt

theorem PrtfSlots.prtfArgs_eq (h : PrtfSlots s n) :
    prtfArgs s (s.xlen.add s.sp (s.scaled n)) n 5 1 = .ok (prtfWords s n) := by
  have hargs := prtfArgs_ok s n 5 1 fun j h₁ h₂ h₃ => h.arguments j h₁ ((le_prtfCount_iff h₁).2 ⟨h₂, h₃⟩)
  simp only [Nat.cast_one, Nat.add_comm 1] at hargs
  exact hargs

section
variable {e : Trap} (f : Word → List Word → List Byte → Except Trap State)

theorem prtfPrelude_ok (h : PrtfSlots s n) (hfmt : cStr s (s.word (s.prtfSlot n 0)) = .ok fmt) :
    prtfPrelude s n f = f (s.word (s.prtfSlot n 0)) (prtfWords s n) fmt := by
  rw [prtfPrelude, prtfSlot_zero, stackRead_ok h.format, ok_bind, h.prtfArgs_eq, ok_bind, hfmt, ok_bind]

theorem prtfPrelude_formatSlot_error (h : s.StackFault (s.prtfSlot n 0) e) : prtfPrelude s n f = .error e := by
  rw [prtfPrelude, prtfSlot_zero, stackRead_error h, error_bind]

theorem prtfPrelude_argument_error {k : Nat} (h₀ : s.StackSlot (s.prtfSlot n 0)) (hk : 1 ≤ k)
    (hcount : k ≤ s.prtfCount n) (hbelow : ∀ j, 1 ≤ j → j < k → s.StackSlot (s.prtfSlot n j))
    (h : s.StackFault (s.prtfSlot n k) e) : prtfPrelude s n f = .error e := by
  obtain ⟨hfive, hN⟩ := (le_prtfCount_iff hk).1 hcount
  rw [prtfPrelude, prtfSlot_zero, stackRead_ok h₀, ok_bind, prtfArgs_error s n 5 1 k hk hfive hN hbelow h, error_bind]

theorem prtfPrelude_format_error (h : PrtfSlots s n) (he : cStr s (s.word (s.prtfSlot n 0)) = .error e) :
    prtfPrelude s n f = .error e := by
  rw [prtfPrelude, prtfSlot_zero, stackRead_ok h.format, ok_bind, h.prtfArgs_eq, ok_bind, he, error_bind]

end

/-- Settles O52: the three reads before the call, in their order. -/
theorem prtfFaultsInOrder : Obligations.PrtfFaultsInOrder := fun _ s _ =>
  ⟨fun h => congrArg (finish s) (prtfPrelude_formatSlot_error _ h),
    fun h₀ _ hk hcount hbelow h => congrArg (finish s) (prtfPrelude_argument_error _ h₀ hk hcount hbelow h),
    fun h₀ hargs he => congrArg (finish s) (prtfPrelude_format_error _ ⟨h₀, hargs⟩ he)⟩

/-! ## The call -/

/-- What PRTF asks the host (R177). -/
def prtfRequest (s : State) (n : Word) (fmt : List Byte) : HostRequest :=
  { op := .prtf, args := s.word (s.prtfSlot n 0) :: prtfWords s n, sent := fmt, readable := s.mem }

/-- The state PRTF leaves when it completes on answer `a` (R177). -/
def prtfDone (s : State) (n : Word) (fmt : List Byte) (a : HostAnswer) : State :=
  bridgeEnd (hostDone s (prtfRequest s n fmt) (hostReads s (prtfReads fmt a)) (some (prtfResult s.cfg.xlen fmt a)) [])
    (prtfResult s.cfg.xlen fmt a) s.next2

/-- The state PRTF leaves when its host could not read the string argument `w`, the read failing with `e` (R177,
R206). -/
def prtfFaulted (s : State) (n : Word) (fmt : List Byte) (a : HostAnswer) (w : Word) (e : Trap) : State :=
  (hostDone s (prtfRequest s n fmt) (hostReads s (prtfReads fmt a ++ addressesTo s w e.info)) none []).afterFault
    (stringArgumentTrap s w e)

/-- PRTF whose host reads no bad string (R177). -/
theorem exec_prtf_done {a : HostAnswer} (h : PrtfSlots s n) (hfmt : cStr s (s.word (s.prtfSlot n 0)) = .ok fmt)
    (ha : hostAsk s (prtfRequest s n fmt) = a) (hf : prtfStringFault s fmt (prtfWords s n) a = none) :
    exec (.prtf n) s = .next (prtfDone s n fmt a) := by
  subst ha
  refine (congrArg (finish s) (prtfPrelude_ok _ h hfmt)).trans ?_
  rw [prtfRequest] at hf
  dsimp only
  rw [hf]
  rfl

/-- PRTF whose host reads a bad string (R177, U8). -/
theorem exec_prtf_faulted {a : HostAnswer} {w : Word} {e : Trap} (h : PrtfSlots s n)
    (hfmt : cStr s (s.word (s.prtfSlot n 0)) = .ok fmt) (ha : hostAsk s (prtfRequest s n fmt) = a)
    (hf : prtfStringFault s fmt (prtfWords s n) a = some (w, e)) :
    exec (.prtf n) s = .next (prtfFaulted s n fmt a w e) := by
  subst ha
  refine (congrArg (finish s) (prtfPrelude_ok _ h hfmt)).trans ?_
  rw [prtfRequest] at hf
  dsimp only
  rw [hf]
  rfl

theorem afterBridge_prtfDone (s : State) (n : Word) (fmt : List Byte) (a : HostAnswer) :
    AfterBridge s (prtfDone s n fmt a) 2 := ⟨rfl, s.toNat_slot s.pc 2⟩

/-- The entry of every PRTF that called the host, however the call ended (R37). -/
theorem prtfEvent_hostEvent (s : State) (n : Word) (fmt : List Byte) (read : List Host.Cell) (result : Option Word) :
    PrtfEvent s n fmt (hostEvent (prtfRequest s n fmt) read result []) := ⟨rfl, rfl, rfl, rfl⟩

theorem hasPercent_iff : hasPercent fmt = true ↔ (0x25 : Byte) ∈ fmt := List.contains_iff_mem

theorem hasPercent_eq_false (h : (0x25 : Byte) ∉ fmt) : hasPercent fmt = false :=
  Bool.eq_false_iff.2 (mt hasPercent_iff.1 h)

/-- A format without `%` has no string argument (R177). -/
theorem prtfStringFault_of_no_percent (args : List Word) (a : HostAnswer) (h : (0x25 : Byte) ∉ fmt) :
    prtfStringFault s fmt args a = none :=
  Option.eq_none_iff_forall_ne_some.2 fun _ hsome => h (hasPercent_iff.1 (prtfStringFault_eq_some.1 hsome).1)

/-- Nor does the host read memory for it (R177). -/
theorem hostReads_of_no_percent (s : State) (a : HostAnswer) (h : (0x25 : Byte) ∉ fmt) :
    hostReads s (prtfReads fmt a) = [] := by
  rw [prtfReads, hasPercent_eq_false h]
  rfl

/-- Without `%` the result is the number of format bytes or a negative word (R177, C10). -/
theorem prtfResult_of_no_percent (x : Xlen) (a : HostAnswer) (h : (0x25 : Byte) ∉ fmt) :
    (prtfResult x fmt a).toNat = fmt.length % 2 ^ x.bits ∨ x.sval (prtfResult x fmt a) < 0 := by
  by_cases hneg : x.sval a.result < 0
  · right
    rwa [prtfResult, if_neg fun hc => hneg.not_ge hc.2, Xlen.sval_narrow]
  · left
    rw [prtfResult, if_pos ⟨hasPercent_eq_false h, not_lt.1 hneg⟩, Xlen.toNat_word]

/-- Settles O50: without `%` there is no string fault and nothing for the host to read. -/
theorem prtfWithoutPercentCountsItsBytes : Obligations.PrtfWithoutPercentCountsItsBytes := by
  refine ⟨⟨.prtf, rfl, fun _ => rfl⟩, fun n s fmt h₀ hargs hfmt hno => ?_⟩
  exact ⟨_, _, exec_prtf_done ⟨h₀, hargs⟩ hfmt rfl (prtfStringFault_of_no_percent _ _ hno), afterBridge_prtfDone ..,
    prtfResult_of_no_percent _ _ hno, rfl, prtfEvent_hostEvent .., hostReads_of_no_percent _ _ hno, rfl⟩

/-! ## String arguments -/

/-- A string read that faults in a state with the invariant met its first unreadable byte there (R178). -/
theorem State.Inv.badString_of_cStr {a b : Word} (h : s.Inv) (ha : s.cfg.xlen.Fits a)
    (hc : cStr s a = .error (.outOfBounds b)) : s.BadString a b := by
  rcases h.string_or_bad a with ⟨str, hstr⟩ | ⟨b', hb'⟩
  · cases hc.symm.trans (cStr_ok ha hstr)
  · cases hc.symm.trans (cStr_bad ha hb')
    exact hb'

/-- The host's bad string is a forwarded argument's (R177). -/
theorem prtfStringFault_inv {a : HostAnswer} {w : Word} {e : Trap}
    (h : prtfStringFault s fmt (prtfWords s n) a = some (w, e)) :
    ∃ k b, k < s.prtfCount n ∧ s.word (s.prtfSlot n (k + 1)) = w ∧ e = .outOfBounds b ∧
      cStr s w = .error (.outOfBounds b) := by
  obtain ⟨-, ⟨k, -, hk⟩, hc⟩ := prtfStringFault_eq_some.1 h
  obtain ⟨hlt, rfl⟩ := prtfWords_getElem?_eq_some.1 hk
  obtain ⟨b, rfl⟩ := cStr_error hc
  exact ⟨k, b, hlt, rfl, rfl, hc⟩

/-- XVAL after PRTF's string-argument fault, by the launch's parameter (R177, R201; log 7). -/
theorem prtfFaulted_eq (a : HostAnswer) {w b : Word} (hw : s.cfg.xlen.Fits w)
    (hc : cStr s w = .error (.outOfBounds b)) :
    ∃ c, (s.cfg.stringFaultXval = .firstUnreadable → c = b) ∧ (s.cfg.stringFaultXval = .argument → c = w) ∧
      prtfFaulted s n fmt a w (.outOfBounds b) =
        { s.afterFault (.outOfBounds c) with
          events := (prtfFaulted s n fmt a w (.outOfBounds b)).events, answers := s.answers.tail } := by
  obtain ⟨c, htrap, -, hfirst, harg⟩ := stringArgumentTrap_inv hw (cStrFrom_error_fits hw hc)
  refine ⟨c, hfirst, harg, ?_⟩
  rw [prtfFaulted, htrap]
  rfl

/-- Settles O51: the answer names a bad string among the forwarded arguments, or the call completes. -/
theorem prtfWithPercentIsTheHosts : Obligations.PrtfWithPercentIsTheHosts := by
  intro n s fmt h₀ hargs hfmt _
  generalize ha : hostAsk s (prtfRequest s n fmt) = a
  cases hf : prtfStringFault s fmt (prtfWords s n) a with
  | none =>
    exact ⟨_, _, exec_prtf_done ⟨h₀, hargs⟩ hfmt ha hf, rfl, prtfEvent_hostEvent .., fun _ => mem_hostReads,
      .inl ⟨afterBridge_prtfDone .., rfl⟩, fun _ => afterBridge_prtfDone ..⟩
  | some p =>
    obtain ⟨w, e⟩ := p
    obtain ⟨k, b, hk, rfl, rfl, hc⟩ := prtfStringFault_inv hf
    obtain ⟨c, hfirst, harg, heq⟩ := prtfFaulted_eq (n := n) (fmt := fmt) a (s.fits_word _) hc
    refine ⟨_, _, exec_prtf_faulted ⟨h₀, hargs⟩ hfmt ha hf, rfl, prtfEvent_hostEvent .., fun _ => mem_hostReads,
      .inr ⟨k + 1, b, c, Nat.succ_pos k, hk, hc, fun hinv => hinv.badString_of_cStr (s.fits_word _) hc, hfirst, harg,
        heq, rfl⟩, fun hall => ?_⟩
    obtain ⟨str, hstr⟩ := hall (k + 1) (Nat.succ_pos k) hk
    cases hc.symm.trans hstr

end Sys2Proof.Machine
end

section
/-! The host's answers are free (spec 43_exit_and_host_bridge.md R172, R173): the answer that comes next is the one each
opcode takes, where the opcode's rule admits it. -/

namespace Sys2Proof.Machine
open Sys2Proof.Claims
variable {s : State} {a : HostAnswer} {rest : List HostAnswer}

/-- A word whose s-value is a number is that number (R12). -/
theorem toNat_of_sval {x : Xlen} {w : Word} {m : Nat} (hw : x.Fits w) (h : x.sval w = m) : w.toNat = m := by
  have hlt : w.toNat < 2 ^ x.bits := hw
  rw [x.sval_eq hw] at h
  split at h <;> omega

/-- It is the word made of that number. -/
theorem word_of_toNat {x : Xlen} {w : Word} {m : Nat} (hw : x.Fits w) (h : w.toNat = m) : x.word m = w := by
  have hlt : m < 2 ^ x.bits := h ▸ hw
  exact BitVec.eq_of_toNat_eq ((x.toNat_word_of_lt hlt).trans h.symm)

/-! ## OPEN, CLOS, READ and MALC -/

/-- READ takes a count of at most `n` and the bytes it counts as they are (R176, U3). -/
theorem readAnswer_of_count {x : Xlen} {n : Nat} (hfits : x.Fits a.result) (hcount : x.sval a.result = a.bytes.length)
    (hn : a.bytes.length ≤ n) : readAnswer x n a = (a.result, a.bytes) := by
  rw [readAnswer_of_nonneg n (by omega), List.take_of_length_le hn, word_of_toNat hfits (toNat_of_sval hfits hcount)]

/-- READ takes an admitted answer as it is (R172, U3). -/
theorem exec_read_takes (hans : s.answers = a :: rest) (hfits : s.cfg.xlen.Fits a.result) (h : ArgsOk s 3)
    (hw : s.Writable (argWord s 1).toNat (argWord s 0).toNat) :
    ∃ t, exec .read s = .next t ∧ t.answers = rest ∧
      (s.cfg.xlen.sval a.result < 0 → t.ax = a.result) ∧
      (s.cfg.xlen.sval a.result = a.bytes.length → a.bytes.length ≤ (argWord s 0).toNat →
        t.ax = a.result ∧ ∀ k (h : k < a.bytes.length), t.byte ((argWord s 1).toNat + k) = a.bytes[k]) := by
  refine ⟨readAnswered s a, hostAsk_of_answers hans _ ▸ exec_read_ok h hw, tail_answers hans, fun hneg => ?_,
    fun hcount hlen => ?_⟩
  · have hres : readResult s a = (s.cfg.xlen.narrow a.result, []) := readAnswer_of_neg _ hneg
    exact (congrArg Prod.fst hres).trans (Xlen.narrow_of_fits _ hfits)
  · have hres : readResult s a = (a.result, a.bytes) := readAnswer_of_count hfits hcount hlen
    refine ⟨congrArg Prod.fst hres, fun k hk => ?_⟩
    rw [readAnswered, hres]
    exact Memory.read_writeBytes_inside _ _ _ k hk

/-- MALC takes 0 or an admitted address as it is (R172, U6). -/
theorem malcResult_of_admitted (hfits : s.cfg.xlen.Fits a.result)
    (h : a.result = 0 ∨ blockOk s a.result (argWord s 0).toNat = true) : malcResult s a = a.result := by
  rcases h with hz | hok
  · exact (malcAnswer_of_zero hz).trans hz.symm
  · exact malcAnswer_of_blockOk hfits hok

/-- MALC uses the next answer, and a block it hands out holds that answer's bytes (R172, U6). -/
theorem exec_malc_takes (hans : s.answers = a :: rest) (h : ArgsOk s 1) :
    ∃ t, exec .malc s = .next t ∧ t.answers = rest ∧ t.ax = malcResult s a ∧
      (malcResult s a ≠ 0 → ∀ k (h : k < a.bytes.length), k < (argWord s 0).toNat →
        t.byte ((malcResult s a).toNat + k) = a.bytes[k]) := by
  have ha := hostAsk_of_answers hans (malcRequest s)
  by_cases hz : malcResult s a = 0
  · exact ⟨_, exec_malc_zero h ha hz, tail_answers hans, rfl, fun hne => absurd hz hne⟩
  · exact ⟨_, exec_malc_block h ha hz, tail_answers hans, rfl, fun _ _ => byte_malcBlockState_inside s a⟩

/-- Settles O57: each of the four asks the host once, gets the next answer, and keeps it where it is admitted. -/
theorem everyAdmittedHostAnswerCanOccur : Obligations.EveryAdmittedHostAnswerCanOccur := by
  intro s a rest hans hfits
  have hax : ∀ q, s.cfg.xlen.narrow (hostAsk s q).result = a.result := fun q => by
    rw [hostAsk_of_answers hans, Xlen.narrow_of_fits _ hfits]
  refine ⟨fun h => ⟨_, exec_clos_ok h, hax _, tail_answers hans⟩,
    fun h str hstr => ⟨_, exec_opn_ok h hstr, hax _, tail_answers hans⟩, exec_read_takes hans hfits,
    fun h => ?_⟩
  obtain ⟨t, ht, hrest, htax, hbytes⟩ := exec_malc_takes hans h
  refine ⟨t, ht, hrest, fun hadmitted => ?_⟩
  have hres : malcResult s a = a.result := malcResult_of_admitted hfits <| hadmitted.imp_right
    fun ⟨halign, hlow, hend, hsize, hfresh⟩ => blockOk_bytes.2 ⟨⟨halign, hlow, hend, hsize⟩, hfresh⟩
  rw [hres] at htax hbytes
  exact ⟨htax, hbytes⟩

/-! ## PRTF and MCMP -/

/-- PRTF takes an admitted result as it is (R177, U9). -/
theorem prtfResult_of_admitted {x : Xlen} {fmt : List Byte} (hfits : x.Fits a.result)
    (h : (0x25 : Byte) ∈ fmt ∨ x.sval a.result < 0 ∨ a.result.toNat = fmt.length) : prtfResult x fmt a = a.result := by
  rw [prtfResult]
  split
  · next hc =>
    obtain ⟨hno, hnonneg⟩ := hc
    rcases h with hpercent | hneg | hcount
    · rw [hasPercent_iff.2 hpercent] at hno
      cases hno
    · exact absurd hneg hnonneg.not_gt
    · exact word_of_toNat hfits hcount
  · exact Xlen.narrow_of_fits _ hfits

/-- The host reads all the addresses it asks for where all are readable (R173). -/
theorem hostReads_of_readable {l : List Word} (h : ∀ w ∈ l, s.Readable w.toNat 1) :
    hostReads s l = l.map fun w => (w.toNat, s.byte w.toNat) := by
  rw [hostReads, List.filter_eq_self.2 fun w hw => (rangeOk_read s w 1).2 (h w hw)]

/-- MCMP takes a word of the sign R182 asks for as it is (U7). -/
theorem mcmpResult_of_admitted {x : Xlen} {p q : Byte} (hfits : x.Fits a.result)
    (h : p.toNat < q.toNat ∧ x.sval a.result < 0 ∨ q.toNat < p.toNat ∧ 0 < x.sval a.result) :
    mcmpResult x p q a = a.result := by
  rcases h with ⟨hlt, hsign⟩ | ⟨hgt, hsign⟩
  · rw [mcmpResult_of_lt x a hlt, negativeWord, if_pos hsign, Xlen.narrow_of_fits x hfits]
  · rw [mcmpResult_of_gt x a hgt, positiveWord, if_pos hsign, Xlen.narrow_of_fits x hfits]

section
variable {n : Word} {fmt : List Byte} (hans : s.answers = a :: rest) (hslots : PrtfSlots s n)
  (hfmt : cStr s (s.word (s.prtfSlot n 0)) = .ok fmt)
include hans hslots hfmt

/-- PRTF takes an admitted result as it is, and with a `%` the host reads where the answer says (R172, U8, U9). -/
theorem exec_prtf_takes (hfits : s.cfg.xlen.Fits a.result) (hf : a.stringFault = none)
    (h : (0x25 : Byte) ∈ fmt ∨ s.cfg.xlen.sval a.result < 0 ∨ a.result.toNat = fmt.length) :
    ∃ t e, exec (.prtf n) s = .next t ∧ t.ax = a.result ∧ t.answers = rest ∧ t.events = e :: s.events ∧
      ((0x25 : Byte) ∈ fmt → (∀ w ∈ a.reads, s.Readable w.toNat 1) →
        e.hostRead = a.reads.map fun w => (w.toNat, s.byte w.toNat)) := by
  have hnone : prtfStringFault s fmt (prtfWords s n) a = none := by rw [prtfStringFault, hf]
  refine ⟨_, _, exec_prtf_done hslots hfmt (hostAsk_of_answers hans _) hnone, prtfResult_of_admitted hfits h,
    tail_answers hans, rfl, fun hpercent hreads => ?_⟩
  have hall : prtfReads fmt a = a.reads := if_pos (hasPercent_iff.2 hpercent)
  exact (congrArg (hostReads s) hall).trans (hostReads_of_readable hreads)

/-- PRTF takes an answer that names a bad string among its arguments (R177, U8). -/
theorem exec_prtf_takes_fault (hpercent : (0x25 : Byte) ∈ fmt) {k : Nat} {b : Word} (hf : a.stringFault = some k)
    (hk : k < s.prtfCount n) (hc : cStr s (s.word (s.prtfSlot n (k + 1))) = .error (.outOfBounds b)) :
    ∃ t c, exec (.prtf n) s = .next t ∧
      t = { s.afterFault (.outOfBounds c) with events := t.events, answers := rest } ∧
      (s.cfg.stringFaultXval = .firstUnreadable → c = b) ∧
      (s.cfg.stringFaultXval = .argument → c = s.word (s.prtfSlot n (k + 1))) := by
  have hsome : prtfStringFault s fmt (prtfWords s n) a = some (s.word (s.prtfSlot n (k + 1)), .outOfBounds b) :=
    prtfStringFault_eq_some.2 ⟨hasPercent_iff.2 hpercent, ⟨k, hf, prtfWords_getElem?_eq_some.2 ⟨hk, rfl⟩⟩, hc⟩
  obtain ⟨c, hfirst, harg, heq⟩ := prtfFaulted_eq (n := n) (fmt := fmt) a (s.fits_word _) hc
  rw [tail_answers hans] at heq
  exact ⟨_, c, exec_prtf_faulted hslots hfmt (hostAsk_of_answers hans _) hsome, heq, hfirst, harg⟩

end

/-- MCMP on ranges that differ uses the next answer, and takes a word of the right sign as it is (R172, U7). -/
theorem exec_mcmp_takes (hans : s.answers = a :: rest) (hfits : s.cfg.xlen.Fits a.result) (h : ArgsOk s 3)
    (ha : s.Readable (argWord s 2).toNat (argWord s 0).toNat) (hb : s.Readable (argWord s 1).toNat (argWord s 0).toNat)
    {p q : Byte} (hd : mcmpDiff s = some (p, q))
    (hsign : p.toNat < q.toNat ∧ s.cfg.xlen.sval a.result < 0 ∨ q.toNat < p.toNat ∧ 0 < s.cfg.xlen.sval a.result) :
    ∃ t, exec .mcmp s = .next t ∧ t.ax = a.result ∧ t.answers = rest := by
  refine ⟨_, exec_mcmp_differ h ha hb hd, ?_, tail_answers hans⟩
  rw [hostAsk_of_answers hans]
  exact mcmpResult_of_admitted hfits hsign

/-- Settles O58: PRTF's two ends and MCMP's result, each from the next answer. -/
theorem everyAdmittedResultOfPrtfAndMcmpCanOccur : Obligations.EveryAdmittedResultOfPrtfAndMcmpCanOccur := by
  refine fun s a rest hans hfits => ⟨fun n fmt h₀ hargs hfmt => ⟨?done, ?fault⟩, ?mcmp⟩
  case done => exact exec_prtf_takes hans ⟨h₀, hargs⟩ hfmt hfits
  case fault => exact fun hpercent k b hf hk hc => exec_prtf_takes_fault hans ⟨h₀, hargs⟩ hfmt hpercent hf hk hc
  case mcmp =>
    intro h ha hb k hk hbefore hsign
    have hne : s.byte ((argWord s 2).toNat + k) ≠ s.byte ((argWord s 1).toNat + k) :=
      hsign.elim (fun hlt => ne_of_toNat_lt hlt.1) fun hgt => (ne_of_toNat_lt hgt.1).symm
    exact exec_mcmp_takes hans hfits h ha hb (mcmpDiff_eq_some hk hbefore hne) hsign

end Sys2Proof.Machine
end

section
/-! How a step of a Running core ends: still Running, by EXIT, or in one of the four faults (spec 60_exceptions.md R206,
R208, R216). -/

namespace Sys2Proof.Machine
variable {s t : State}

/-- A core that is not Running takes no step (R208; the stop is log 8's). -/
theorem step_of_not_running (hr : ¬ s.Running) : step s = .fault .halted := if_neg hr

/-- A Running core takes the fault of its fetch or executes what it fetched, and every instruction answers (R83). -/
theorem State.Running.step_next (hr : s.Running) : ∃ t, step s = .next t := by
  cases hf : fetchInstr s with
  | ok i => rw [step_of_fetchInstr_ok hr hf]; exact exec_answers_next i s
  | error e => exact ⟨_, step_of_fetchInstr_error hr hf⟩

/-- Settles O8, from the two halves above. -/
theorem stepAnswersNextExactlyWhenRunning : Obligations.StepAnswersNextExactlyWhenRunning := fun _ =>
  ⟨State.Running.step_next, step_of_not_running⟩

/-- CAUSE is one of the codes 1 to 4 after a fault (R201). -/
theorem Trap.code_bounds (e : Trap) : 1 ≤ e.code.toNat ∧ e.code.toNat ≤ 4 := by
  cases e <;> simp [Trap.code]

/-- How an effect leaves the run-status registers: as they were, as EXIT writes them, or as a fault does, which changes
nothing else but the host's record (R206, R216). -/
theorem Effect.ends {i : Instr} (he : Effect i s t) :
    (t.runstate = s.runstate ∧ t.cause = s.cause ∧ t.xval = s.xval) ∨
    (i = .exit ∧ s.StackSlot s.sp ∧ t = { s with runstate := 1, xval := s.word s.sp }) ∨
    ∃ e : Trap, t = { s.afterFault e with events := t.events, answers := t.answers } := by
  cases he with
  | done | block => exact .inl ⟨rfl, rfl, rfl⟩
  | exit op slot => exact .inr (.inl ⟨op, slot, rfl⟩)
  | fault e => exact .inr (.inr ⟨e, rfl⟩)
  | hostFault b => exact .inr (.inr ⟨.outOfBounds b, rfl⟩)

/-- The three ends of a step of a Running core (R216), of which a fault changes nothing but the run-status registers and
the host's record (R206). -/
theorem step_ends (h : step s = .next t) :
    (t.Running ∧ t.cause = s.cause ∧ t.xval = s.xval) ∨
    (fetchInstr s = .ok .exit ∧ s.StackSlot s.sp ∧ t = { s with runstate := 1, xval := s.word s.sp }) ∨
    ∃ e : Trap, t = { s.afterFault e with events := t.events, answers := t.answers } := by
  obtain ⟨hr, ⟨e, -, rfl⟩ | ⟨i, hi, -, -, heffect⟩⟩ := step_cases h
  · exact .inr (.inr ⟨e, rfl⟩)
  · rcases heffect.ends with ⟨hrun, hstatus⟩ | ⟨rfl, hexit⟩ | hfault
    · exact .inl ⟨hrun.trans hr, hstatus⟩
    · exact .inr (.inl ⟨hi, hexit⟩)
    · exact .inr (.inr hfault)

/-- Settles O9: of the three ends only the fault leaves the core Faulted. -/
theorem faultsArePrecise : Obligations.FaultsArePrecise := by
  intro s t _ hstep hf
  rcases step_ends hstep with ⟨hrun, -⟩ | ⟨-, -, rfl⟩ | ⟨e, ht⟩
  · exact absurd (hrun.symm.trans hf) (by decide)
  · exact absurd hf (show (1 : BitVec 2) ≠ 2 by decide)
  · rw [ht]
    exact ⟨e, rfl, rfl, rfl, rfl, rfl, rfl, rfl, rfl⟩

/-- Settles O10: the three ends, the fault's with its code in 1 to 4. -/
theorem onlyExitAndFaultsEndTheRun : Obligations.OnlyExitAndFaultsEndTheRun := by
  intro s t _ hstep
  rcases step_ends hstep with hrunning | hexit | ⟨e, ht⟩
  · exact .inl hrunning
  · exact .inr (.inl hexit)
  · rw [ht]
    exact .inr (.inr ⟨rfl, e.code_bounds⟩)

end Sys2Proof.Machine
end
